-- ==== Sys2Proof/Word.lean ====
section
/-!
DEFINITION. The byte: the unit of image memory, of the data bus and of the latch channel (R8, R43).
-/

namespace Sys2Proof

/-- A byte, an unsigned number in [0, 255], bit 0 its least significant bit (R8). -/
abbrev Byte := BitVec 8

/-- The presence mask: bit `i` stands for bank `i` (R13). `N ≤ 255` (R5), so 256 bits hold every bank. -/
abbrev Mask := BitVec 256

end Sys2Proof
end

