-- ==== Sys2Proof/Config.lean ====
section
/-!
DEFINITION. What is fixed for a run: the configuration record (R5), the storage content behind the two
collaborators (R33 to R36), and the free values, which the spec leaves open and nothing in Lean can evaluate.
-/

namespace Sys2Proof

/-- The logical value of the line that tells the two address regions apart (R24). -/
inductive Region where
  | lower
  | upper
  deriving DecidableEq, Repr, Inhabited

/-- Treatment of a bank parameter that is no bank index (R74, D18). -/
inductive BankRangePolicy where
  | reject
  | clamp
  deriving DecidableEq, Repr, Inhabited

/-- Where the payload texts come from (R90): the spec's placeholder formatters, or the `k`-th choice of
formatters of which nothing is known but that their texts hold no NUL. -/
inductive Formatters where
  | placeholder
  | free (k : Nat)
  deriving DecidableEq, Repr, Inhabited

/-- The nine command selector bytes (R5, R80). -/
structure Selectors where
  dirFirst : Byte
  dirNext : Byte
  romListFirst : Byte
  romListNext : Byte
  romIn : Byte
  romOut : Byte
  configSet : Byte
  led : Byte
  picoload : Byte
  deriving DecidableEq, Repr

/-- The configuration record of R5: every implementation parameter, fixed for a run (R32).
`ADDR_MASK`, `ROM_SIZE` and `PAYLOAD_MAX` are derived, below. -/
structure Config where
  /-- `N`, the number of upper bank slots. -/
  n : Nat
  /-- `ADDR_BITS`, the ROM address-line width. -/
  addrBits : Nat
  /-- `HOST_ADDR_BITS`, the width of the address the engine samples. -/
  hostAddrBits : Nat
  /-- `PREFIX`. -/
  prefixByte : Byte
  /-- `CMD_DIR_FIRST` to `CMD_PICOLOAD`. -/
  selectors : Selectors
  /-- `LEGACY_IGNORED`. -/
  legacyIgnored : List Byte
  /-- `RESP_OFFSET`. -/
  respOffset : Nat
  /-- `RESP_SIZE`. -/
  respSize : Nat
  /-- `STATUS_ERROR`. -/
  statusError : Byte
  /-- `NAME_PTR_OFFSET`. -/
  namePtrOffset : Nat
  /-- `NAME_MAX`. -/
  nameMax : Nat
  /-- `LATCH_Q_DEPTH`. -/
  latchQDepth : Nat
  /-- `BANK_RANGE_POLICY`. -/
  bankRangePolicy : BankRangePolicy
  /-- `CFG_FAIL_RESETS`. -/
  cfgFailResets : Bool
  /-- `FW_VERSION`. -/
  fwVersion : List Byte
  /-- `FmtDir`, `FmtRom`, `FmtBanner`, `ErrText`. -/
  formatters : Formatters
  deriving DecidableEq, Repr

/-- `ROM_SIZE = 2^ADDR_BITS` (R5, D3). -/
def Config.romSize (c : Config) : Nat := 2 ^ c.addrBits

/-- `ADDR_MASK = 2^ADDR_BITS − 1` (R5). -/
def Config.addrMask (c : Config) : Nat := 2 ^ c.addrBits - 1

/-- `PAYLOAD_MAX = RESP_SIZE − 4` (R5). -/
def Config.payloadMax (c : Config) : Nat := c.respSize - 4

/-- The placeholder selectors 0x01 to 0x09 (R80; D4: never a claim about the repository). -/
def Selectors.default : Selectors :=
  { dirFirst := 0x01, dirNext := 0x02, romListFirst := 0x03, romListNext := 0x04, romIn := 0x05,
    romOut := 0x06, configSet := 0x07, led := 0x08, picoload := 0x09 }

/-- The placeholder defaults of R5. DESIGN CHOICE, unsafe (log entry 4): numbers for `State.reset` and the
tests; every statement quantifies over the record. PRESUMED, unsafe (log entry 5): `latchQDepth`, which the
spec leaves without a default. -/
def Config.default : Config :=
  { n := 12, addrBits := 14, hostAddrBits := 16, prefixByte := 0xFC, selectors := Selectors.default,
    legacyIgnored := [], respOffset := 0x3F00, respSize := 256, statusError := 2, namePtrOffset := 4,
    nameMax := 32, latchQDepth := 8, bankRangePolicy := .reject, cfgFailResets := false,
    fwVersion := [0x50, 0x49, 0x43, 0x4F, 0x52, 0x4F, 0x4D], formatters := .placeholder }

/-- A ROM image, `byte[ROM_SIZE]`, offset 0 first (R33). -/
abbrev Image := List Byte

/-- One entry of the directory the collaborator lists (R34). -/
structure DirItem where
  name : List Byte
  size : Nat
  deriving DecidableEq, Repr

/-- What a configuration file assigns (R35): the lower image if its `L:` entry loads, and for each bank
the image it names, `none` where it names none or the file does not load. -/
structure BankSet where
  lower : Option Image
  upper : List (Option Image)
  deriving DecidableEq, Repr

/-- The storage content, fixed for a run (R36): the ROM files that open, by path; the directory, `none`
when it cannot be opened; the configurations that exist, by name. -/
structure Storage where
  roms : List (List Byte × Image)
  dir : Option (List DirItem)
  configs : List (List Byte × BankSet)
  deriving DecidableEq, Repr

/-- No file, an empty directory, no configuration. DESIGN CHOICE, unsafe (log entry 6). -/
def Storage.empty : Storage := { roms := [], dir := some [], configs := [] }

/-- The reported error causes with their datum (R91, R221). -/
inductive Cause where
  /-- `rom-in`, `rom-out`: the bank parameter is out of range under `Reject`. -/
  | badBank (p0 : Byte)
  /-- `rom-in`: the file cannot be opened. -/
  | fileNotFound (path : List Byte)
  /-- `rom-in`: the file opened but reading it failed part-way. -/
  | readFail (path : List Byte)
  /-- `config-set`: the configuration cannot be opened. -/
  | configNotFound (name : List Byte)
  /-- `dir-first`, `dir-next`: the directory cannot be opened or read. -/
  | dirFail
  deriving DecidableEq, Repr

/-- The arguments of the four payload formatters (R90). -/
inductive TextReq where
  | dir (name : List Byte) (size : Nat)
  | banner (mask : Mask)
  | rom (bank : Nat) (type major minor patch : Byte) (name : List Byte)
  | error (e : Cause)
  deriving DecidableEq, Repr

/-- How one collaborator call answers (R36): as the storage content would, with a failure, or (only
`Fs.ReadRom`) with a read that breaks off. -/
inductive AnswerKind where
  | content
  | fail
  | broken
  deriving DecidableEq, Repr, Inhabited

/-- What the host does to the block, one step each (R262, R263), and its one breach of duty (R264). -/
inductive HostAct where
  /-- Begin a read cycle: `rom_enable` on, `region` and `addr` presented. -/
  | present (region : Region) (addr : Nat)
  /-- Sample the data lines. -/
  | sample
  /-- End the read cycle: `rom_enable` off. -/
  | drop
  /-- One latch write `LW(b)`. -/
  | latch (b : Byte)
  /-- The duty of R264 broken: `rom_enable` on while the host is held in reset (R56, R237). -/
  | breach (region : Region) (addr : Nat)
  deriving DecidableEq, Repr

/-- Whose turn it is (R50). -/
inductive Turn where
  /-- Context A: one engine iteration (R120). -/
  | engine
  /-- Context B: one step, a received byte or one micro-step (R140, R150). -/
  | protocol
  /-- Context B: the steps of the next whole instruction in a row, no other agent's step between them. -/
  | protocolWhole
  /-- The host: one act. -/
  | host (h : HostAct)
  deriving DecidableEq, Repr, Inhabited

/-! The free values. None has a body Lean can use: a claim about one holds whatever it is. Each is applied
to the number of the draw (`State.draws`); log entry 7. -/

/-- Byte `j` of draw `k`: window bytes a response does not cover (U1), bytes of a broken load (U7), the byte
read from a released bus (U3), the byte driven by a read under reset (U4). -/
opaque Config.freeByte : Nat → Nat → Byte

/-- A free bit: `led` for a parameter above 1 (U2), the presence bit after a broken load (U7), whether a read
under reset drives at all (U4). -/
opaque Config.freeBool : Nat → Bool

/-- How a collaborator call answers (U8). -/
opaque Config.freeAnswer : Nat → AnswerKind

/-- The queue after an overflow (U5). -/
opaque Config.freeQueue : Nat → List Byte

/-- Which of the window writes still to do comes next: write number `i` of draw `k` (R108: "in any order"). -/
opaque Config.freePick : Nat → Nat → Nat

/-- The same for the byte writes of a load of bank `n`: write number `i` of draw `k` (R102: "any order"). -/
opaque Config.freeLoadPick : Nat → Nat → Nat → Nat

/-- Whose turn it is where nothing has decided it (R50, R32). -/
opaque Config.freeTurn : Nat → Turn

/-- The text the `k`-th choice of formatters gives (U14). -/
opaque Config.freeText : Nat → TextReq → List Byte

end Sys2Proof
end

