-- ==== Sys2Proof/Syntax.lean ====
section
/-!
DEFINITION. The instruction set: one constructor per row of the opcode table, in the table's order (R70, R80).
The encoding is in Decode, the meaning in Machine.
-/

namespace Sys2Proof

/-- What the two decoders decode: bus samples, latch bytes in `Idle`, command sequences (R1, R70). -/
inductive Instr where
  /-- `RELEASE`: a sample with `rom_enable` off; region and address are ignored (R121). -/
  | release
  /-- `RD.L`: a read of the lower region (R122). -/
  | rdL (addr : Nat)
  /-- `RD.U`: a read of the upper region (R123). -/
  | rdU (addr : Nat)
  /-- `PFX`: the prefix byte in `Idle` (R141). -/
  | pfx
  /-- `IGN`: a legacy byte in `Idle` (R142). -/
  | ign (b : Byte)
  /-- `SEL`: any other byte in `Idle`, the bank number (R143). -/
  | sel (bank : Byte)
  /-- `DIR.FIRST` (R170). -/
  | dirFirst
  /-- `DIR.NEXT` (R171). -/
  | dirNext
  /-- `ROMLIST.FIRST` (R173). -/
  | romListFirst
  /-- `ROMLIST.NEXT` (R174). -/
  | romListNext
  /-- `ROM.IN n, "path"` (R190). -/
  | romIn (p0 : Byte) (path : List Byte)
  /-- `ROM.OUT n` (R192). -/
  | romOut (p0 : Byte)
  /-- `CFG.SET "name"` (R194). -/
  | cfgSet (name : List Byte)
  /-- `LED v` (R210). -/
  | led (p0 : Byte)
  /-- `PICOLOAD` (R213). -/
  | picoload
  /-- `UNKNOWN`: the prefix and a byte that selects no command (R214). -/
  | unknown (b : Byte)
  deriving DecidableEq, Repr

/-- The nine commands (R80). -/
inductive Cmd where
  | dirFirst
  | dirNext
  | romListFirst
  | romListNext
  | romIn
  | romOut
  | configSet
  | led
  | picoload
  deriving DecidableEq, Repr

/-- Which kind of byte a collecting session awaits (R18). -/
inductive Phase where
  | fixed
  | len
  | str
  deriving DecidableEq, Repr

/-- The three statuses a response carries (R83). -/
inductive Status where
  | ok
  | done
  | error
  deriving DecidableEq, Repr

/-- The response kinds `KIND_NONE` and `KIND_STRING` (R5, R83). -/
inductive Kind where
  | none
  | string
  deriving DecidableEq, Repr

/-- An image selector (R8). -/
inductive ImgSel where
  | lower
  | upper (n : Nat)
  deriving DecidableEq, Repr

end Sys2Proof
end

