-- ==== Sys2Proof/WellFormed.lean ====
section
/-!
DEFINITION. Which configurations, storages and instructions are well-formed. All three are plain data, so
each is a decidable check.
-/

namespace Sys2Proof

/-- The nine selector bytes, in the order of R80. -/
def Selectors.toList (t : Selectors) : List Byte :=
  [t.dirFirst, t.dirNext, t.romListFirst, t.romListNext, t.romIn, t.romOut, t.configSet, t.led, t.picoload]

/-- A NUL-free ASCII text (R5, `FW_VERSION`). -/
def asciiText (t : List Byte) : Bool := t.all fun b => b ≠ 0 && b.toNat < 128

/-- The constraints on the sizes and widths (R5). -/
def Config.sizesOk (c : Config) : Bool :=
  1 ≤ c.n && c.n ≤ 255 && 1 ≤ c.addrBits && c.addrBits ≤ c.hostAddrBits && 1 ≤ c.latchQDepth &&
    1 ≤ c.nameMax && c.nameMax ≤ c.payloadMax && asciiText c.fwVersion

/-- The constraints on the bytes of the protocol (R6). -/
def Config.bytesOk (c : Config) : Bool :=
  c.n ≤ c.prefixByte.toNat && !c.legacyIgnored.contains c.prefixByte && c.selectors.toList.Nodup &&
    c.statusError ≠ 0 && c.statusError ≠ 1

/-- The Response Window lies inside the image, above the header bytes and the name pointer (R5, R7). -/
def Config.windowOk (c : Config) : Bool :=
  5 ≤ c.respSize && c.respOffset + c.respSize ≤ c.romSize && 4 ≤ c.respOffset &&
    c.namePtrOffset + 1 < c.respOffset && c.namePtrOffset + 1 < c.romSize

/-- A well-formed configuration (R5, R6, R7). The machine refuses any other. -/
def Config.wf (c : Config) : Bool := c.sizesOk && c.bytesOk && c.windowOk

/-- An image is `byte[ROM_SIZE]` (R33). -/
def Image.wf (c : Config) (img : Image) : Bool := img.length = c.romSize

/-- The images a configuration file gives are whole, one entry per bank (R35). -/
def BankSet.wf (c : Config) (b : BankSet) : Bool :=
  b.lower.all (Image.wf c) && b.upper.length = c.n && b.upper.all fun o => o.all (Image.wf c)

/-- The storage content answers as R33 to R35 say: whole images, NUL-free entry names. -/
def Storage.wf (c : Config) (st : Storage) : Bool :=
  st.roms.all (fun e => Image.wf c e.2) && st.dir.all (fun d => d.all fun e => !e.name.contains 0) &&
    st.configs.all fun e => BankSet.wf c e.2

/-- A string argument fits its length byte (R76, R86). -/
def stringOk (t : List Byte) : Bool := t.length ≤ 255

/-- The instructions the encodings of configuration `c` can spell (R71 to R73, R214). -/
def Instr.wf (c : Config) : Instr → Bool
  | .release => true
  | .rdL addr => addr < 2 ^ c.hostAddrBits
  | .rdU addr => addr < 2 ^ c.hostAddrBits
  | .pfx => true
  | .ign b => b ≠ c.prefixByte && c.legacyIgnored.contains b
  | .sel b => b ≠ c.prefixByte && !c.legacyIgnored.contains b
  | .dirFirst => true
  | .dirNext => true
  | .romListFirst => true
  | .romListNext => true
  | .romIn _ path => stringOk path
  | .romOut _ => true
  | .cfgSet name => stringOk name
  | .led _ => true
  | .picoload => true
  | .unknown b => !c.selectors.toList.contains b

end Sys2Proof
end

