-- ==== Sys2Proof/Decode.lean ====
section
/-!
DEFINITION. The decoders of the bus sample and of the latch byte stream, total on any input, and the encoder
written from the same tables (R70 to R77, R80).
-/

namespace Sys2Proof

/-- The nine commands in the order of R80. -/
def Cmd.all : List Cmd :=
  [.dirFirst, .dirNext, .romListFirst, .romListNext, .romIn, .romOut, .configSet, .led, .picoload]

/-- The selector byte of a command (R80). -/
def Config.selector (c : Config) : Cmd → Byte
  | .dirFirst => c.selectors.dirFirst
  | .dirNext => c.selectors.dirNext
  | .romListFirst => c.selectors.romListFirst
  | .romListNext => c.selectors.romListNext
  | .romIn => c.selectors.romIn
  | .romOut => c.selectors.romOut
  | .configSet => c.selectors.configSet
  | .led => c.selectors.led
  | .picoload => c.selectors.picoload

/-- How many fixed parameter bytes follow the selector (R73, R80). -/
def Cmd.nfixed : Cmd → Nat
  | .romIn => 1
  | .romOut => 1
  | .led => 1
  | .dirFirst => 0
  | .dirNext => 0
  | .romListFirst => 0
  | .romListNext => 0
  | .configSet => 0
  | .picoload => 0

/-- Whether a length-prefixed string follows the fixed parameters (R73, R80). -/
def Cmd.hasString : Cmd → Bool
  | .romIn => true
  | .configSet => true
  | .dirFirst => false
  | .dirNext => false
  | .romListFirst => false
  | .romListNext => false
  | .romOut => false
  | .led => false
  | .picoload => false

/-- `lookup(b)`: the command a selector byte names, if any (R145). -/
def lookup (c : Config) (b : Byte) : Option Cmd := Cmd.all.find? fun k => c.selector k == b

/-- The first fixed parameter byte. -/
def firstByte (fixed : List Byte) : Byte := fixed.headD 0

/-- The instruction a command and its collected bytes make. -/
def Instr.ofCmd (k : Cmd) (fixed buffer : List Byte) : Instr :=
  match k with
  | .dirFirst => .dirFirst
  | .dirNext => .dirNext
  | .romListFirst => .romListFirst
  | .romListNext => .romListNext
  | .romIn => .romIn (firstByte fixed) buffer
  | .romOut => .romOut (firstByte fixed)
  | .configSet => .cfgSet buffer
  | .led => .led (firstByte fixed)
  | .picoload => .picoload

/-- The two-bit opcode of a sample, `rom_enable` above `region` (R71). -/
def busOpcode (romEnable : Bool) (region : Region) : BitVec 2 :=
  match romEnable, region with
  | false, .lower => 0b00
  | false, .upper => 0b01
  | true, .lower => 0b10
  | true, .upper => 0b11

/-- The engine's decoder: `0r` is `RELEASE`, `10` is `RD.L`, `11` is `RD.U` (R71). -/
def decodeBus (op : BitVec 2) (addr : Nat) : Instr :=
  if op.getLsbD 1 then (if op.getLsbD 0 then .rdU addr else .rdL addr) else .release

/-- The class of a byte received in `Idle`, tested in the order prefix, ignored, select (R72, R144). -/
def decodeIdle (c : Config) (b : Byte) : Instr :=
  if b = c.prefixByte then .pfx else if c.legacyIgnored.contains b then .ign b else .sel b

/-- Why a byte list holds no whole instruction. -/
inductive DecodeError where
  /-- There is no byte. -/
  | noByte
  /-- The bytes end inside a command sequence, which the protocol goes on waiting for (R77, R258). -/
  | truncated
  /-- Bytes are left over where exactly one instruction was asked for. -/
  | leftOver
  deriving DecidableEq, Repr

/-- What a decoder answers: an instruction and the bytes after it, or why there is none. -/
inductive Decoded where
  | instr (i : Instr) (rest : List Byte)
  | error (e : DecodeError)
  deriving DecidableEq, Repr

/-- The length-prefixed string of a command whose fixed bytes are read (R76). -/
def decodeString (k : Cmd) (fixed : List Byte) : List Byte → Decoded
  | [] => .error .truncated
  | len :: rest =>
    if rest.length < len.toNat then .error .truncated
    else .instr (.ofCmd k fixed (rest.take len.toNat)) (rest.drop len.toNat)

/-- The parameter bytes of a known command (R73). -/
def decodeParams (k : Cmd) (bytes : List Byte) : Decoded :=
  if bytes.length < k.nfixed then .error .truncated
  else if k.hasString then decodeString k (bytes.take k.nfixed) (bytes.drop k.nfixed)
  else .instr (.ofCmd k (bytes.take k.nfixed) []) (bytes.drop k.nfixed)

/-- The bytes after a prefix. A prefix with nothing after it is `PFX` alone (R141). -/
def decodeCommand (c : Config) : List Byte → Decoded
  | [] => .instr .pfx []
  | b :: rest =>
    match lookup c b with
    | none => .instr (.unknown b) rest
    | some k => decodeParams k rest

/-- The latch byte stream read from `Idle`: the first whole instruction and the bytes after it. -/
def decode (c : Config) : List Byte → Decoded
  | [] => .error .noByte
  | b :: rest => if b = c.prefixByte then decodeCommand c rest else .instr (decodeIdle c b) rest

/-- An encoded instruction: a bus sample (its opcode and the address beside it), or latch bytes in arrival
order. -/
inductive Encoding where
  | bus (op : BitVec 2) (addr : Nat)
  | latch (bytes : List Byte)
  deriving DecidableEq, Repr

/-- The length byte and the string (R76). -/
def encodeString (t : List Byte) : List Byte := BitVec.ofNat 8 t.length :: t

/-- The latch bytes of a command sequence (R73, R86). -/
def encodeCmd (c : Config) (k : Cmd) (params : List Byte) : List Byte := c.prefixByte :: c.selector k :: params

/-- The encoder, row by row of the opcode table (R71, R72, R73, R86). -/
def encode (c : Config) : Instr → Encoding
  | .release => .bus 0b00 0
  | .rdL addr => .bus 0b10 addr
  | .rdU addr => .bus 0b11 addr
  | .pfx => .latch [c.prefixByte]
  | .ign b => .latch [b]
  | .sel b => .latch [b]
  | .dirFirst => .latch (encodeCmd c .dirFirst [])
  | .dirNext => .latch (encodeCmd c .dirNext [])
  | .romListFirst => .latch (encodeCmd c .romListFirst [])
  | .romListNext => .latch (encodeCmd c .romListNext [])
  | .romIn p0 path => .latch (encodeCmd c .romIn (p0 :: encodeString path))
  | .romOut p0 => .latch (encodeCmd c .romOut [p0])
  | .cfgSet name => .latch (encodeCmd c .configSet (encodeString name))
  | .led p0 => .latch (encodeCmd c .led [p0])
  | .picoload => .latch (encodeCmd c .picoload [])
  | .unknown b => .latch [c.prefixByte, b]

/-- Read exactly one instruction. -/
def decodeEncoding (c : Config) : Encoding → Decoded
  | .bus op addr => .instr (decodeBus op addr) []
  | .latch bytes =>
    match decode c bytes with
    | .instr i [] => .instr i []
    | .instr _ (_ :: _) => .error .leftOver
    | .error e => .error e

/-- The bytes of a number of `k` bytes, most significant byte first: the opcode table numbers a command's
bits with the first byte most significant (R92). -/
def bytesOf (w : Nat) : Nat → List Byte
  | 0 => []
  | k + 1 => BitVec.ofNat 8 (w / 2 ^ (8 * k)) :: bytesOf w k

/-- Whether a word of the opcode table is a bus sample: the rows of format `BUS` have two bits, so at most one
byte and a value below 4 (DESIGN CHOICE, log entry 21). -/
def isBusWord (nbits w : Nat) : Bool := 0 < nbits && nbits ≤ 8 && w < 4

/-- The latch bytes of a word of the opcode table: at least one byte, and two zero bytes after it, enough for
the parameter and the length byte of the longest sequence the table leaves without bits. -/
def tableBytes (nbits w : Nat) : List Byte := bytesOf w (max 1 ((nbits + 7) / 8)) ++ [0, 0]

/-- The instruction in the first bytes of a word of format `I` (one byte) or `C` (more). -/
def decodeTableBytes (c : Config) (nbits w : Nat) : Decoded :=
  if nbits ≤ 8 then
    match tableBytes nbits w with
    | b :: _ => .instr (decodeIdle c b) []
    | [] => .error .noByte
  else decode c (tableBytes nbits w)

/-- The instruction the decoder reads from a word of the opcode table under the placeholder configuration
(DESIGN CHOICE, log entry 21). -/
def decodeTableWord (nbits w : Nat) : Option Instr :=
  if isBusWord nbits w then some (decodeBus (BitVec.ofNat 2 w) 0)
  else
    match decodeTableBytes Config.default nbits w with
    | .instr i _ => some i
    | .error _ => none

end Sys2Proof
end

