-- ==== Sys2Proof/Machine/State.lean ====
section
/-!
DEFINITION. The machine's state as plain data (R10 to R26), the reasons a step can stop, and the state after
reset (the launch of R37 and R250).
-/

namespace Sys2Proof.Machine

/-- Which upper bank is bus-addressable (R14). -/
inductive ActiveBank where
  | noBank
  | bank (n : Nat)
  deriving DecidableEq, Repr

/-- The output of the data multiplexer (R23). -/
inductive DBus where
  | hiZ
  | drive (v : Byte)
  deriving DecidableEq, Repr

/-- The line by which Context B holds the host in reset (R21). -/
inductive HostReset where
  | released
  | asserted
  deriving DecidableEq, Repr

/-- The indicator output (R22). -/
inductive Led where
  | off
  | on
  deriving DecidableEq, Repr

/-- Where the host stands in its read cycle (R262). -/
inductive HostCycle where
  /-- No cycle, and the engine has run since the last one. -/
  | idle
  /-- (1) has been done: the inputs are held. -/
  | presented
  /-- (2) has been done: an engine iteration has seen the inputs. -/
  | served
  /-- (3) has been done: the data lines have been sampled. -/
  | sampled
  /-- (4) has been done: `rom_enable` is off, and no engine iteration has seen that. -/
  | ending
  deriving DecidableEq, Repr

/-- A micro-step of an executing command (R150). -/
inductive Micro where
  /-- The oracle call `Fs.DirEntry(k)` (R34). -/
  | callDir (k : Nat)
  /-- The oracle call `Fs.ReadRom(path)`, for a load into bank `n` (R33). -/
  | callRead (n : Nat) (path : List Byte)
  /-- The oracle call `Loader.LoadConfig(name)` (R35). -/
  | callConfig (name : List Byte)
  | assertReset
  | releaseReset
  /-- One byte write to image memory. -/
  | write (sel : ImgSel) (offset : Nat) (v : Byte)
  /-- The presence-bit write of bank `n`. -/
  | setPresent (n : Nat) (bit : Bool)
  /-- The clear-all write of `upper_present`. -/
  | clearPresent
  | setListCursor (k : Nat)
  | setDirCursor (k : Option Nat)
  | setLed (l : Led)
  /-- The increment of the sequence byte of bank `n` (R108 part 2). -/
  | bumpSeq (n : Nat)
  deriving DecidableEq, Repr

/-- The session variant `state` (R17, R18). -/
inductive Session where
  | idle
  | awaitingCommand
  | collectingParams (cmd : Cmd) (phase : Phase) (remaining : Nat) (fixed buffer : List Byte)
  | executing (cmd : Cmd) (fixed buffer : List Byte) (todo : List Micro)
  | maintenance
  deriving DecidableEq, Repr

/-- The spec's sticky set `fault` (R26, R236 to R238), a mark for each of its two elements. -/
structure Marks where
  latchOverflow : Bool
  readUnderMutation : Bool
  deriving DecidableEq, Repr

/-- No mark: `fault = ∅`. -/
def Marks.empty : Marks := { latchOverflow := false, readUnderMutation := false }

/-- What is observed of a run (R271). -/
inductive Obs where
  /-- A host read cycle's sample: the region, the address and the value the host got (R262). -/
  | read (region : Region) (addr : Nat) (v : Byte)
  /-- An edge of `host_reset`. -/
  | resetEdge (l : HostReset)
  /-- A change of `led`. -/
  | ledChange (l : Led)
  deriving DecidableEq, Repr

/-- The whole machine. `cfg` and `storage` are fixed for a run (R32, R36): no step changes them. -/
structure State where
  cfg : Config
  storage : Storage
  /-- Image memory, `lower_rom` and `upper_banks` (R11, R12): (address, byte) pairs in canonical form. The
  address of an image byte is `imgAddr` of Ops. -/
  mem : List Host.Cell
  /-- `upper_present` (R13). -/
  upperPresent : Mask
  /-- `active_bank` (R14). -/
  activeBank : ActiveBank
  /-- `dbus_out` (R23). -/
  dbusOut : DBus
  /-- `state` with its fields (R17, R18). -/
  session : Session
  /-- `list_cursor` (R19). -/
  listCursor : Nat
  /-- `dir_cursor` (R20). -/
  dirCursor : Option Nat
  /-- `host_reset` (R21). -/
  hostReset : HostReset
  /-- `led` (R22). -/
  led : Led
  /-- `rom_enable` (R24). -/
  romEnable : Bool
  /-- `region` (R24). -/
  region : Region
  /-- `addr` (R24). -/
  addr : Nat
  /-- The model's own: where the host stands in its read cycle (R262; log entry 32). -/
  cycle : HostCycle
  /-- `latch_q` (R25), oldest byte first. -/
  latchQ : List Byte
  /-- `fault` (R26). -/
  marks : Marks
  /-- The model's own: what has been observed, newest first (R271; log entry 8). -/
  trace : List Obs
  /-- The model's own: how many free values have been drawn (log entry 7). -/
  draws : Nat
  /-- The model's own: how the next collaborator calls answer, as far as that is decided, oldest first
  (R36; log entry 11). -/
  answers : List AnswerKind
  /-- The model's own: the turns already decided, oldest first (R50; log entry 9). -/
  sched : List Turn
  deriving DecidableEq, Repr

/-- Why the machine stops. The block itself never traps and never halts (R220): the one stop is raised by the
model of the host. -/
inductive Fault where
  /-- Raised by a host turn that presents an address of more than `HOST_ADDR_BITS` bits: there is no such
  address (R24, R40; log entry 20). Safe: the model stops. -/
  | noSuchHostAddress
  deriving DecidableEq, Repr

/-- Why the machine refuses. -/
inductive Refusal where
  /-- Raised by an arm of `exec` whose instruction has no meaning yet. Safe: the model stops. -/
  | notModelled (mnemonic : String)
  /-- Raised by `step` when the configuration is not well-formed (R6, U17): the model does not start. Safe. -/
  | illFormedConfig
  deriving DecidableEq, Repr

/-- The launch parameters of R37 and what is fixed for the run. -/
structure Launch where
  cfg : Config
  storage : Storage
  mem : List Host.Cell
  upperPresent : Mask
  activeBank : ActiveBank
  listCursor : Nat
  led : Led
  romEnable : Bool
  region : Region
  addr : Nat
  deriving DecidableEq, Repr

/-- The state at launch (R37, R250): `Idle`, no directory iteration, host released, bus released, an empty
queue, no fault; everything else a launch parameter. A host that starts with `rom_enable` on has just begun a read
cycle (DESIGN CHOICE, log entry 32). -/
def State.launch (p : Launch) : State :=
  { cfg := p.cfg, storage := p.storage, mem := p.mem, upperPresent := p.upperPresent,
    activeBank := p.activeBank, dbusOut := .hiZ, session := .idle, listCursor := p.listCursor,
    dirCursor := none, hostReset := .released, led := p.led, romEnable := p.romEnable, region := p.region,
    addr := p.addr, cycle := if p.romEnable then .presented else .idle, latchQ := [], marks := Marks.empty, trace := [], draws := 0, answers := [],
    sched := [] }

/-- The launch parameters of `State.reset`. DESIGN CHOICE, unsafe (log entries 2 to 6): the spec states none
of these values. -/
def Launch.default : Launch :=
  { cfg := Config.default, storage := Storage.empty, mem := [], upperPresent := 0, activeBank := .noBank,
    listCursor := 0, led := .off, romEnable := false, region := .lower, addr := 0 }

/-- The machine right after reset: the launch with the parameters of `Launch.default`. -/
def State.reset : State := State.launch Launch.default

end Sys2Proof.Machine
end

