-- ==== Sys2Proof/Machine/Text.lean ====
section
/-!
DEFINITION. The payload texts: the spec's placeholder formatters (R90, R91), and the choice between them and a
free text of which only NUL-freeness is known (D15, U14; log entry 17).
-/

namespace Sys2Proof.Machine

/-- One decimal digit. -/
def decDigit (d : Nat) : Byte := BitVec.ofNat 8 (0x30 + d % 10)

/-- Decimal digits in front of `acc`, at most `fuel` of them. -/
def decDigits : Nat → Nat → List Byte → List Byte
  | 0, _, acc => acc
  | fuel + 1, n, acc =>
    if n / 10 = 0 then decDigit n :: acc else decDigits fuel (n / 10) (decDigit n :: acc)

/-- `dec(n)`: the shortest decimal spelling (R8). -/
def dec (n : Nat) : List Byte := decDigits (n + 1) n []

/-- One upper-case hexadecimal digit. -/
def hexDigit (d : Nat) : Byte := BitVec.ofNat 8 (if d % 16 < 10 then 0x30 + d % 16 else 0x37 + d % 16)

/-- `k` hexadecimal digits of `v`, most significant first. -/
def hexDigits (v : Nat) : Nat → List Byte
  | 0 => []
  | k + 1 => hexDigit (v / 16 ^ k) :: hexDigits v k

/-- `hex2(b)` (R8). -/
def hex2 (b : Byte) : List Byte := hexDigits b.toNat 2

/-- `hexmask(mask)`: `ceil(N / 4)` digits, bank `i` at bit `i` (R90). -/
def hexMask (c : Config) (mask : Mask) : List Byte := hexDigits mask.toNat ((c.n + 3) / 4)

/-- `san(s)`: every byte below 0x20 or above 0x7E becomes `?` (R90). -/
def san (t : List Byte) : List Byte := t.map fun b => if b.toNat < 0x20 ∨ 0x7E < b.toNat then 0x3F else b

/-- The placeholder `ErrText` (R91). The byte lists spell `File not found: `, `Read failed: `,
`Config not found: `, `Directory error` and `Bad bank: `. -/
def errText : Cause → List Byte
  | .fileNotFound path =>
    [0x46, 0x69, 0x6C, 0x65, 0x20, 0x6E, 0x6F, 0x74, 0x20, 0x66, 0x6F, 0x75, 0x6E, 0x64, 0x3A, 0x20] ++ san path
  | .readFail path =>
    [0x52, 0x65, 0x61, 0x64, 0x20, 0x66, 0x61, 0x69, 0x6C, 0x65, 0x64, 0x3A, 0x20] ++ san path
  | .configNotFound name =>
    [0x43, 0x6F, 0x6E, 0x66, 0x69, 0x67, 0x20, 0x6E, 0x6F, 0x74, 0x20, 0x66, 0x6F, 0x75, 0x6E, 0x64, 0x3A, 0x20] ++ san name
  | .dirFail =>
    [0x44, 0x69, 0x72, 0x65, 0x63, 0x74, 0x6F, 0x72, 0x79, 0x20, 0x65, 0x72, 0x72, 0x6F, 0x72]
  | .badBank p0 =>
    [0x42, 0x61, 0x64, 0x20, 0x62, 0x61, 0x6E, 0x6B, 0x3A, 0x20] ++ dec p0.toNat

/-- The placeholder formatters (R90). The byte lists spell `, `, ` ROMS:`, `: `, ` `, `.` and ` T`. -/
def placeholderText (c : Config) : TextReq → List Byte
  | .dir name size => san name ++ [0x2C, 0x20] ++ dec size
  | .banner mask => c.fwVersion ++ [0x20, 0x52, 0x4F, 0x4D, 0x53, 0x3A] ++ hexMask c mask
  | .rom bank type major minor patch name =>
    dec bank ++ [0x3A, 0x20] ++ san name ++ [0x20] ++ dec major.toNat ++ [0x2E] ++ dec minor.toNat ++ dec patch.toNat ++
      [0x20, 0x54] ++ dec type.toNat
  | .error e => errText e

/-- The payload text of a request under the configuration's formatters. -/
def payloadText (c : Config) (r : TextReq) : List Byte :=
  match c.formatters with
  | .placeholder => placeholderText c r
  | .free k => (Config.freeText k r).filter fun b => b ≠ 0

end Sys2Proof.Machine
end

