-- ==== Sys2Proof/Machine/Ops.lean ====
section
/-!
DEFINITION. The named operations: memory, the store primitives (R100 to R104), the reset bracket (R105,
R106), the response channel (R108), and the report of an error with the return from it (R8, R231, R232),
which stand in this block where another machine takes an exception.
-/

namespace Sys2Proof.Machine

/-! ## Image memory: a list of cells in canonical form -/

/-- What an address that is not listed reads as. DESIGN CHOICE, unsafe (log entry 2): the images at launch are
launch parameters. -/
def unlistedByte : Byte := 0

/-- The byte at an address. -/
def Memory.read : List Host.Cell → Nat → Byte
  | [], _ => unlistedByte
  | (k, v) :: m, a => if k = a then v else Memory.read m a

/-- Put a byte in front of a list, unless it is what an unlisted address reads as. -/
def Memory.put (a : Nat) (v : Byte) (m : List Host.Cell) : List Host.Cell :=
  if v = unlistedByte then m else (a, v) :: m

/-- Write a byte, keeping the addresses rising and no cell equal to what an unlisted address reads as. -/
def Memory.write : List Host.Cell → Nat → Byte → List Host.Cell
  | [], a, v => Memory.put a v []
  | (k, w) :: m, a, v =>
    if a < k then Memory.put a v ((k, w) :: m)
    else if a = k then Memory.put a v m
    else (k, w) :: Memory.write m a v

/-- The canonical form from address `lo` up. -/
def Memory.wfFrom (lo : Nat) : List Host.Cell → Bool
  | [] => true
  | (k, v) :: m => decide (lo ≤ k) && decide (v ≠ unlistedByte) && Memory.wfFrom (k + 1) m

/-- The canonical form: addresses strictly rising, no cell equal to what an unlisted address reads as. -/
def Memory.wf (m : List Host.Cell) : Bool := Memory.wfFrom 0 m

/-- Image memory laid out in one address range (DESIGN CHOICE, log entry 1): the lower image first, then the
upper banks in order. -/
def imgAddr (c : Config) (sel : ImgSel) (offset : Nat) : Nat :=
  match sel with
  | .lower => offset
  | .upper n => (n + 1) * c.romSize + offset

/-- `ImgRead(sel, a)` (R8). -/
def imgRead (sel : ImgSel) (offset : Nat) (s : State) : Byte := Memory.read s.mem (imgAddr s.cfg sel offset)

/-- `ImgWrite(sel, a, v)` (R8). -/
def imgWrite (sel : ImgSel) (offset : Nat) (v : Byte) (s : State) : State :=
  { s with mem := Memory.write s.mem (imgAddr s.cfg sel offset) v }

/-- Byte writes to one image, in the order of the list. -/
def imgWrites (sel : ImgSel) : List (Nat × Byte) → State → State
  | [], s => s
  | w :: ws, s => imgWrites sel ws (imgWrite sel w.1 w.2 s)

/-! ## Presence bits and the active bank -/

/-- `present(n)`: the test `upper_present[n] = 1`, for `n < N` (R101). -/
def present (n : Nat) (s : State) : Bool := decide (n < s.cfg.n) && s.upperPresent.getLsbD n

/-- The mask with bit `n` written. -/
def maskWithBit (m : Mask) (n : Nat) (bit : Bool) : Mask :=
  if bit then m ||| (1#256 <<< n) else m &&& ~~~(1#256 <<< n)

/-- `upper_present[n] <- bit`. -/
def setPresent (n : Nat) (bit : Bool) (s : State) : State :=
  { s with upperPresent := maskWithBit s.upperPresent n bit }

/-- `upper_present <- 0`, all bits in one write (R194). -/
def clearPresent (s : State) : State := { s with upperPresent := 0 }

/-- The number in `active_bank`, if it holds one. A number that is no bank index is no value of
`active_bank` (R14, R15); it counts as `NoBank` (log entry 19). -/
def activeIndex (s : State) : Option Nat :=
  match s.activeBank with
  | .noBank => none
  | .bank n => if n < s.cfg.n then some n else none

/-- `select_bank(b)` (R100): one store of `Bank b` if it is in range and present, else of `NoBank`. -/
def selectBank (b : Byte) (s : State) : State :=
  { s with activeBank := if present b.toNat s then .bank b.toNat else .noBank }

/-- The bank an upper read is translated to (R47): the active bank if it is present. -/
def xlate (s : State) : Option Nat :=
  match activeIndex s with
  | none => none
  | some n => if present n s then some n else none

/-! ## Outputs, cursors, and what is observed -/

/-- Record an observation (R271). -/
def observe (o : Obs) (s : State) : State := { s with trace := o :: s.trace }

/-- `host_reset <- l`, an edge if the line changes. -/
def driveReset (l : HostReset) (s : State) : State :=
  if s.hostReset = l then s else observe (.resetEdge l) { s with hostReset := l }

/-- Where a read cycle that is cut short leaves the host: `rom_enable` is off and no engine iteration has seen that,
unless there was no cycle (R126, R255). -/
def cycleCut : HostCycle → HostCycle
  | .idle => .idle
  | .presented => .ending
  | .served => .ending
  | .sampled => .ending
  | .ending => .ending

/-- The host's read cycle in progress is cut short: `rom_enable` is off at once (R264). -/
def cutShort (s : State) : State := { s with romEnable := false, cycle := cycleCut s.cycle }

/-- `AssertReset` (R105). It takes effect between host cycles (R264). -/
def assertReset (s : State) : State := driveReset .asserted (cutShort s)

/-- `ReleaseReset` (R106). -/
def releaseReset (s : State) : State := driveReset .released s

/-- `led <- l`, observed if it changes. -/
def setLed (l : Led) (s : State) : State :=
  if s.led = l then s else observe (.ledChange l) { s with led := l }

/-- `list_cursor <- k` (R19). -/
def setListCursor (k : Nat) (s : State) : State := { s with listCursor := k }

/-- `dir_cursor <- k` (R20). -/
def setDirCursor (k : Option Nat) (s : State) : State := { s with dirCursor := k }

/-- One free value has been drawn (log entry 7). -/
def drawn (s : State) : State := { s with draws := s.draws + 1 }

/-- One collaborator call has answered (log entry 11). -/
def answered (s : State) : State := { s with answers := s.answers.tail, draws := s.draws + 1 }

/-! ## Loading and unloading images -/

/-- Byte `a` of an image. A list shorter than `ROM_SIZE` is no image (R33); the bytes it lacks count as
unlisted (log entry 19). -/
def imageByte (img : Image) (a : Nat) : Byte := img.getD a unlistedByte

/-- The byte writes of a load: every offset of the image once (R102, R104). -/
def loadWrites (c : Config) (img : Image) : List (Nat × Byte) :=
  (List.range c.romSize).map fun a => (a, imageByte img a)

/-- `load_upper(n, image)` (R102): all bytes, then the presence bit. -/
def loadUpper (n : Nat) (img : Image) (s : State) : State :=
  setPresent n true (imgWrites (.upper n) (loadWrites s.cfg img) s)

/-- `unload_upper(n)` (R103). -/
def unloadUpper (n : Nat) (s : State) : State := setPresent n false s

/-- `load_lower(image)` (R104). -/
def loadLower (img : Image) (s : State) : State := imgWrites .lower (loadWrites s.cfg img) s

/-- The bytes bank `n` and its presence bit hold after a read that broke off (R190, U7): `img` and `bit`, of
which nothing is known. -/
def loadBroken (n : Nat) (img : Image) (bit : Bool) (s : State) : State :=
  setPresent n bit (imgWrites (.upper n) (loadWrites s.cfg img) s)

/-! ## The response channel -/

/-- The status byte of a status (R83). -/
def statusByte (c : Config) : Status → Byte
  | .ok => 0
  | .done => 1
  | .error => c.statusError

/-- The kind byte of a kind (R83). -/
def kindByte : Kind → Byte
  | .none => 0
  | .string => 1

/-- Byte `i` of the payload region, window byte `[3 + i]`, as a response leaves it (R108): the text cut to
`PAYLOAD_MAX` and its NUL where the kind is a string, and everywhere else any byte, here `fill`. -/
def payloadByte (c : Config) (kind : Kind) (text : List Byte) (fill : Nat → Byte) (i : Nat) : Byte :=
  match kind with
  | .none => fill i
  | .string =>
    let t := text.take c.payloadMax
    if i < t.length then t.getD i 0 else if i = t.length then 0 else fill i

/-- The writes of part 1 of a response, as offsets in the image (R108): status, kind, payload region. -/
def windowWrites (c : Config) (st : Status) (kind : Kind) (text : List Byte) (fill : Nat → Byte) :
    List (Nat × Byte) :=
  (c.respOffset + 1, statusByte c st) :: (c.respOffset + 2, kindByte kind) ::
    (List.range (c.respSize - 3)).map fun i => (c.respOffset + 3 + i, payloadByte c kind text fill i)

/-- Part 2 of a response: the sequence byte of bank `n` is incremented in place, modulo 256 (R111). -/
def bumpSeq (n : Nat) (s : State) : State :=
  imgWrite (.upper n) s.cfg.respOffset (imgRead (.upper n) s.cfg.respOffset s + 1) s

/-- `Respond` into the window of bank `n`, the bytes a response does not cover taken from `fill`. -/
def respondIn (n : Nat) (st : Status) (kind : Kind) (text : List Byte) (fill : Nat → Byte) (s : State) : State :=
  bumpSeq n (imgWrites (.upper n) (windowWrites s.cfg st kind text fill) s)

/-- `Respond(status, kind, text)` (R108): into the image of the active bank, present or not, and nothing at
all when no bank is active (R110). -/
def respond (st : Status) (kind : Kind) (text : List Byte) (s : State) : State :=
  match activeIndex s with
  | none => s
  | some n => drawn (respondIn n st kind text (Config.freeByte s.draws) s)

/-! ## Ending a command -/

/-- A command completes: `state <- Idle`, and nothing is restored (R152, R232). -/
def complete (s : State) : State := { s with session := .idle }

/-- `raise E` (R8, R231): the error is reported in-band; nothing is saved and no mode changes. -/
def raiseError (e : Cause) (s : State) : State := respond .error .string (payloadText s.cfg (.error e)) s

end Sys2Proof.Machine
end

