-- ==== Sys2Proof/Machine/Flags.lean ====
section
/-!
DEFINITION. The one-bit state (R29). The block has no condition codes, and no operation sets one of its bits as
a hidden side effect: the presence bits, `host_reset` and `led` are written by the operations of Ops. Here stand
the two sticky marks, which are the model's (R26, R238).
-/

namespace Sys2Proof.Machine

/-- `fault <- fault ∪ {ReadUnderMutation}` (R237). -/
def markReadUnderMutation (s : State) : State := { s with marks := { s.marks with readUnderMutation := true } }

/-- `fault <- fault ∪ {LatchOverflow}` (R236). -/
def markLatchOverflow (s : State) : State := { s with marks := { s.marks with latchOverflow := true } }

/-- The output of a read under reset: `HiZ` or any byte, draw `k` (R56, U4). -/
def freeBus (k : Nat) : DBus := if Config.freeBool k then .drive (Config.freeByte k 0) else .hiZ

/-- Write the data bus. Under reset a read is outside the contract: the mark is set and the output is free
(R56, R129, R237). -/
def driveBus (out : DBus) (s : State) : State :=
  match s.hostReset with
  | .released => { s with dbusOut := out }
  | .asserted => drawn (markReadUnderMutation { s with dbusOut := freeBus s.draws })

end Sys2Proof.Machine
end

