-- ==== Sys2Proof/Machine/HostModel.lean ====
section
/-!
DEFINITION. The host as an agent (R262 to R266): what each of its acts does to the block's inputs, to the latch
queue and to what is observed.
-/

namespace Sys2Proof.Machine

/-- An engine iteration as the host's read cycle sees it: the inputs held have been seen (R262 (2)), or the bus has
been released after the cycle (R262 (5)). -/
def cycleIterated : HostCycle → HostCycle
  | .idle => .idle
  | .presented => .served
  | .served => .served
  | .sampled => .sampled
  | .ending => .idle

/-- An engine iteration has seen the host's inputs. -/
def iterated (s : State) : State := { s with cycle := cycleIterated s.cycle }

/-- The host may do it (R262 to R264): a cycle begins only when none is in progress, its sample needs an engine
iteration since the inputs were presented (R126), it ends after the sample; a latch write falls outside cycles, and
after the iteration that ends one, since the host then drives the data lines itself (R126, R255; DEDUCED, log entry
15). Under reset the host does none of these; it can only break its duty. DESIGN CHOICE (log entry 33): a read cycle
begun in breach goes on, once the line is released, as any other, and its `rom_enable` is not dropped before that. -/
def hostEnabled (h : HostAct) (s : State) : Bool :=
  match h with
  | .present _ _ => decide (s.hostReset = .released) && (decide (s.cycle = .idle) || decide (s.cycle = .ending))
  | .sample => decide (s.hostReset = .released) && decide (s.cycle = .served)
  | .drop => decide (s.hostReset = .released) && decide (s.cycle = .sampled)
  | .latch _ => decide (s.hostReset = .released) && decide (s.cycle = .idle)
  | .breach _ _ => decide (s.hostReset = .asserted)

/-- The host begins a read cycle (R262 (1)). -/
def hostPresent (region : Region) (addr : Nat) (s : State) : State :=
  { s with romEnable := true, region := region, addr := addr, cycle := .presented }

/-- The value on the data lines: the byte driven, or, on a released bus, a value the block does not determine
(R262 (3), U3). -/
def busValue (s : State) : Byte :=
  match s.dbusOut with
  | .drive v => v
  | .hiZ => Config.freeByte s.draws 0

/-- The host samples the data lines (R262 (3)). -/
def hostSample (s : State) : State :=
  drawn (observe (.read s.region s.addr (busValue s)) { s with cycle := .sampled })

/-- The host ends its read cycle (R262 (4)). -/
def hostDrop (s : State) : State := { s with romEnable := false, cycle := .ending }

/-- A latch write `LW(b)` (R263): the byte is queued, or, into a full queue, the mark is set and the content of
the queue is unspecified (R236, U5). -/
def hostLatch (b : Byte) (s : State) : State :=
  if s.latchQ.length < s.cfg.latchQDepth then { s with latchQ := s.latchQ ++ [b] }
  else drawn (markLatchOverflow { s with latchQ := Config.freeQueue s.draws })

/-- Inputs presented. There is no address of more than `HOST_ADDR_BITS` bits to present (log entry 20). -/
def presentStep (region : Region) (addr : Nat) (s : State) : Host.Outcome State Fault Refusal :=
  if addr < 2 ^ s.cfg.hostAddrBits then .next (hostPresent region addr s) else .fault .noSuchHostAddress

/-- An act the host may do. -/
def hostActs (h : HostAct) (s : State) : Host.Outcome State Fault Refusal :=
  match h with
  | .present region addr => presentStep region addr s
  | .sample => .next (hostSample s)
  | .drop => .next (hostDrop s)
  | .latch b => .next (hostLatch b s)
  | .breach region addr => presentStep region addr s

/-- The host's turn. An act that is not enabled is no step of the host: the turn changes nothing (log entry 15). -/
def hostStep (h : HostAct) (s : State) : Host.Outcome State Fault Refusal :=
  if hostEnabled h s then hostActs h s else .next s

/-- The turns of one host read cycle (R262): one engine iteration while the inputs are held, one after. -/
def readCycle (region : Region) (addr : Nat) : List Turn :=
  [.host (.present region addr), .engine, .host .sample, .host .drop, .engine]

/-- The turns of the latch writes of a byte list, one write each (R86). -/
def latchWrites (bytes : List Byte) : List Turn := bytes.map fun b => .host (.latch b)

/-- The latch bytes of an instruction; none for a bus sample. -/
def latchBytes (c : Config) (i : Instr) : List Byte :=
  match encode c i with
  | .latch bytes => bytes
  | .bus _ _ => []

/-- The lines of a host program (R86) and the pseudo-instructions (R87). A count stands where the number of
repetitions depends on what the host reads. -/
inductive HostLine where
  /-- `RAW b`. -/
  | raw (b : Byte)
  /-- A latch-side line: `SEL b`, `IGN b`, `PFX`, or a command. -/
  | latch (i : Instr)
  /-- `RD.L a`, `RD.U a`. -/
  | read (region : Region) (addr : Nat)
  /-- `WAIT`: turns of Context B, as many as given. -/
  | wait (turns : Nat)
  /-- `POLL`: reads of the sequence byte, as many as it takes. -/
  | poll (reads : Nat)
  /-- `RDWIN k`. -/
  | readWindow (k : Nat)
  /-- `RDSTR`: reads of the payload, as many as it takes to meet the NUL. -/
  | readString (reads : Nat)
  deriving DecidableEq, Repr

/-- Reads of the window bytes from `[first]` on, `k` of them. -/
def windowReads (c : Config) (first k : Nat) : List Turn :=
  (List.range k).flatMap fun i => readCycle .upper (c.respOffset + first + i)

/-- The turns a line is made of (R86, R87). -/
def HostLine.turns (c : Config) : HostLine → List Turn
  | .raw b => latchWrites [b]
  | .latch i => latchWrites (latchBytes c i)
  | .read region addr => readCycle region addr
  | .wait turns => List.replicate turns .protocol
  | .poll reads => (List.range reads).flatMap fun _ => readCycle .upper c.respOffset
  | .readWindow k => windowReads c 1 k
  | .readString reads => windowReads c 3 reads

end Sys2Proof.Machine
end

