-- ==== Sys2Proof/Machine/Operands.lean ====
section
/-!
DEFINITION. The operand forms: the masked address (R41, R42), the bank parameter (R74), the indicator parameter
(R75), and the name an image describes itself by (R84, R175).
-/

namespace Sys2Proof.Machine

/-- `addr & ADDR_MASK` (R42). -/
def maskAddr (c : Config) (addr : Nat) : Nat := addr &&& c.addrMask

/-- A bank parameter (R74): the bank it names; out of range, the last bank under `Clamp`, none under
`Reject`. -/
def resolveBank (c : Config) (p0 : Byte) : Option Nat :=
  if p0.toNat < c.n then some p0.toNat
  else
    match c.bankRangePolicy with
    | .clamp => some (c.n - 1)
    | .reject => none

/-- An indicator parameter (R75): 0 is off, 1 is on, any other value leaves the choice open, here `free`. -/
def resolveLed (p0 : Byte) (free : Bool) : Led :=
  if p0 = 0 then .off else if p0 = 1 then .on else if free then .on else .off

/-- The two-byte name pointer of bank `n`, little-endian (R43), reduced to an image offset (R84). -/
def nameOffset (n : Nat) (s : State) : Nat :=
  let lo := (imgRead (.upper n) s.cfg.namePtrOffset s).toNat
  let hi := (imgRead (.upper n) (s.cfg.namePtrOffset + 1) s).toNat
  maskAddr s.cfg (lo ||| (hi <<< 8))

/-- At most `fuel` name bytes of bank `n` from offset `i`: 7 bits each, up to and with the first byte whose bit
7 is set, the offset wrapping at the end of the image (R175). -/
def nameFrom (n : Nat) (s : State) : Nat → Nat → List Byte
  | 0, _ => []
  | fuel + 1, i =>
    let ch := imgRead (.upper n) i s
    if ch.toNat ≥ 0x80 then [ch &&& 0x7F]
    else (ch &&& 0x7F) :: nameFrom n s fuel (maskAddr s.cfg (i + 1))

/-- `DecodeName(n)` (R175). -/
def decodeName (n : Nat) (s : State) : List Byte := nameFrom n s s.cfg.nameMax (nameOffset n s)

end Sys2Proof.Machine
end

