-- ==== Sys2Proof/Machine/Engine.lean ====
section
/-!
DEFINITION. The Bus Emulation Engine: `RELEASE`, `RD.L`, `RD.U` (R120 to R129).
-/

namespace Sys2Proof.Machine

/-- What a lower read outputs: always driven (R122). -/
def lowerOut (addr : Nat) (s : State) : DBus := .drive (imgRead .lower (maskAddr s.cfg addr) s)

/-- What an upper read outputs: the byte of the active present bank, else the bus is released (R123). -/
def upperOut (addr : Nat) (s : State) : DBus :=
  match xlate s with
  | none => .hiZ
  | some n => .drive (imgRead (.upper n) (maskAddr s.cfg addr) s)

/-- `RELEASE` (R121). -/
def execRelease (s : State) : Host.Outcome State Fault Refusal := .next { s with dbusOut := .hiZ }

/-- `RD.L` (R122). -/
def execRdL (addr : Nat) (s : State) : Host.Outcome State Fault Refusal := .next (driveBus (lowerOut addr s) s)

/-- `RD.U` (R123). -/
def execRdU (addr : Nat) (s : State) : Host.Outcome State Fault Refusal := .next (driveBus (upperOut addr s) s)

end Sys2Proof.Machine
end

