-- ==== Sys2Proof/Machine/Idle.lean ====
section
/-!
DEFINITION. The bytes decoded in `Idle`: `PFX`, `IGN`, `SEL` (R141 to R144).
-/

namespace Sys2Proof.Machine

/-- `PFX` (R141). -/
def execPfx (s : State) : Host.Outcome State Fault Refusal := .next { s with session := .awaitingCommand }

/-- `IGN` (R142): no effect. -/
def execIgn (_b : Byte) (s : State) : Host.Outcome State Fault Refusal := .next s

/-- `SEL` (R143). -/
def execSel (bank : Byte) (s : State) : Host.Outcome State Fault Refusal := .next (selectBank bank s)

end Sys2Proof.Machine
end

