-- ==== Sys2Proof/Machine/Oracle.lean ====
section
/-!
DEFINITION. The collaborators as oracles (R33 to R36): what the storage content answers, and what one call
answers, which is that or a failure (U8). Which of the two is decided by `State.answers` or, past its end, free
(log entry 11).
-/

namespace Sys2Proof.Machine

/-- An answer of `Fs.ReadRom` (R33). -/
inductive ReadAnswer where
  | fail
  | ok (img : Image)
  | broken (img : Image)
  deriving DecidableEq, Repr

/-- An answer of `Fs.DirEntry` (R34). -/
inductive DirAnswer where
  | fail
  | endOfDir
  | entry (name : List Byte) (size : Nat)
  deriving DecidableEq, Repr

/-- An answer of `Loader.LoadConfig` (R35). -/
inductive LoadAnswer where
  | fail
  | ok (set : BankSet)
  deriving DecidableEq, Repr

/-- The first value listed under a key. -/
def findKey {α : Type} (key : List Byte) : List (List Byte × α) → Option α
  | [] => none
  | e :: es => if e.1 = key then some e.2 else findKey key es

/-- What the storage content answers to `Fs.ReadRom(path)`. -/
def storedRom (st : Storage) (path : List Byte) : ReadAnswer :=
  match findKey path st.roms with
  | none => .fail
  | some img => .ok img

/-- What the storage content answers to `Fs.DirEntry(k)`. -/
def storedDir (st : Storage) (k : Nat) : DirAnswer :=
  match st.dir with
  | none => .fail
  | some items =>
    match items[k]? with
    | none => .endOfDir
    | some e => .entry e.name e.size

/-- What the storage content answers to `Loader.LoadConfig(name)`. -/
def storedConfig (st : Storage) (name : List Byte) : LoadAnswer :=
  match findKey name st.configs with
  | none => .fail
  | some set => .ok set

/-- Any bytes, draw `k` (U7). -/
def anyImage (c : Config) (k : Nat) : Image := (List.range c.romSize).map (Config.freeByte k)

/-- How the next call answers (R36). -/
def nextAnswer (s : State) : AnswerKind :=
  match s.answers with
  | a :: _ => a
  | [] => Config.freeAnswer s.draws

/-- `Fs.ReadRom(path)` (R33, R36). -/
def readRom (path : List Byte) (s : State) : ReadAnswer :=
  match nextAnswer s with
  | .content => storedRom s.storage path
  | .fail => .fail
  | .broken => .broken (anyImage s.cfg s.draws)

/-- `Fs.DirEntry(k)` (R34, R36). -/
def dirEntry (k : Nat) (s : State) : DirAnswer :=
  match nextAnswer s with
  | .content => storedDir s.storage k
  | .fail => .fail
  | .broken => .fail

/-- `Loader.LoadConfig(name)` (R35, R36). -/
def loadConfig (name : List Byte) (s : State) : LoadAnswer :=
  match nextAnswer s with
  | .content => storedConfig s.storage name
  | .fail => .fail
  | .broken => .fail

/-- The image a bank set gives bank `n`: `cfg.upper(n)` (R35). -/
def bankSetImage (b : BankSet) (n : Nat) : Option Image := b.upper.getD n none

end Sys2Proof.Machine
end

