-- ==== Sys2Proof/Machine/Listing.lean ====
section
/-!
DEFINITION. The listing commands: `DIR.FIRST`, `DIR.NEXT`, `ROMLIST.FIRST`, `ROMLIST.NEXT` (R170 to R178).
Each is the effect of the command run to its end, from the moment its last byte has been received.
-/

namespace Sys2Proof.Machine

/-- What follows the answer of `Fs.DirEntry(k)` (R170, R171). -/
def dirOn (k : Nat) (a : DirAnswer) (s : State) : State :=
  match a with
  | .fail => raiseError .dirFail (setDirCursor none s)
  | .endOfDir => respond .done .none [] (setDirCursor none s)
  | .entry name size => respond .ok .string (payloadText s.cfg (.dir name size)) (setDirCursor (some (k + 1)) s)

/-- One directory line: the call, then what its answer asks for. -/
def dirLine (k : Nat) (s : State) : State := dirOn k (dirEntry k s) (answered s)

/-- `dir-next`: done where no iteration is open (R171). -/
def dirNext (s : State) : State :=
  match s.dirCursor with
  | none => respond .done .none [] s
  | some k => dirLine k s

/-- The title `rom-list-next` gives bank `n` (R174). -/
def romTitle (n : Nat) (s : State) : List Byte :=
  payloadText s.cfg (.rom n (imgRead (.upper n) 0 s) (imgRead (.upper n) 1 s) (imgRead (.upper n) 2 s)
    (imgRead (.upper n) 3 s) (decodeName n s))

/-- `rom-list-first` (R173). -/
def romListFirst (s : State) : State :=
  respond .ok .string (payloadText s.cfg (.banner s.upperPresent)) (setListCursor 0 s)

/-- `rom-list-next` (R174): one slot, present or not, done past the end. -/
def romListNext (s : State) : State :=
  if s.cfg.n ≤ s.listCursor then respond .done .none [] s
  else if present s.listCursor s then
    respond .ok .string (romTitle s.listCursor s) (setListCursor (s.listCursor + 1) s)
  else respond .ok .none [] (setListCursor (s.listCursor + 1) s)

/-- `DIR.FIRST` (R170). -/
def execDirFirst (s : State) : Host.Outcome State Fault Refusal := .next (complete (dirLine 0 s))

/-- `DIR.NEXT` (R171). -/
def execDirNext (s : State) : Host.Outcome State Fault Refusal := .next (complete (dirNext s))

/-- `ROMLIST.FIRST` (R173). -/
def execRomListFirst (s : State) : Host.Outcome State Fault Refusal := .next (complete (romListFirst s))

/-- `ROMLIST.NEXT` (R174). -/
def execRomListNext (s : State) : Host.Outcome State Fault Refusal := .next (complete (romListNext s))

end Sys2Proof.Machine
end

