-- ==== Sys2Proof/Machine/Misc.lean ====
section
/-!
DEFINITION. `LED`, `PICOLOAD` and the unknown command (R210 to R214).
-/

namespace Sys2Proof.Machine

/-- `led` (R210): the indicator, then the response; no bracket. A parameter above 1
takes the free value of the draw (R75). -/
def ledCmd (p0 : Byte) (s : State) : State :=
  respond .ok .none [] (setLed (resolveLed p0 (Config.freeBool s.draws)) (drawn s))

/-- `LED` (R210). -/
def execLed (p0 : Byte) (s : State) : Host.Outcome State Fault Refusal := .next (complete (ledCmd p0 s))

/-- `PICOLOAD` (R213): reset asserted for good, no response. -/
def execPicoload (s : State) : Host.Outcome State Fault Refusal :=
  .next { assertReset s with session := .maintenance }

/-- `UNKNOWN` (R214): back to `Idle`, nothing reported. -/
def execUnknown (_b : Byte) (s : State) : Host.Outcome State Fault Refusal := .next (complete s)

end Sys2Proof.Machine
end

