-- ==== Sys2Proof/Machine/Mutation.lean ====
section
/-!
DEFINITION. The store-mutating commands: `ROM.IN`, `ROM.OUT`, `CFG.SET` (R190 to R197). Each is the effect of
the command run to its end, from the moment its last byte has been received.
-/

namespace Sys2Proof.Machine

/-- The report of a bank parameter that names no bank (R74, R221). -/
def badBank (p0 : Byte) (s : State) : State := raiseError (.badBank p0) s

/-- What follows the answer of `Fs.ReadRom(path)` for a load into bank `n`; `bit` is the presence bit a broken
read leaves (R190). -/
def romInOn (n : Nat) (path : List Byte) (bit : Bool) (a : ReadAnswer) (s : State) : State :=
  match a with
  | .fail => raiseError (.fileNotFound path) s
  | .ok img => respond .ok .none [] (releaseReset (loadUpper n img (assertReset s)))
  | .broken img =>
    raiseError (.readFail path) (releaseReset (loadBroken n img bit (assertReset s)))

/-- `rom-in` (R190): the bank first, then the file. -/
def romIn (p0 : Byte) (path : List Byte) (s : State) : State :=
  match resolveBank s.cfg p0 with
  | none => badBank p0 s
  | some n => romInOn n path (Config.freeBool s.draws) (readRom path s) (answered s)

/-- `rom-out` (R192). -/
def romOut (p0 : Byte) (s : State) : State :=
  match resolveBank s.cfg p0 with
  | none => badBank p0 s
  | some n => respond .ok .none [] (releaseReset (unloadUpper n (assertReset s)))

/-- Load the lower image, if there is one (R194, R195). -/
def loadLowerOpt (o : Option Image) (s : State) : State :=
  match o with
  | none => s
  | some img => loadLower img s

/-- Load the images a bank set gives the banks of a list (R194). -/
def loadBanks (set : BankSet) : List Nat → State → State
  | [], s => s
  | n :: ns, s =>
    match bankSetImage set n with
    | none => loadBanks set ns s
    | some img => loadBanks set ns (loadUpper n img s)

/-- The whole replacement of the bank set: clear all, the lower image, then every bank (R194). -/
def replaceBanks (set : BankSet) (s : State) : State :=
  loadBanks set (List.range s.cfg.n) (loadLowerOpt set.lower (clearPresent s))

/-- The empty bracket of a failed `config-set`, if the configuration asks for one (R194, R195). -/
def failBracket (s : State) : State := if s.cfg.cfgFailResets then releaseReset (assertReset s) else s

/-- What follows the answer of `Loader.LoadConfig(name)` (R194). -/
def cfgSetOn (name : List Byte) (a : LoadAnswer) (s : State) : State :=
  match a with
  | .fail => raiseError (.configNotFound name) (failBracket s)
  | .ok set => respond .ok .none [] (releaseReset (replaceBanks set (assertReset s)))

/-- `config-set` (R194). -/
def cfgSet (name : List Byte) (s : State) : State := cfgSetOn name (loadConfig name s) (answered s)

/-- `ROM.IN` (R190). -/
def execRomIn (p0 : Byte) (path : List Byte) (s : State) : Host.Outcome State Fault Refusal :=
  .next (complete (romIn p0 path s))

/-- `ROM.OUT` (R192). -/
def execRomOut (p0 : Byte) (s : State) : Host.Outcome State Fault Refusal := .next (complete (romOut p0 s))

/-- `CFG.SET` (R194). -/
def execCfgSet (name : List Byte) (s : State) : Host.Outcome State Fault Refusal := .next (complete (cfgSet name s))

end Sys2Proof.Machine
end

