-- ==== Sys2Proof/Machine/Dispatch.lean ====
section
/-!
DEFINITION. One arm per instruction: its meaning.
-/

namespace Sys2Proof.Machine

def exec (i : Instr) (s : State) : Host.Outcome State Fault Refusal :=
  match i with
  | .release => Sys2Proof.Machine.execRelease s
  | .rdL addr => Sys2Proof.Machine.execRdL addr s
  | .rdU addr => Sys2Proof.Machine.execRdU addr s
  | .pfx => Sys2Proof.Machine.execPfx s
  | .ign b => Sys2Proof.Machine.execIgn b s
  | .sel bank => Sys2Proof.Machine.execSel bank s
  | .dirFirst => Sys2Proof.Machine.execDirFirst s
  | .dirNext => Sys2Proof.Machine.execDirNext s
  | .romListFirst => Sys2Proof.Machine.execRomListFirst s
  | .romListNext => Sys2Proof.Machine.execRomListNext s
  | .romIn p0 path => Sys2Proof.Machine.execRomIn p0 path s
  | .romOut p0 => Sys2Proof.Machine.execRomOut p0 s
  | .cfgSet name => Sys2Proof.Machine.execCfgSet name s
  | .led p0 => Sys2Proof.Machine.execLed p0 s
  | .picoload => Sys2Proof.Machine.execPicoload s
  | .unknown b => Sys2Proof.Machine.execUnknown b s

end Sys2Proof.Machine
end

