-- ==== Sys2Proof/Machine/Micro.lean ====
section
/-!
DEFINITION. A command as the micro-steps it is made of (R150, D44): `stepsOf` is `Steps(cmd, fixed, buffer)`,
`microStep` performs the first one still to do. Between two of them any other agent may step (R151).
-/

namespace Sys2Proof.Machine

/-- One image byte write as a micro-step. -/
def writeMicro (sel : ImgSel) (w : Nat × Byte) : Micro := .write sel w.1 w.2

/-- The writes in an order nothing fixes: the next one is picked by `pick` (R108, "in any order among
themselves"). The first argument is the length of the list. -/
def shuffle {α : Type} (pick : Nat → Nat) : Nat → List α → List α
  | 0, ws => ws
  | len + 1, ws =>
    match ws[pick len % (len + 1)]? with
    | none => ws
    | some w => w :: shuffle pick len (ws.eraseIdx (pick len % (len + 1)))

/-- The micro-steps of `Respond` (R108, R109): the window writes in any order, then the sequence byte (R53);
none where no bank is active (R110). They belong to draw number `State.draws`. -/
def respondSteps (st : Status) (kind : Kind) (text : List Byte) (s : State) : List Micro :=
  match activeIndex s with
  | none => []
  | some n =>
    let ws := windowWrites s.cfg st kind text (Config.freeByte s.draws)
    (shuffle (Config.freePick s.draws) ws.length ws).map (writeMicro (.upper n)) ++ [.bumpSeq n]

/-- The draw of a `Respond`, taken where it has a window to write. -/
def respondDrawn (s : State) : State :=
  match activeIndex s with
  | none => s
  | some _ => drawn s

/-- The micro-steps that report an error (R8). -/
def raiseSteps (e : Cause) (s : State) : List Micro :=
  respondSteps .error .string (payloadText s.cfg (.error e)) s

/-- The micro-steps of a load of bank `n` that leaves its presence bit at `bit`, planned at draw `k`: the byte
writes in any order, then the bit (R102). -/
def loadUpperSteps (c : Config) (k n : Nat) (img : Image) (bit : Bool) : List Micro :=
  (shuffle (Config.freeLoadPick k n) (loadWrites c img).length (loadWrites c img)).map (writeMicro (.upper n)) ++
    [.setPresent n bit]

/-- The micro-steps of a load of the lower image, if there is one (R104). -/
def loadLowerSteps (c : Config) : Option Image → List Micro
  | none => []
  | some img => (loadWrites c img).map (writeMicro .lower)

/-- The micro-steps of the loads a bank set gives the banks of a list, planned at draw `k` (R194). -/
def loadBanksSteps (c : Config) (k : Nat) (set : BankSet) : List Nat → List Micro
  | [] => []
  | n :: ns =>
    match bankSetImage set n with
    | none => loadBanksSteps c k set ns
    | some img => loadUpperSteps c k n img true ++ loadBanksSteps c k set ns

/-- What is still to do, and the state after a draw it may have taken. -/
abbrev Plan := List Micro × State

/-- A plan that ends with a response. -/
def planRespond (before : List Micro) (st : Status) (kind : Kind) (text : List Byte) (s : State) : Plan :=
  (before ++ respondSteps st kind text s, respondDrawn s)

/-- A plan that ends with an error report. -/
def planRaise (before : List Micro) (e : Cause) (s : State) : Plan := (before ++ raiseSteps e s, respondDrawn s)

/-- After `Fs.DirEntry(k)` has answered (R170, R171). -/
def planDir (k : Nat) (a : DirAnswer) (s : State) : Plan :=
  match a with
  | .fail => planRaise [.setDirCursor none] .dirFail s
  | .endOfDir => planRespond [.setDirCursor none] .done .none [] s
  | .entry name size =>
    planRespond [.setDirCursor (some (k + 1))] .ok .string (payloadText s.cfg (.dir name size)) s

/-- After `Fs.ReadRom(path)` has answered (R190). -/
def planRead (n : Nat) (path : List Byte) (bit : Bool) (a : ReadAnswer) (s : State) : Plan :=
  match a with
  | .fail => planRaise [] (.fileNotFound path) s
  | .ok img => planRespond ([.assertReset] ++ loadUpperSteps s.cfg s.draws n img true ++ [.releaseReset]) .ok .none [] s
  | .broken img =>
    planRaise ([.assertReset] ++ loadUpperSteps s.cfg s.draws n img bit ++ [.releaseReset]) (.readFail path) s

/-- After `Loader.LoadConfig(name)` has answered (R194). -/
def planConfig (name : List Byte) (a : LoadAnswer) (s : State) : Plan :=
  match a with
  | .fail =>
    planRaise (if s.cfg.cfgFailResets then [.assertReset, .releaseReset] else []) (.configNotFound name) s
  | .ok set =>
    planRespond
      ([.assertReset, .clearPresent] ++ loadLowerSteps s.cfg set.lower ++
        loadBanksSteps s.cfg s.draws set (List.range s.cfg.n) ++ [.releaseReset]) .ok .none [] s

/-- The plan of `rom-list-next` (R174). -/
def planListNext (s : State) : Plan :=
  if s.cfg.n ≤ s.listCursor then planRespond [] .done .none [] s
  else if present s.listCursor s then
    planRespond [.setListCursor (s.listCursor + 1)] .ok .string (romTitle s.listCursor s) s
  else planRespond [.setListCursor (s.listCursor + 1)] .ok .none [] s

/-- `Steps(cmd, fixed, buffer)` (R150), read off the rule of each command. -/
def stepsOf (k : Cmd) (fixed buffer : List Byte) (s : State) : Plan :=
  match k with
  | .dirFirst => ([.callDir 0], s)
  | .dirNext =>
    match s.dirCursor with
    | none => planRespond [] .done .none [] s
    | some i => ([.callDir i], s)
  | .romListFirst => planRespond [.setListCursor 0] .ok .string (payloadText s.cfg (.banner s.upperPresent)) s
  | .romListNext => planListNext s
  | .romIn =>
    match resolveBank s.cfg (firstByte fixed) with
    | none => planRaise [] (.badBank (firstByte fixed)) s
    | some n => ([.callRead n buffer], s)
  | .romOut =>
    match resolveBank s.cfg (firstByte fixed) with
    | none => planRaise [] (.badBank (firstByte fixed)) s
    | some n => planRespond [.assertReset, .setPresent n false, .releaseReset] .ok .none [] s
  | .configSet => ([.callConfig buffer], s)
  | .led =>
    planRespond [.setLed (resolveLed (firstByte fixed) (Config.freeBool s.draws))] .ok .none [] (drawn s)
  | .picoload => ([.assertReset], s)

/-- Where a command's session goes when nothing is left to do (R152, R213). -/
def afterCmd : Cmd → Session
  | .picoload => .maintenance
  | .dirFirst => .idle
  | .dirNext => .idle
  | .romListFirst => .idle
  | .romListNext => .idle
  | .romIn => .idle
  | .romOut => .idle
  | .configSet => .idle
  | .led => .idle

/-- The session of a command with a plan: `Executing`, or completed when nothing is left to do (R150). -/
def underWay (k : Cmd) (fixed buffer : List Byte) (p : Plan) : State :=
  match p.1 with
  | [] => { p.2 with session := afterCmd k }
  | m :: ms => { p.2 with session := .executing k fixed buffer (m :: ms) }

/-- A command's last byte has arrived (R145, R147, R148, R149). -/
def startCmd (k : Cmd) (fixed buffer : List Byte) (s : State) : State :=
  underWay k fixed buffer (stepsOf k fixed buffer s)

/-- The effect of one micro-step, and what is to do after it: an oracle call plans the rest anew (R150). -/
def runMicro (m : Micro) (todo : List Micro) (s : State) : Plan :=
  match m with
  | .callDir k => planDir k (dirEntry k s) (answered s)
  | .callRead n path => planRead n path (Config.freeBool s.draws) (readRom path s) (answered s)
  | .callConfig name => planConfig name (loadConfig name s) (answered s)
  | .assertReset => (todo, assertReset s)
  | .releaseReset => (todo, releaseReset s)
  | .write sel offset v => (todo, imgWrite sel offset v s)
  | .setPresent n bit => (todo, setPresent n bit s)
  | .clearPresent => (todo, clearPresent s)
  | .setListCursor k => (todo, setListCursor k s)
  | .setDirCursor k => (todo, setDirCursor k s)
  | .setLed l => (todo, setLed l s)
  | .bumpSeq n => (todo, bumpSeq n s)

/-- Context B's one step while `Executing` (R150). -/
def microStep (k : Cmd) (fixed buffer : List Byte) (todo : List Micro) (s : State) : State :=
  match todo with
  | [] => { s with session := afterCmd k }
  | m :: ms => underWay k fixed buffer (runMicro m ms s)

end Sys2Proof.Machine
end

