-- ==== Sys2Proof/Machine/Protocol.lean ====
section
/-!
DEFINITION. The Latch Command Protocol a byte at a time (R140 to R154): what Context B does with the oldest byte
of the queue in each state of its session.
-/

namespace Sys2Proof.Machine

/-- The session goes on collecting. -/
def collect (k : Cmd) (ph : Phase) (remaining : Nat) (fixed buffer : List Byte) (s : State) : State :=
  { s with session := .collectingParams k ph remaining fixed buffer }

/-- The fixed parameters are complete: a string follows, or the command executes (R145, R147). -/
def afterFixed (k : Cmd) (fixed : List Byte) (s : State) : State :=
  if k.hasString then collect k .len 1 fixed [] s else startCmd k fixed [] s

/-- A known selector (R145). -/
def selected (k : Cmd) (s : State) : State :=
  if 0 < k.nfixed then collect k .fixed k.nfixed [] [] s else afterFixed k [] s

/-- A parameter byte (R147, R148, R149). -/
def collectByte (k : Cmd) (ph : Phase) (remaining : Nat) (fixed buffer : List Byte) (b : Byte) (s : State) :
    State :=
  match ph with
  | .fixed =>
    if 1 < remaining then collect k .fixed (remaining - 1) (fixed ++ [b]) buffer s
    else afterFixed k (fixed ++ [b]) s
  | .len => if b = 0 then startCmd k fixed [] s else collect k .str b.toNat fixed [] s
  | .str =>
    if 1 < remaining then collect k .str (remaining - 1) fixed (buffer ++ [b]) s
    else startCmd k fixed (buffer ++ [b]) s

/-- The byte after the prefix (R145, R214). -/
def selectorByte (b : Byte) (s : State) : Host.Outcome State Fault Refusal :=
  match lookup s.cfg b with
  | none => exec (.unknown b) s
  | some k => .next (selected k s)

/-- One step of Context B (R140, R150, R242): a micro-step while `Executing`; the oldest byte while its session
receives; nothing while it is blocked on an empty queue or in `Maintenance`. -/
def protocolStep (s : State) : Host.Outcome State Fault Refusal :=
  match s.session, s.latchQ with
  | .executing k fixed buffer todo, _ => .next (microStep k fixed buffer todo s)
  | .maintenance, _ => .next s
  | .idle, b :: q => exec (decodeIdle s.cfg b) { s with latchQ := q }
  | .awaitingCommand, b :: q => selectorByte b { s with latchQ := q }
  | .collectingParams k ph remaining fixed buffer, b :: q =>
    .next (collectByte k ph remaining fixed buffer b { s with latchQ := q })
  | .idle, [] => .next s
  | .awaitingCommand, [] => .next s
  | .collectingParams _ _ _ _ _, [] => .next s

/-- The steps of Context B through the next whole instruction, none of another agent between them: in `Idle`
with a whole instruction in the queue, that instruction run to its end; otherwise one step (log entry 10). -/
def protocolWhole (s : State) : Host.Outcome State Fault Refusal :=
  match s.session with
  | .idle =>
    match decode s.cfg s.latchQ with
    | .instr i rest => exec i { s with latchQ := rest }
    | .error _ => protocolStep s
  | .awaitingCommand => protocolStep s
  | .collectingParams _ _ _ _ _ => protocolStep s
  | .executing _ _ _ _ => protocolStep s
  | .maintenance => protocolStep s

end Sys2Proof.Machine
end

