-- ==== Sys2Proof/Machine/Agents.lean ====
section
/-!
DEFINITION. Whose turn it is and what it does (R50): the body of the machine's step, and how an instruction is
put where the next step fetches it.
-/

namespace Sys2Proof.Machine

/-- One engine iteration (R120): the sampled inputs decoded and run. The host's read cycle, which waits for it, is
told (R126, R262). -/
def engineStep (s : State) : Host.Outcome State Fault Refusal :=
  exec (decodeBus (busOpcode s.romEnable s.region) s.addr) (iterated s)

/-- What a turn does. -/
def runTurn (t : Turn) (s : State) : Host.Outcome State Fault Refusal :=
  match t with
  | .engine => engineStep s
  | .protocol => protocolStep s
  | .protocolWhole => protocolWhole s
  | .host h => hostStep h s

/-- A free turn, kept to what the host can do: an address has `HOST_ADDR_BITS` bits. -/
def boundTurn (c : Config) (t : Turn) : Turn :=
  match t with
  | .host (.present region addr) => .host (.present region (addr % 2 ^ c.hostAddrBits))
  | .host (.breach region addr) => .host (.breach region (addr % 2 ^ c.hostAddrBits))
  | .host .sample => .host .sample
  | .host .drop => .host .drop
  | .host (.latch b) => .host (.latch b)
  | .engine => .engine
  | .protocol => .protocol
  | .protocolWhole => .protocolWhole

/-- The next turn: the oldest one decided, or a free one (R32, R50). -/
def nextTurn (s : State) : Turn :=
  match s.sched with
  | t :: _ => t
  | [] => boundTurn s.cfg (Config.freeTurn s.draws)

/-- The state once the next turn has been taken off the schedule. -/
def turnTaken (s : State) : State :=
  match s.sched with
  | _ :: ts => { s with sched := ts }
  | [] => drawn s

/-- The machine's step: an ill-formed configuration is refused (R6, U17); otherwise the next turn runs. -/
def machineStep (s : State) : Host.Outcome State Fault Refusal :=
  if s.cfg.wf then runTurn (nextTurn s) (turnTaken s) else .refused .illFormedConfig

/-- The latch bytes of a word of the opcode table: those of the instruction it begins with (log entry 21). -/
def placedBytes (c : Config) (nbits w : Nat) : List Byte :=
  match decodeTableBytes c nbits w with
  | .instr _ rest =>
    if nbits ≤ 8 then (tableBytes nbits w).take 1
    else (tableBytes nbits w).take ((tableBytes nbits w).length - rest.length)
  | .error _ => tableBytes nbits w

/-- A word of the opcode table put where the next step fetches it (log entry 21): a bus sample on the inputs with
the engine's turn next; latch bytes at the head of the queue of an idle session, with Context B's turn next. -/
def placeWord (s : State) (nbits w : Nat) : State :=
  if isBusWord nbits w then
    { s with romEnable := w.testBit 1, region := if w.testBit 0 then .upper else .lower, addr := 0,
             cycle := if w.testBit 1 then .presented else cycleCut s.cycle, sched := .engine :: s.sched }
  else
    { s with session := .idle, latchQ := placedBytes s.cfg nbits w ++ s.latchQ,
             sched := (if nbits ≤ 8 then .protocol else .protocolWhole) :: s.sched }

end Sys2Proof.Machine
end

