-- ==== Sys2Proof/Machine/Step.lean ====
section
/-!
DEFINITION. The step function and the placing of an instruction where it is fetched; their bodies stand in
Agents.
-/

namespace Sys2Proof.Machine

/-- One step of the machine: the next turn of its agents. -/
def step (s : State) : Host.Outcome State Fault Refusal := machineStep s

/-- `s` with a word of the opcode table as the next instruction fetched. -/
def State.withFetchWord (s : State) (nbits w : Nat) : State := placeWord s nbits w

end Sys2Proof.Machine
end

