-- ==== Sys2Proof/Safety.lean ====
section
/-!
DEFINITION. What a legal state is, and what the machine's environment is asked for, in the terms the statements
use (R15, R18, R19, R55, R107, R238, R253, R272).
-/

namespace Sys2Proof.Machine

/-! ## The store and the registers -/

/-- `active_bank` is `NoBank` or `Bank n` with `n < N` (R14, R15). -/
def activeOk (s : State) : Bool :=
  match s.activeBank with
  | .noBank => true
  | .bank n => decide (n < s.cfg.n)

/-- `upper_present` has `N` bits (R13). -/
def maskOk (s : State) : Bool := decide (s.upperPresent.toNat < 2 ^ s.cfg.n)

/-- How many bytes image memory has: the lower image and `N` banks (R40). -/
def imageBytes (c : Config) : Nat := (c.n + 1) * c.romSize

/-- Image memory is in canonical form and lists no address outside it. -/
def memOk (s : State) : Bool := Memory.wf s.mem && s.mem.all fun cell => decide (cell.1 < imageBytes s.cfg)

/-- `list_cursor` is in [0, N] (R19). -/
def cursorOk (s : State) : Bool := decide (s.listCursor ≤ s.cfg.n)

/-- `addr` has `HOST_ADDR_BITS` bits (R24). -/
def inputOk (s : State) : Bool := decide (s.addr < 2 ^ s.cfg.hostAddrBits)

/-- The host stands inside a read cycle, its inputs held. -/
def inCycle (c : HostCycle) : Bool :=
  match c with
  | .idle => false
  | .presented => true
  | .served => true
  | .sampled => true
  | .ending => false

/-- `rom_enable` is on exactly while the host holds the inputs of a cycle (R262), and where no cycle and no end of one
is left, the block drives nothing (R126, R255). -/
def cycleOk (s : State) : Bool :=
  decide (s.romEnable = inCycle s.cycle) && (decide (s.cycle ≠ .idle) || decide (s.dbusOut = .hiZ))

/-- The host keeps its duty under reset: `rom_enable` is off (R264). -/
def heldQuiet (s : State) : Bool := decide (s.hostReset = .released) || decide (s.romEnable = false)

/-- The host's breach of that duty. -/
def isBreach (t : Turn) : Bool :=
  match t with
  | .host (.breach _ _) => true
  | .host (.present _ _) => false
  | .host .sample => false
  | .host .drop => false
  | .host (.latch _) => false
  | .engine => false
  | .protocol => false
  | .protocolWhole => false

/-! ## The session -/

/-- The offset lies in the Response Window (R16). -/
def inWindow (c : Config) (offset : Nat) : Bool :=
  decide (c.respOffset ≤ offset) && decide (offset < c.respOffset + c.respSize)

/-- An image and an offset inside it (R44). -/
def insideImage (c : Config) (sel : ImgSel) (offset : Nat) : Bool :=
  decide (offset < c.romSize) &&
    match sel with
    | .lower => true
    | .upper n => decide (n < c.n)

/-- The write goes into the window of the bank that has one. -/
def windowWrite (c : Config) (win : Option Nat) (sel : ImgSel) (offset : Nat) : Bool :=
  match win, sel with
  | some n, .upper m => decide (n = m) && inWindow c offset
  | some _, .lower => false
  | none, .lower => false
  | none, .upper _ => false

/-- A list of micro-steps keeps the bracket (R55, R107): with the line at `line`, every write of image bytes
outside the window of `win` and every write of presence bits finds it asserted, brackets do not nest, and the
list ends with the line at `fin`. Offsets, banks and cursors are in range; an oracle call is the last of its list
and made outside a bracket (R197). -/
def bracketed (c : Config) (win : Option Nat) (fin : HostReset) : HostReset → List Micro → Bool
  | line, [] => decide (line = fin)
  | line, .assertReset :: ms => decide (line = .released) && bracketed c win fin .asserted ms
  | line, .releaseReset :: ms => decide (line = .asserted) && bracketed c win fin .released ms
  | line, .write sel offset _ :: ms =>
    insideImage c sel offset && (decide (line = .asserted) || windowWrite c win sel offset) &&
      bracketed c win fin line ms
  | line, .setPresent n _ :: ms => decide (n < c.n) && decide (line = .asserted) && bracketed c win fin line ms
  | line, .clearPresent :: ms => decide (line = .asserted) && bracketed c win fin line ms
  | line, .bumpSeq n :: ms => decide (n < c.n) && decide (win = some n) && bracketed c win fin line ms
  | line, .setListCursor k :: ms => decide (k ≤ c.n) && bracketed c win fin line ms
  | line, .setDirCursor _ :: ms => bracketed c win fin line ms
  | line, .setLed _ :: ms => bracketed c win fin line ms
  | line, .callDir _ :: ms => decide (ms = []) && decide (line = .released) && decide (fin = .released)
  | line, .callRead n _ :: ms =>
    decide (n < c.n) && decide (ms = []) && decide (line = .released) && decide (fin = .released)
  | line, .callConfig _ :: ms => decide (ms = []) && decide (line = .released) && decide (fin = .released)

/-- How a command leaves `host_reset` (R107): released, but for `picoload`. -/
def finalLine (k : Cmd) : HostReset := if k = .picoload then .asserted else .released

/-- The parameters a command has collected: its fixed bytes, and a string of at most 255 bytes if it takes one
(R18, R73, R76). -/
def paramsOk (k : Cmd) (fixed buffer : List Byte) : Bool :=
  decide (fixed.length = k.nfixed) && decide (buffer.length ≤ 255) && (k.hasString || decide (buffer = []))

/-- The fields of `CollectingParams` (R18): the count of bytes still awaited fits the phase. -/
def collectOk (k : Cmd) (ph : Phase) (remaining : Nat) (fixed buffer : List Byte) : Bool :=
  match ph with
  | .fixed => decide (1 ≤ remaining) && decide (fixed.length + remaining = k.nfixed) && decide (buffer = [])
  | .len => decide (remaining = 1) && decide (fixed.length = k.nfixed) && k.hasString && decide (buffer = [])
  | .str =>
    decide (1 ≤ remaining) && decide (fixed.length = k.nfixed) && k.hasString &&
      decide (buffer.length + remaining ≤ 255)

/-- The session is a legal value, and `host_reset` is where it leaves it (R17, R18, R107, R213). -/
def sessionOk (s : State) : Bool :=
  match s.session with
  | .idle => decide (s.hostReset = .released)
  | .awaitingCommand => decide (s.hostReset = .released)
  | .collectingParams k ph remaining fixed buffer =>
    decide (s.hostReset = .released) && collectOk k ph remaining fixed buffer
  | .executing k fixed buffer todo =>
    paramsOk k fixed buffer && decide (todo ≠ []) && bracketed s.cfg (activeIndex s) (finalLine k) s.hostReset todo
  | .maintenance => decide (s.hostReset = .asserted)

/-- A legal state: every register and memory within what the spec gives it. -/
def State.legal (s : State) : Bool :=
  activeOk s && maskOk s && memOk s && cursorOk s && inputOk s && cycleOk s && sessionOk s

/-- The launch parameters of a legal launch (R37, R253). -/
def Launch.legal (p : Launch) : Bool := p.cfg.wf && (State.launch p).legal

/-! ## What a response and a load do to image memory -/

/-- Window byte `[i]` of bank `n` (R16). -/
def windowByte (n i : Nat) (s : State) : Byte := imgRead (.upper n) (s.cfg.respOffset + i) s

/-- The address is one of the window of bank `n` (R16). -/
def windowAddr (c : Config) (n a : Nat) : Prop := ∃ i, i < c.respSize ∧ a = imgAddr c (.upper n) (c.respOffset + i)

/-- The payload of bank `n` is the text, cut to `PAYLOAD_MAX`, and its NUL (R83, R108). -/
def payloadIs (n : Nat) (text : List Byte) (s : State) : Prop :=
  (∀ i, i < (text.take s.cfg.payloadMax).length →
    windowByte n (3 + i) s = (text.take s.cfg.payloadMax).getD i 0) ∧
  windowByte n (3 + (text.take s.cfg.payloadMax).length) s = 0

/-- From `s` to `t` one response has been written (R83, R108 to R111): in the window of the active bank, its sequence
byte one more modulo 256, its status and kind, its payload where the kind is a string, and no byte outside that
window changed; nothing where no bank is active (R110). Window bytes it does not cover may be anything. -/
def Responded (st : Status) (kind : Kind) (text : List Byte) (s t : State) : Prop :=
  match activeIndex s with
  | none => t.mem = s.mem
  | some n =>
    windowByte n 0 t = windowByte n 0 s + 1 ∧
    (windowByte n 1 t =
      match st with
      | .ok => 0
      | .done => 1
      | .error => s.cfg.statusError) ∧
    (windowByte n 2 t =
      match kind with
      | .none => 0
      | .string => 1) ∧
    (kind = .string → payloadIs n text t) ∧
    ∀ a, ¬ windowAddr s.cfg n a → Memory.read t.mem a = Memory.read s.mem a

/-- The address is one of the image. -/
def imageAddr (c : Config) (sel : ImgSel) (a : Nat) : Prop := ∃ i, i < c.romSize ∧ a = imgAddr c sel i

/-- From `s` to `t` one image has been loaded (R102, R104): every byte of it is the image's, and no byte outside
it changed. -/
def Loaded (sel : ImgSel) (img : Image) (s t : State) : Prop :=
  (∀ i, i < s.cfg.romSize → imgRead sel i t = imageByte img i) ∧
  ∀ a, ¬ imageAddr s.cfg sel a → Memory.read t.mem a = Memory.read s.mem a

/-- From `s` to `t` the host has been reset once (R105, R106): both edges, and its read cycle cut short (R264). -/
def Pulsed (s t : State) : Prop :=
  t.trace = .resetEdge .released :: .resetEdge .asserted :: s.trace ∧ t.romEnable = false ∧
    t.cycle = cycleCut s.cycle

/-- From `s` to `t` the host has not been reset, and goes on with what it was doing. -/
def Unpulsed (s t : State) : Prop := t.trace = s.trace ∧ t.romEnable = s.romEnable ∧ t.cycle = s.cycle

/-- The command ends with a response: the eight that return to `Idle` (R112). -/
def responds (i : Instr) : Bool :=
  match i with
  | .dirFirst => true
  | .dirNext => true
  | .romListFirst => true
  | .romListNext => true
  | .romIn _ _ => true
  | .romOut _ => true
  | .cfgSet _ => true
  | .led _ => true
  | .release => false
  | .rdL _ => false
  | .rdU _ => false
  | .pfx => false
  | .ign _ => false
  | .sel _ => false
  | .picoload => false
  | .unknown _ => false

/-- The command, as the collaborators answer it, writes a file's bytes over an image (R111 (b), R190, R194). -/
def replacesImage (i : Instr) (sel : ImgSel) (s : State) : Bool :=
  match i with
  | .romIn p0 path =>
    match resolveBank s.cfg p0 with
    | none => false
    | some n => decide (sel = .upper n) && decide (readRom path s ≠ .fail)
  | .cfgSet name =>
    match loadConfig name s, sel with
    | .fail, _ => false
    | .ok set, .lower => set.lower.isSome
    | .ok set, .upper n => (bankSetImage set n).isSome
  | .release => false
  | .rdL _ => false
  | .rdU _ => false
  | .pfx => false
  | .ign _ => false
  | .sel _ => false
  | .dirFirst => false
  | .dirNext => false
  | .romListFirst => false
  | .romListNext => false
  | .romOut _ => false
  | .led _ => false
  | .picoload => false
  | .unknown _ => false

/-! ## The premises of claims -/

/-- `fault = ∅` (R238). -/
def noMarks (s : State) : Bool := decide (s.marks = Marks.empty)

/-- A turn of Context B. -/
def isProtocolTurn (t : Turn) : Bool :=
  match t with
  | .protocol => true
  | .protocolWhole => true
  | .engine => false
  | .host _ => false

/-- Weak fairness of a schedule (R54, R272): Context A and Context B each have a turn after every instant. The
model has no time and claims nothing of how soon. -/
def fairSchedule (turns : Nat → Turn) : Prop :=
  (∀ k, ∃ j, k ≤ j ∧ turns j = .engine) ∧ ∀ k, ∃ j, k ≤ j ∧ isProtocolTurn (turns j) = true

end Sys2Proof.Machine
end

