-- ==== Sys2Proof/Certificates/Slice0/Obligations.lean ====
section
/-!
DEFINITION. The statements for the provers, in the order of the spec's files: encodings, the engine, the idle
bytes, the commands, the protocol a byte and a micro-step at a time, the host, the whole machine. A frame is
written as an equation `t = { s with … }` that names every field that may differ.
-/

open Sys2Proof Sys2Proof.Machine

/-! ## Encodings (30) -/

/-- R71 to R73, R76, R80: reading an encoded well-formed instruction gives it back, in every well-formed
configuration, with every operand. -/
def Obligations.EncodeThenDecodeGivesInstruction : Prop :=
  ∀ (c : Config) (i : Instr), c.wf = true → i.wf c = true → decodeEncoding c (encode c i) = .instr i []

/-- R73, R77: in a longer byte stream the decoder takes exactly the bytes of the instruction the stream begins
with. `PFX` alone is left out: a prefix with a byte after it is a longer sequence. -/
def Obligations.DecoderTakesExactlyOneSequence : Prop :=
  ∀ (c : Config) (i : Instr) (rest : List Byte), c.wf = true → i.wf c = true → latchBytes c i ≠ [] → i ≠ .pfx →
    decode c (latchBytes c i ++ rest) = .instr i rest

/-- R77, R81: no byte stream is illegal. It begins with an instruction, or it is an unfinished sequence that more
bytes complete. -/
def Obligations.EveryByteStreamDecodesOrIsUnfinished : Prop :=
  ∀ (c : Config) (b : Byte) (bs : List Byte),
    (∃ i rest, decode c (b :: bs) = .instr i rest) ∨
      (decode c (b :: bs) = .error .truncated ∧ ∃ more i, decode c (b :: bs ++ more) = .instr i [])

/-- R72, R76, R214: what the latch decoder reads is well-formed. -/
def Obligations.DecodedLatchInstructionIsWellFormed : Prop :=
  ∀ (c : Config) (bytes : List Byte) (i : Instr) (rest : List Byte),
    decode c bytes = .instr i rest → i.wf c = true

/-- R71, R80, R190, R194, R214: words written out from the tables of the spec, with the placeholder defaults. -/
def Obligations.WordsOfTheTableDecode : Prop :=
  decodeBus 0b01 0xC123 = .release ∧ decodeBus 0b10 0x0038 = .rdL 0x0038 ∧ decodeBus 0b11 0xC006 = .rdU 0xC006 ∧
  decode Config.default [0xFC] = .instr .pfx [] ∧
  decode Config.default [0x03, 0x01] = .instr (.sel 3) [0x01] ∧
  decode Config.default [0xFC, 0x01] = .instr .dirFirst [] ∧
  decode Config.default [0xFC, 0x05, 0x03, 0x09, 0x42, 0x41, 0x53, 0x49, 0x43, 0x2E, 0x52, 0x4F, 0x4D] =
    .instr (.romIn 3 [0x42, 0x41, 0x53, 0x49, 0x43, 0x2E, 0x52, 0x4F, 0x4D]) [] ∧
  decode Config.default [0xFC, 0x07, 0x02, 0xFC, 0x03] = .instr (.cfgSet [0xFC, 0x03]) [] ∧
  decode Config.default [0xFC, 0x08, 0x01] = .instr (.led 1) [] ∧
  decode Config.default [0xFC, 0x77, 0x03] = .instr (.unknown 0x77) [0x03] ∧
  decode { Config.default with legacyIgnored := [0xFF] } [0xFF] = .instr (.ign 0xFF) []

/-- R90: every payload text is free of NUL, whatever the formatters. -/
def Obligations.PayloadTextsHoldNoNul : Prop :=
  ∀ (c : Config) (r : TextReq), c.wf = true → (0 : Byte) ∉ payloadText c r

/-! ## The engine (41) -/

/-- R121: `RELEASE`, both samples `0r`, releases the bus and changes nothing else, whatever the state. -/
def Obligations.ReleaseFreesTheBus : Prop :=
  (∀ (region : Region) (addr : Nat), decodeBus (busOpcode false region) addr = .release) ∧
    ∀ s : State, exec .release s = .next { s with dbusOut := .hiZ }

/-- R122: `RD.L`, the sample `10`, drives the addressed byte of the lower image, and changes nothing else. The
host is not held in reset; for the other case see `ReadUnderResetIsMarked` (R129). -/
def Obligations.LowerReadDrivesTheLowerImage : Prop :=
  (∀ addr : Nat, decodeBus (busOpcode true .lower) addr = .rdL addr) ∧
    ∀ (addr : Nat) (s : State), s.hostReset = .released →
      exec (.rdL addr) s = .next { s with dbusOut := .drive (imgRead .lower (addr &&& s.cfg.addrMask) s) }

/-- R123: `RD.U`, the sample `11`, drives the addressed byte of the active bank if that bank is present, releases
the bus otherwise, and changes nothing else. The host is not held in reset; for the other case see
`ReadUnderResetIsMarked` (R129). -/
def Obligations.UpperReadDrivesThePresentActiveBank : Prop :=
  (∀ addr : Nat, decodeBus (busOpcode true .upper) addr = .rdU addr) ∧
    ∀ (addr : Nat) (s : State), s.hostReset = .released → activeOk s = true →
      exec (.rdU addr) s = .next { s with
        dbusOut :=
          match s.activeBank with
          | .noBank => .hiZ
          | .bank n =>
            if s.upperPresent.getLsbD n = true then .drive (imgRead (.upper n) (addr &&& s.cfg.addrMask) s)
            else .hiZ }

/-- R56, R129, R237: a read while the host is held in reset sets `ReadUnderMutation`, leaves the output open, and
changes nothing else. -/
def Obligations.ReadUnderResetIsMarked : Prop :=
  ∀ (addr : Nat) (i : Instr) (s : State), i = .rdL addr ∨ i = .rdU addr → s.hostReset = .asserted →
    ∃ t, exec i s = .next t ∧ t.marks = { s.marks with readUnderMutation := true } ∧
      t = { s with dbusOut := t.dbusOut, marks := t.marks, draws := t.draws }

/-- R120, R124: an engine iteration gives the output of the decision table for its inputs, and writes nothing but
`dbus_out`. The host's read cycle has then seen an iteration (the model's own field, log entry 32). -/
def Obligations.EngineIterationFollowsTheDecisionTable : Prop :=
  ∀ (s : State) (rest : List Turn), s.cfg.wf = true → s.sched = .engine :: rest → activeOk s = true →
    s.hostReset = .released →
    step s = .next { s with
      sched := rest
      cycle := cycleIterated s.cycle
      dbusOut :=
        match s.romEnable, s.region, s.activeBank with
        | false, _, _ => .hiZ
        | true, .lower, _ => .drive (imgRead .lower (s.addr &&& s.cfg.addrMask) s)
        | true, .upper, .noBank => .hiZ
        | true, .upper, .bank n =>
          if s.upperPresent.getLsbD n = true then .drive (imgRead (.upper n) (s.addr &&& s.cfg.addrMask) s) else .hiZ }

/-- R42: addresses equal in their low `ADDR_BITS` bits read the same byte of the same image. The host is not held
in reset; a read under reset reads anything (`ReadUnderResetIsMarked`). -/
def Obligations.AliasedAddressesReadTheSame : Prop :=
  ∀ (s : State) (a b : Nat), s.hostReset = .released → a % 2 ^ s.cfg.addrBits = b % 2 ^ s.cfg.addrBits →
    exec (.rdL a) s = exec (.rdL b) s ∧ exec (.rdU a) s = exec (.rdU b) s

/-- R120, R125: the output depends on nothing but the configuration, the images, the mask and `active_bank` (and
the address): two states that agree on these answer alike, whatever the protocol is doing. -/
def Obligations.EngineOutputIgnoresTheProtocol : Prop :=
  ∀ (i : Instr) (addr : Nat) (s s' t t' : State), i = .release ∨ i = .rdL addr ∨ i = .rdU addr →
    s.cfg = s'.cfg → s.mem = s'.mem → s.upperPresent = s'.upperPresent → s.activeBank = s'.activeBank →
    s.hostReset = .released → s'.hostReset = .released → exec i s = .next t → exec i s' = .next t' →
    t.dbusOut = t'.dbusOut

/-- R128: after a bank-select of `b`, an upper read gives the byte of bank `b` if `b` is in range and present, and
a released bus otherwise. -/
def Obligations.SelectThenUpperReadSeesTheBank : Prop :=
  ∀ (b : Byte) (addr : Nat) (s u : State), s.hostReset = .released → exec (.sel b) s = .next u →
    exec (.rdU addr) u = .next { u with
      dbusOut :=
        if b.toNat < s.cfg.n ∧ s.upperPresent.getLsbD b.toNat = true then
          .drive (imgRead (.upper b.toNat) (addr &&& s.cfg.addrMask) s)
        else .hiZ }

/-- R128, R102: an image loaded into a bank is read back byte for byte once the bank is selected. -/
def Obligations.LoadedImageReadsBack : Prop :=
  ∀ (b : Byte) (img : Image) (addr : Nat) (s : State), s.cfg.wf = true → Memory.wf s.mem = true →
    s.hostReset = .released → b.toNat < s.cfg.n →
    ∃ u t, exec (.sel b) (loadUpper b.toNat img s) = .next u ∧ exec (.rdU addr) u = .next t ∧
      t.dbusOut = .drive (imageByte img (addr % s.cfg.romSize))

/-! ## The idle bytes (42) -/

/-- R141: the prefix byte is `PFX`, which opens a command and changes nothing else. -/
def Obligations.PrefixOpensACommand : Prop :=
  (∀ c : Config, decodeIdle c c.prefixByte = .pfx) ∧
    ∀ s : State, exec .pfx s = .next { s with session := .awaitingCommand }

/-- R142: a legacy byte that is not the prefix is `IGN`, which changes nothing. -/
def Obligations.IgnoredByteChangesNothing : Prop :=
  (∀ (c : Config) (b : Byte), b ≠ c.prefixByte → b ∈ c.legacyIgnored → decodeIdle c b = .ign b) ∧
    ∀ (b : Byte) (s : State), exec (.ign b) s = .next s

/-- R100, R143: any other byte is `SEL`, which stores the bank if it is in range and present, else `NoBank`, and
changes nothing else. -/
def Obligations.BankSelectStoresBankOrNoBank : Prop :=
  (∀ (c : Config) (b : Byte), b ≠ c.prefixByte → b ∉ c.legacyIgnored → decodeIdle c b = .sel b) ∧
    ∀ (b : Byte) (s : State),
      exec (.sel b) s = .next { s with
        activeBank :=
          if b.toNat < s.cfg.n ∧ s.upperPresent.getLsbD b.toNat = true then .bank b.toNat else .noBank }

/-- R14, R47: only a bank-select byte, received in `Idle`, changes `active_bank`. -/
def Obligations.OnlyABankSelectByteWritesActiveBank : Prop :=
  ∀ s t : State, step s = .next t → t.activeBank ≠ s.activeBank →
    isProtocolTurn (nextTurn s) = true ∧ s.session = .idle ∧
      ∃ b q, s.latchQ = b :: q ∧ b ≠ s.cfg.prefixByte ∧ b ∉ s.cfg.legacyIgnored

/-! ## The listing commands (43) -/

/-- R170: `dir-first` for each answer of the directory call. -/
def Obligations.DirFirstReportsTheFirstEntry : Prop :=
  ∀ s : State, s.cfg.wf = true → Memory.wf s.mem = true →
    ∃ t, exec .dirFirst s = .next t ∧
      t = { s with mem := t.mem, draws := t.draws, answers := t.answers, dirCursor := t.dirCursor,
                   session := .idle } ∧
      match dirEntry 0 s with
      | .fail => t.dirCursor = none ∧ Responded .error .string (payloadText s.cfg (.error .dirFail)) s t
      | .endOfDir => t.dirCursor = none ∧ Responded .done .none [] s t
      | .entry name size => t.dirCursor = some 1 ∧ Responded .ok .string (payloadText s.cfg (.dir name size)) s t

/-- R171: `dir-next`, with an iteration open and without. -/
def Obligations.DirNextReportsTheNextEntry : Prop :=
  ∀ s : State, s.cfg.wf = true → Memory.wf s.mem = true →
    ∃ t, exec .dirNext s = .next t ∧
      t = { s with mem := t.mem, draws := t.draws, answers := t.answers, dirCursor := t.dirCursor,
                   session := .idle } ∧
      match s.dirCursor with
      | none => t.dirCursor = none ∧ Responded .done .none [] s t
      | some k =>
        match dirEntry k s with
        | .fail => t.dirCursor = none ∧ Responded .error .string (payloadText s.cfg (.error .dirFail)) s t
        | .endOfDir => t.dirCursor = none ∧ Responded .done .none [] s t
        | .entry name size =>
          t.dirCursor = some (k + 1) ∧ Responded .ok .string (payloadText s.cfg (.dir name size)) s t

/-- R173: `rom-list-first` resets the cursor and reports the banner of the whole mask. -/
def Obligations.RomListFirstResetsTheCursor : Prop :=
  ∀ s : State, s.cfg.wf = true → Memory.wf s.mem = true →
    ∃ t, exec .romListFirst s = .next t ∧
      t = { s with mem := t.mem, draws := t.draws, listCursor := 0, session := .idle } ∧
      Responded .ok .string (payloadText s.cfg (.banner s.upperPresent)) s t

/-- R174: `rom-list-next` past the end, on a present bank, on an empty slot. -/
def Obligations.RomListNextReportsOneSlot : Prop :=
  ∀ s : State, s.cfg.wf = true → Memory.wf s.mem = true →
    ∃ t, exec .romListNext s = .next t ∧
      t = { s with mem := t.mem, draws := t.draws, listCursor := t.listCursor, session := .idle } ∧
      if s.cfg.n ≤ s.listCursor then t.listCursor = s.listCursor ∧ Responded .done .none [] s t
      else
        t.listCursor = s.listCursor + 1 ∧
          if s.upperPresent.getLsbD s.listCursor = true then
            Responded .ok .string
              (payloadText s.cfg (.rom s.listCursor (imgRead (.upper s.listCursor) 0 s)
                (imgRead (.upper s.listCursor) 1 s) (imgRead (.upper s.listCursor) 2 s)
                (imgRead (.upper s.listCursor) 3 s) (decodeName s.listCursor s))) s t
          else Responded .ok .none [] s t

/-- R84, R175: the pointer is the two bytes at `NAME_PTR_OFFSET`, the low one first, reduced to an offset of the
image; the decoded name is the bytes from there on, seven bits each, the offset wrapping at the end of the image,
up to and with the first byte above 0x7F, and `NAME_MAX` bytes at most. The pointer convention is the spec's decision
D27 (log entry 30). -/
def Obligations.DecodedNameFollowsThePointer : Prop :=
  ∀ (n : Nat) (s : State), s.cfg.wf = true →
    nameOffset n s =
        ((imgRead (.upper n) s.cfg.namePtrOffset s).toNat +
          256 * (imgRead (.upper n) (s.cfg.namePtrOffset + 1) s).toNat) % s.cfg.romSize ∧
      1 ≤ (decodeName n s).length ∧ (decodeName n s).length ≤ s.cfg.nameMax ∧
      (∀ j, j < (decodeName n s).length →
        (decodeName n s)[j]? = some (imgRead (.upper n) ((nameOffset n s + j) % s.cfg.romSize) s &&& 0x7F)) ∧
      (∀ j, j + 1 < (decodeName n s).length →
        (imgRead (.upper n) ((nameOffset n s + j) % s.cfg.romSize) s).toNat < 0x80) ∧
      ((decodeName n s).length = s.cfg.nameMax ∨
        0x80 ≤ (imgRead (.upper n) ((nameOffset n s + ((decodeName n s).length - 1)) % s.cfg.romSize) s).toNat)

/-- R177: the two listing pairs do not disturb each other. -/
def Obligations.ListingPairsAreIndependent : Prop :=
  ∀ (i : Instr) (s t : State), exec i s = .next t →
    (i = .dirFirst ∨ i = .dirNext → t.listCursor = s.listCursor) ∧
      (i = .romListFirst ∨ i = .romListNext → t.dirCursor = s.dirCursor)

/-! ## The mutating commands (44) -/

/-- R74, R190, R192, R221: a bank parameter out of range under `Reject` is reported by `rom-in` and `rom-out`, and
nothing else happens. -/
def Obligations.RejectedBankIsReportedOnly : Prop :=
  ∀ (p0 : Byte) (path : List Byte) (i : Instr) (s : State), i = .romIn p0 path ∨ i = .romOut p0 →
    s.cfg.wf = true → Memory.wf s.mem = true → s.cfg.n ≤ p0.toNat → s.cfg.bankRangePolicy = .reject →
    ∃ t, exec i s = .next t ∧ t = { s with mem := t.mem, draws := t.draws, session := .idle } ∧
      Responded .error .string (payloadText s.cfg (.error (.badBank p0))) s t

/-- R74, R190: `rom-in` into bank `n`, for each answer of the file read: not found, the store untouched and no
reset; read, one reset pulse, the image in place and the bank present; broken, one reset pulse and bank `n`
alone unspecified. -/
def Obligations.RomInLoadsTheBank : Prop :=
  ∀ (p0 : Byte) (path : List Byte) (n : Nat) (s : State), s.cfg.wf = true → Memory.wf s.mem = true →
    s.hostReset = .released →
    (p0.toNat < s.cfg.n ∧ n = p0.toNat) ∨
      (s.cfg.n ≤ p0.toNat ∧ s.cfg.bankRangePolicy = .clamp ∧ n = s.cfg.n - 1) →
    ∃ t, exec (.romIn p0 path) s = .next t ∧
      t = { s with mem := t.mem, draws := t.draws, answers := t.answers, upperPresent := t.upperPresent,
                   romEnable := t.romEnable, cycle := t.cycle, trace := t.trace, session := .idle } ∧
      match readRom path s with
      | .fail =>
        t.upperPresent = s.upperPresent ∧ Unpulsed s t ∧
          Responded .error .string (payloadText s.cfg (.error (.fileNotFound path))) s t
      | .ok img =>
        (∀ j, t.upperPresent.getLsbD j = if j = n then true else s.upperPresent.getLsbD j) ∧
          Pulsed s t ∧
          ∃ m, Loaded (.upper n) img s { s with mem := m } ∧ Responded .ok .none [] { s with mem := m } t
      | .broken _ =>
        (∀ j, j ≠ n → t.upperPresent.getLsbD j = s.upperPresent.getLsbD j) ∧
          Pulsed s t ∧
          ∃ m, (∀ a, ¬ imageAddr s.cfg (.upper n) a → Memory.read m a = Memory.read s.mem a) ∧
            Responded .error .string (payloadText s.cfg (.error (.readFail path))) { s with mem := m } t

/-- R74, R192, R103: `rom-out` of bank `n` clears its bit and no other inside one reset pulse, which cuts the
host's read cycle short (R264), keeps the image, and reports success, whether the bank was present or not. -/
def Obligations.RomOutClearsTheBank : Prop :=
  ∀ (p0 : Byte) (n : Nat) (s : State), s.cfg.wf = true → Memory.wf s.mem = true → s.hostReset = .released →
    (p0.toNat < s.cfg.n ∧ n = p0.toNat) ∨
      (s.cfg.n ≤ p0.toNat ∧ s.cfg.bankRangePolicy = .clamp ∧ n = s.cfg.n - 1) →
    ∃ t, exec (.romOut p0) s = .next t ∧
      t = { s with mem := t.mem, draws := t.draws, upperPresent := t.upperPresent, session := .idle,
                   romEnable := false, cycle := cycleCut s.cycle, trace := .resetEdge .released :: .resetEdge .asserted :: s.trace } ∧
      (∀ j, t.upperPresent.getLsbD j = if j = n then false else s.upperPresent.getLsbD j) ∧
      Responded .ok .none [] s t

/-- R194, R195: `config-set`. A configuration that does not open is reported, with the store untouched and a reset
pulse only under `CFG_FAIL_RESETS`. One that opens replaces the bank set inside one reset pulse: a bank is
present if and only if it is named, the images named are in place, and every other image byte is kept. -/
def Obligations.ConfigSetReplacesTheBankSet : Prop :=
  ∀ (name : List Byte) (s : State), s.cfg.wf = true → Memory.wf s.mem = true → s.hostReset = .released →
    ∃ t, exec (.cfgSet name) s = .next t ∧
      t = { s with mem := t.mem, draws := t.draws, answers := t.answers, upperPresent := t.upperPresent,
                   romEnable := t.romEnable, cycle := t.cycle, trace := t.trace, session := .idle } ∧
      match loadConfig name s with
      | .fail =>
        t.upperPresent = s.upperPresent ∧
          (if s.cfg.cfgFailResets = true then Pulsed s t else Unpulsed s t) ∧
          Responded .error .string (payloadText s.cfg (.error (.configNotFound name))) s t
      | .ok set =>
        (∀ j, t.upperPresent.getLsbD j = (decide (j < s.cfg.n) && (bankSetImage set j).isSome)) ∧
          Pulsed s t ∧
          ∃ m, Responded .ok .none [] { s with mem := m } t ∧
            (∀ off, off < s.cfg.romSize → imgRead .lower off { s with mem := m } =
              match set.lower with
              | none => imgRead .lower off s
              | some img => imageByte img off) ∧
            (∀ j off, j < s.cfg.n → off < s.cfg.romSize → imgRead (.upper j) off { s with mem := m } =
              match bankSetImage set j with
              | none => imgRead (.upper j) off s
              | some img => imageByte img off) ∧
            ∀ a, imageBytes s.cfg ≤ a → Memory.read m a = Memory.read s.mem a

/-! ## The other commands (45) -/

/-- R210: `led` sets the indicator for 0 and 1, leaves it open for any other value, and reports success; nothing
else changes. -/
def Obligations.LedSetsTheIndicator : Prop :=
  ∀ (p0 : Byte) (s : State), s.cfg.wf = true → Memory.wf s.mem = true →
    ∃ t, exec (.led p0) s = .next t ∧
      t = { s with mem := t.mem, draws := t.draws, led := t.led, trace := t.trace, session := .idle } ∧
      (s.led = t.led → t.trace = s.trace) ∧ (s.led ≠ t.led → t.trace = .ledChange t.led :: s.trace) ∧
      (p0 = 0 → t.led = .off) ∧ (p0 = 1 → t.led = .on) ∧ Responded .ok .none [] s t

/-- R213: `picoload` asserts the host's reset, which cuts the host's read cycle short (R264), and enters
`Maintenance`; nothing else changes, no response. -/
def Obligations.PicoloadEntersMaintenance : Prop :=
  ∀ s : State, s.hostReset = .released →
    exec .picoload s = .next { s with
      hostReset := .asserted, session := .maintenance, romEnable := false, cycle := cycleCut s.cycle,
      trace := .resetEdge .asserted :: s.trace }

/-- R214: the prefix and a byte that selects none of the nine commands are `UNKNOWN`, two bytes and no more, which
returns to `Idle` and changes nothing else. -/
def Obligations.UnknownCommandIsIgnored : Prop :=
  (∀ (c : Config) (b : Byte) (rest : List Byte), b ∉ c.selectors.toList →
    decode c (c.prefixByte :: b :: rest) = .instr (.unknown b) rest) ∧
    ∀ (b : Byte) (s : State), exec (.unknown b) s = .next { s with session := .idle }

/-- R111, R112: every command that responds, and does not write a file's bytes over the image of the active bank,
advances the sequence byte of the active bank by exactly 1 modulo 256. -/
def Obligations.CompletedCommandAdvancesTheSequenceByte : Prop :=
  ∀ (i : Instr) (n : Nat) (s : State), responds i = true → s.cfg.wf = true → Memory.wf s.mem = true →
    activeIndex s = some n → replacesImage i (.upper n) s = false →
    ∃ t, exec i s = .next t ∧ windowByte n 0 t = windowByte n 0 s + 1

/-- R110: with no bank active, a command that responds and writes no file's bytes over an image changes no byte of
any image. -/
def Obligations.NoBankMeansNoResponse : Prop :=
  ∀ (i : Instr) (s t : State), responds i = true → (∀ sel, replacesImage i sel s = false) →
    activeIndex s = none → exec i s = .next t → t.mem = s.mem

/-! ## The protocol a byte and a micro-step at a time (42) -/

/-- R145: the byte after the prefix. -/
def Obligations.SelectorByteChoosesTheCommand : Prop :=
  ∀ (s : State) (b : Byte) (q : List Byte) (rest : List Turn), s.cfg.wf = true → s.session = .awaitingCommand →
    s.latchQ = b :: q → s.sched = .protocol :: rest →
    step s =
      match lookup s.cfg b with
      | none => .next { s with latchQ := q, sched := rest, session := .idle }
      | some k =>
        if 0 < k.nfixed then
          .next { s with latchQ := q, sched := rest, session := .collectingParams k .fixed k.nfixed [] [] }
        else if k.hasString = true then
          .next { s with latchQ := q, sched := rest, session := .collectingParams k .len 1 [] [] }
        else .next (startCmd k [] [] { s with latchQ := q, sched := rest })

/-- R147, R148, R149: a parameter byte, by the phase of the collecting session. -/
def Obligations.ParameterBytesAreCollected : Prop :=
  ∀ (s : State) (k : Cmd) (ph : Phase) (r : Nat) (fixed buffer : List Byte) (b : Byte) (q : List Byte)
    (rest : List Turn), s.cfg.wf = true → s.session = .collectingParams k ph r fixed buffer → 1 ≤ r →
    s.latchQ = b :: q → s.sched = .protocol :: rest →
    step s = .next
      (match ph with
        | .fixed =>
          if 1 < r then
            { s with latchQ := q, sched := rest,
                     session := .collectingParams k .fixed (r - 1) (fixed ++ [b]) buffer }
          else if k.hasString = true then
            { s with latchQ := q, sched := rest, session := .collectingParams k .len 1 (fixed ++ [b]) [] }
          else startCmd k (fixed ++ [b]) [] { s with latchQ := q, sched := rest }
        | .len =>
          if b = 0 then startCmd k fixed [] { s with latchQ := q, sched := rest }
          else { s with latchQ := q, sched := rest, session := .collectingParams k .str b.toNat fixed [] }
        | .str =>
          if 1 < r then
            { s with latchQ := q, sched := rest,
                     session := .collectingParams k .str (r - 1) fixed (buffer ++ [b]) }
          else startCmd k fixed (buffer ++ [b]) { s with latchQ := q, sched := rest })

/-- R140, R242: Context B has no step while its session receives and the queue is empty, nor in `Maintenance`. That
a turn given to it then is a step of the machine which changes nothing is the model's choice (log entry 16). -/
def Obligations.BlockedProtocolDoesNothing : Prop :=
  ∀ (s : State) (rest : List Turn), s.cfg.wf = true → s.sched = .protocol :: rest →
    s.session = .maintenance ∨
      (s.latchQ = [] ∧ ∀ k fixed buffer todo, s.session ≠ .executing k fixed buffer todo) →
    step s = .next { s with sched := rest }

/-- R151: while a command executes, Context B takes no byte from the queue and does not change the active bank. -/
def Obligations.ExecutingTakesNoByte : Prop :=
  ∀ (s t : State) (k : Cmd) (fixed buffer : List Byte) (todo : List Micro),
    s.session = .executing k fixed buffer todo → isProtocolTurn (nextTurn s) = true → step s = .next t →
    t.latchQ = s.latchQ ∧ t.activeBank = s.activeBank

/-- R53, R108: among the micro-steps of a response every write of a window byte above the sequence byte comes
before the increment of the sequence byte, and there is nothing after it. -/
def Obligations.WindowIsWrittenBeforeTheCounter : Prop :=
  ∀ (st : Status) (kind : Kind) (text : List Byte) (n : Nat) (s : State), s.cfg.wf = true →
    activeIndex s = some n →
    ∃ before, respondSteps st kind text s = before ++ [.bumpSeq n] ∧
      before.length = s.cfg.respSize - 1 ∧
      ∀ m ∈ before, ∃ j v, 0 < j ∧ j < s.cfg.respSize ∧ m = .write (.upper n) (s.cfg.respOffset + j) v

/-- R150, R151, R152: a command performed a micro-step at a time, no other agent between, ends in the state its
meaning gives. The meaning, the whole command in one step, is the model's own (log entry 10). -/
def Obligations.MicroStepsAddUpToTheCommand : Prop :=
  ∀ (k : Cmd) (fixed buffer : List Byte) (s : State), s.cfg.wf = true → Memory.wf s.mem = true →
    ∃ n, ∀ rest : List Turn,
      Sys2Proof.core.run n (startCmd k fixed buffer { s with sched := List.replicate n .protocol ++ rest }) =
        exec (.ofCmd k fixed buffer) { s with sched := rest }

/-- R140 to R152: Context B's next instruction run whole, which is the model's own turn (log entry 10), ends where its
single steps end, a byte and then a micro-step at a time. -/
def Obligations.WholeTurnIsItsSingleSteps : Prop :=
  ∀ (s : State) (i : Instr) (q : List Byte), s.cfg.wf = true → Memory.wf s.mem = true → s.session = .idle →
    i.wf s.cfg = true → i ≠ .pfx → latchBytes s.cfg i ≠ [] → s.latchQ = latchBytes s.cfg i ++ q →
    ∃ n, ∀ rest : List Turn,
      Sys2Proof.core.run n { s with sched := List.replicate n .protocol ++ rest } =
        step { s with sched := .protocolWhole :: rest }

/-- R55, R107: outside Context B's whole turns, an image byte outside the active bank's window and a presence bit
change only while the host is held in reset. -/
def Obligations.ImagesChangeOnlyUnderReset : Prop :=
  ∀ s t : State, s.cfg.wf = true → s.legal = true → nextTurn s ≠ .protocolWhole → step s = .next t →
    (t.upperPresent ≠ s.upperPresent ∨
      ∃ a, Memory.read t.mem a ≠ Memory.read s.mem a ∧ ∀ n, activeIndex s = some n → ¬ windowAddr s.cfg n a) →
    s.hostReset = .asserted

/-- R105, R106, R252, R264: asserting and releasing the host's reset changes no state of the block but the line
itself (and what is observed of it). Asserting it cuts the host's read cycle short: the input `rom_enable` is off, and
the cycle ends as one does whose `rom_enable` has been dropped, awaiting an engine iteration (R126, R255). -/
def Obligations.HostResetIsNoResetOfTheBlock : Prop :=
  ∀ s : State,
    assertReset s = { s with
      hostReset := .asserted
      romEnable := false
      cycle :=
        match s.cycle with
        | .idle => .idle
        | .presented => .ending
        | .served => .ending
        | .sampled => .ending
        | .ending => .ending
      trace := (assertReset s).trace } ∧
    releaseReset s = { s with hostReset := .released, trace := (releaseReset s).trace }

/-! ## The host (70) -/

/-- R126, R262, R264: the host's part in a read cycle, begun only while released: it presents inputs when no cycle
is in progress, samples the data lines only once an engine iteration has seen the inputs, and then drops
`rom_enable`; a read cycle begun under reset is its breach of duty (R237). That a turn given to an act which is not
enabled changes nothing is the model's choice (log entry 15), as are the field that keeps count of the cycle (log
entry 32) and what becomes of a cycle begun in breach (log entry 33). -/
def Obligations.HostReadCycleActs : Prop :=
  ∀ (s : State) (rest : List Turn) (region : Region) (addr : Nat) (v : Byte), s.cfg.wf = true →
    (s.sched = .host (.present region addr) :: rest → s.hostReset = .released → s.cycle = .idle ∨ s.cycle = .ending →
      addr < 2 ^ s.cfg.hostAddrBits →
      step s = .next { s with sched := rest, romEnable := true, region := region, addr := addr, cycle := .presented }) ∧
    (s.sched = .host .sample :: rest → s.hostReset = .released → s.cycle = .served → s.dbusOut = .drive v →
      ∃ t, step s = .next t ∧
        t = { s with sched := rest, draws := t.draws, cycle := .sampled,
                     trace := .read s.region s.addr v :: s.trace }) ∧
    (s.sched = .host .sample :: rest → s.hostReset = .released → s.cycle = .served → s.dbusOut = .hiZ →
      ∃ t u, step s = .next t ∧
        t = { s with sched := rest, draws := t.draws, cycle := .sampled,
                     trace := .read s.region s.addr u :: s.trace }) ∧
    (s.sched = .host .drop :: rest → s.hostReset = .released → s.cycle = .sampled →
      step s = .next { s with sched := rest, romEnable := false, cycle := .ending }) ∧
    (s.sched = .host (.breach region addr) :: rest → s.hostReset = .asserted → addr < 2 ^ s.cfg.hostAddrBits →
      step s = .next { s with sched := rest, romEnable := true, region := region, addr := addr, cycle := .presented }) ∧
    (s.sched = .host (.present region addr) :: rest →
      s.hostReset = .asserted ∨ (s.cycle ≠ .idle ∧ s.cycle ≠ .ending) → step s = .next { s with sched := rest }) ∧
    (s.sched = .host .sample :: rest → s.hostReset = .asserted ∨ s.cycle ≠ .served →
      step s = .next { s with sched := rest }) ∧
    (s.sched = .host .drop :: rest → s.hostReset = .asserted ∨ s.cycle ≠ .sampled →
      step s = .next { s with sched := rest }) ∧
    (s.sched = .host (.breach region addr) :: rest → s.hostReset = .released → step s = .next { s with sched := rest })

/-- R263: a latch write, enabled only while the host is released, into a queue that is not full appends the byte.
That it falls outside the host's read cycles, and that a turn given to it where it is not enabled changes nothing,
is the model's choice (log entry 15). -/
def Obligations.LatchWriteQueuesTheByte : Prop :=
  ∀ (s : State) (rest : List Turn) (b : Byte), s.cfg.wf = true → s.sched = .host (.latch b) :: rest →
    (s.hostReset = .released → s.cycle = .idle → s.latchQ.length < s.cfg.latchQDepth →
      step s = .next { s with sched := rest, latchQ := s.latchQ ++ [b] }) ∧
    (s.hostReset = .asserted ∨ s.cycle ≠ .idle → step s = .next { s with sched := rest })

/-- R236: a latch write into a full queue sets `LatchOverflow`, leaves the queue open, and changes nothing else. It
falls outside the host's read cycles (the model's choice, log entry 15). -/
def Obligations.LatchOverflowIsMarked : Prop :=
  ∀ (s : State) (rest : List Turn) (b : Byte), s.cfg.wf = true → s.sched = .host (.latch b) :: rest →
    s.hostReset = .released → s.cycle = .idle → s.cfg.latchQDepth ≤ s.latchQ.length →
    ∃ t, step s = .next t ∧ t.marks = { s.marks with latchOverflow := true } ∧
      t = { s with sched := rest, latchQ := t.latchQ, marks := t.marks, draws := t.draws }

/-! ## The whole machine -/

/-- R120, R126: in the engine's turn the step is the meaning of the decoded sample. Around it, the host's read cycle
counts the iteration (the model's own field, log entry 32). -/
def Obligations.EngineTurnRunsTheDecodedSample : Prop :=
  ∀ (s : State) (rest : List Turn), s.cfg.wf = true → s.sched = .engine :: rest →
    step s = exec (decodeBus (busOpcode s.romEnable s.region) s.addr) { s with
      sched := rest
      cycle :=
        match s.cycle with
        | .idle => .idle
        | .presented => .served
        | .served => .served
        | .sampled => .sampled
        | .ending => .idle }

/-- R140, R144: in Context B's turn in `Idle` the step is the meaning of the decoded byte, taken off the queue. -/
def Obligations.ProtocolTurnRunsTheDecodedByte : Prop :=
  ∀ (s : State) (b : Byte) (q : List Byte) (rest : List Turn), s.cfg.wf = true → s.sched = .protocol :: rest →
    s.session = .idle → s.latchQ = b :: q →
    step s = exec (decodeIdle s.cfg b) { s with sched := rest, latchQ := q }

/-- In Context B's whole turn in `Idle` the step is the meaning of the decoded instruction, its bytes taken off the
queue. The whole turn is the model's own (log entry 10): it stands for the single steps of R140, R150 and R152. -/
def Obligations.WholeTurnRunsTheDecodedInstruction : Prop :=
  ∀ (s : State) (i : Instr) (q : List Byte) (rest : List Turn), s.cfg.wf = true →
    s.sched = .protocolWhole :: rest → s.session = .idle → decode s.cfg s.latchQ = .instr i q →
    step s = exec i { s with sched := rest, latchQ := q }

/-- R213: `Maintenance` is final: Context B has no further step, so the session stays and no byte is taken from the
queue; the line stays asserted, and nothing is queued under it; the engine, finding `rom_enable` off, keeps the bus
released. That the images, the presence mask and the active bank stay as they were is the model's choice: R213 says
nothing of the store after `picoload` (log entry 31). -/
def Obligations.MaintenanceIsFinal : Prop :=
  ∀ s t : State, s.session = .maintenance → step s = .next t →
    t.session = .maintenance ∧ t.hostReset = s.hostReset ∧ t.mem = s.mem ∧ t.upperPresent = s.upperPresent ∧
      t.activeBank = s.activeBank ∧ (s.latchQ <+: t.latchQ ∨ t.marks.latchOverflow = true) ∧
      (s.hostReset = .asserted → t.latchQ = s.latchQ) ∧
      (s.romEnable = false → nextTurn s = .engine → t.dbusOut = .hiZ)

/-- R6, R7: the machine refuses a configuration in which the prefix is a bank index or a legacy byte, two selectors
agree, `STATUS_ERROR` is 0 or 1, or the window reaches outside the image or down to the header or the pointer. -/
def Obligations.IllFormedConfigurationIsRefused : Prop :=
  ∀ s : State,
    (s.cfg.prefixByte.toNat < s.cfg.n ∨ s.cfg.prefixByte ∈ s.cfg.legacyIgnored ∨ ¬ s.cfg.selectors.toList.Nodup ∨
      s.cfg.statusError = 0 ∨ s.cfg.statusError = 1 ∨ s.cfg.romSize < s.cfg.respOffset + s.cfg.respSize ∨
      s.cfg.respOffset < 4 ∨ s.cfg.respOffset ≤ s.cfg.namePtrOffset + 1) →
    step s = .refused .illFormedConfig

/-- R220: with a well-formed configuration the machine never stops, but for a host that presents an address it does
not have (the model's own stop, log entry 20). -/
def Obligations.TheBlockNeverStops : Prop :=
  ∀ s : State, s.cfg.wf = true →
    (∀ region addr, nextTurn s = .host (.present region addr) ∨ nextTurn s = .host (.breach region addr) →
      addr < 2 ^ s.cfg.hostAddrBits) →
    ∃ t, step s = .next t

/-- R32, R36: no step changes the configuration or the storage content. That the storage stays fixed after `picoload`
too is the model's choice: R213 says nothing of it from there on (log entry 31). -/
def Obligations.ConfigurationAndStorageAreFixed : Prop :=
  ∀ s t : State, step s = .next t → t.cfg = s.cfg ∧ t.storage = s.storage

/-- R26, R238: a mark once set is never cleared. -/
def Obligations.MarksAreNeverCleared : Prop :=
  ∀ s t : State, step s = .next t →
    (s.marks.latchOverflow = true → t.marks.latchOverflow = true) ∧
      (s.marks.readUnderMutation = true → t.marks.readUnderMutation = true)

/-- R23, R120: only an engine iteration writes `dbus_out`: it keeps its value between iterations. -/
def Obligations.OnlyTheEngineWritesTheBus : Prop :=
  ∀ s t : State, nextTurn s ≠ .engine → step s = .next t → t.dbusOut = s.dbusOut

/-- Every step keeps image memory in canonical form (the model's own form, log entry 1). -/
def Obligations.EveryStepKeepsMemoryCanonical : Prop :=
  ∀ s t : State, Memory.wf s.mem = true → step s = .next t → Memory.wf t.mem = true

/-- R13, R15, R17 to R19, R107, R213, R262: every step of a legal state leads to a legal state; in one, the block drives
nothing where the host is in no cycle and the iteration after the last one has been (R126, R255). And, R264: but for
the host's breach of its duty, `rom_enable` stays off while the host is held in reset. -/
def Obligations.EveryStepKeepsTheStateLegal : Prop :=
  ∀ s t : State, s.legal = true → step s = .next t →
    t.legal = true ∧ (isBreach (nextTurn s) = false → heldQuiet s = true → heldQuiet t = true)

/-- R37: the state right after reset is legal and has a well-formed configuration. -/
def Obligations.ResetStateIsLegal : Prop := State.reset.cfg.wf = true ∧ State.reset.legal = true

/-- R37: what every launch fixes, whatever its parameters, and that everything else is one of them. The values of
`dir_cursor` and `host_reset` are the spec's decisions D26 and D33. Where the host starts in a read cycle follows from
`rom_enable`, as the model's choice (log entry 32). -/
def Obligations.LaunchFixesTheStatedValues : Prop :=
  ∀ p : Launch,
    ((State.launch p).session = .idle ∧ (State.launch p).dirCursor = none ∧
      (State.launch p).hostReset = .released ∧ (State.launch p).dbusOut = .hiZ ∧ (State.launch p).latchQ = [] ∧
      (State.launch p).marks = Marks.empty) ∧
    (State.launch p).mem = p.mem ∧ (State.launch p).upperPresent = p.upperPresent ∧
      (State.launch p).activeBank = p.activeBank ∧ (State.launch p).listCursor = p.listCursor ∧
      (State.launch p).led = p.led ∧ (State.launch p).romEnable = p.romEnable ∧
      (State.launch p).region = p.region ∧ (State.launch p).addr = p.addr ∧
      (State.launch p).cycle = (if p.romEnable = true then .presented else .idle)

/-- R33 to R36: each call of a collaborator answers as the storage content would, or with a failure, or, for
`Fs.ReadRom`, with a read that breaks off; which one `answers` decides as far as it reaches (the model's own field,
log entry 11). And what the storage content answers: the first file of that path, the entry of that number, the first
configuration of that name (the model's form of the content, log entry 6). -/
def Obligations.CollaboratorsAnswerFromTheStorage : Prop :=
  ∀ (s : State) (path name : List Byte) (k : Nat),
    (readRom path s = storedRom s.storage path ∨ readRom path s = .fail ∨ ∃ img, readRom path s = .broken img) ∧
    (dirEntry k s = storedDir s.storage k ∨ dirEntry k s = .fail) ∧
    (loadConfig name s = storedConfig s.storage name ∨ loadConfig name s = .fail) ∧
    (∀ rest, s.answers = .content :: rest →
      readRom path s = storedRom s.storage path ∧ dirEntry k s = storedDir s.storage k ∧
        loadConfig name s = storedConfig s.storage name) ∧
    (∀ rest, s.answers = .fail :: rest →
      readRom path s = .fail ∧ dirEntry k s = .fail ∧ loadConfig name s = .fail) ∧
    (∀ rest, s.answers = .broken :: rest → ∃ img, readRom path s = .broken img) ∧
    (∀ before img after, s.storage.roms = before ++ (path, img) :: after → (∀ e ∈ before, e.1 ≠ path) →
      storedRom s.storage path = .ok img) ∧
    ((∀ e ∈ s.storage.roms, e.1 ≠ path) → storedRom s.storage path = .fail) ∧
    (s.storage.dir = none → storedDir s.storage k = .fail) ∧
    (∀ items, s.storage.dir = some items → items.length ≤ k → storedDir s.storage k = .endOfDir) ∧
    (∀ items e, s.storage.dir = some items → items[k]? = some e → storedDir s.storage k = .entry e.name e.size) ∧
    (∀ before set after, s.storage.configs = before ++ (name, set) :: after → (∀ e ∈ before, e.1 ≠ name) →
      storedConfig s.storage name = .ok set) ∧
    ((∀ e ∈ s.storage.configs, e.1 ≠ name) → storedConfig s.storage name = .fail)
end

