-- ==== Sys2Proof/Laws/Memory.lean ====
section
/-!
SUPPORT. Image memory: a read after a write, the canonical form every write keeps, and that canonical memories
with equal bytes are equal data.
-/

namespace Sys2Proof.Machine

theorem Memory.wfFrom_weaken {lo hi : Nat} {m : List Host.Cell} (h : lo ≤ hi) (w : Memory.wfFrom hi m = true) :
    Memory.wfFrom lo m = true := by
  cases m with
  | nil => rfl
  | cons c m =>
    obtain ⟨k, v⟩ := c
    simp only [Memory.wfFrom, Bool.and_eq_true, decide_eq_true_eq] at w ⊢
    exact ⟨⟨by omega, w.1.2⟩, w.2⟩

/-- Below its lowest listed address a canonical memory reads as unlisted. -/
theorem Memory.read_below {lo a : Nat} {m : List Host.Cell} (w : Memory.wfFrom lo m = true) (h : a < lo) :
    Memory.read m a = unlistedByte := by
  induction m generalizing lo with
  | nil => rfl
  | cons c m ih =>
    obtain ⟨k, v⟩ := c
    simp only [Memory.wfFrom, Bool.and_eq_true, decide_eq_true_eq] at w
    have hk : k ≠ a := by omega
    simp only [Memory.read, hk, if_false]
    exact ih w.2 (by omega)

theorem Memory.read_put_other {m : List Host.Cell} {a b : Nat} {v : Byte} (h : a ≠ b) :
    Memory.read (Memory.put a v m) b = Memory.read m b := by
  unfold Memory.put
  split
  · rfl
  · simp [Memory.read, h]

/-- A write leaves every other address alone. -/
theorem Memory.read_write_other {m : List Host.Cell} {a b : Nat} {v : Byte} (h : a ≠ b) :
    Memory.read (Memory.write m a v) b = Memory.read m b := by
  induction m with
  | nil => simp [Memory.write, Memory.read_put_other h]
  | cons c m ih =>
    obtain ⟨k, w⟩ := c
    unfold Memory.write
    split
    · exact Memory.read_put_other h
    · split
      · rename_i hak
        subst hak
        simp [Memory.read_put_other h, Memory.read, h]
      · simp [Memory.read, ih]

theorem Memory.read_put_same {lo a : Nat} {m : List Host.Cell} {v : Byte} (w : Memory.wfFrom lo m = true)
    (h : a < lo) : Memory.read (Memory.put a v m) a = v := by
  unfold Memory.put
  split
  · rename_i hv
    rw [hv]
    exact Memory.read_below w h
  · simp [Memory.read]

theorem Memory.read_write_from {lo a : Nat} {m : List Host.Cell} {v : Byte} (w : Memory.wfFrom lo m = true) :
    Memory.read (Memory.write m a v) a = v := by
  induction m generalizing lo with
  | nil => exact Memory.read_put_same (lo := a + 1) rfl (by omega)
  | cons c m ih =>
    obtain ⟨k, u⟩ := c
    have w' := w
    simp only [Memory.wfFrom, Bool.and_eq_true, decide_eq_true_eq] at w
    unfold Memory.write
    split
    · rename_i hak
      refine Memory.read_put_same (lo := k) ?_ hak
      simp only [Memory.wfFrom, Bool.and_eq_true, decide_eq_true_eq]
      exact ⟨⟨le_refl k, w.1.2⟩, w.2⟩
    · split
      · exact Memory.read_put_same w.2 (by omega)
      · rename_i hak
        have hk : k ≠ a := fun e => hak e.symm
        simp only [Memory.read, hk, if_false]
        exact ih w.2

/-- In canonical memory a read gives the byte last written there. -/
theorem Memory.read_write_same {a : Nat} {m : List Host.Cell} {v : Byte} (w : Memory.wf m = true) :
    Memory.read (Memory.write m a v) a = v :=
  Memory.read_write_from w

theorem Memory.wfFrom_put {lo a : Nat} {m : List Host.Cell} {v : Byte} (w : Memory.wfFrom (a + 1) m = true)
    (h : lo ≤ a) : Memory.wfFrom lo (Memory.put a v m) = true := by
  unfold Memory.put
  split
  · exact Memory.wfFrom_weaken (by omega) w
  · rename_i hv
    simp [Memory.wfFrom, h, hv, w]

theorem Memory.wfFrom_write {lo a : Nat} {m : List Host.Cell} {v : Byte} (w : Memory.wfFrom lo m = true)
    (h : lo ≤ a) : Memory.wfFrom lo (Memory.write m a v) = true := by
  induction m generalizing lo with
  | nil => exact Memory.wfFrom_put rfl h
  | cons c m ih =>
    obtain ⟨k, u⟩ := c
    simp only [Memory.wfFrom, Bool.and_eq_true, decide_eq_true_eq] at w
    unfold Memory.write
    split
    · refine Memory.wfFrom_put ?_ h
      simp only [Memory.wfFrom, Bool.and_eq_true, decide_eq_true_eq]
      exact ⟨⟨by omega, w.1.2⟩, w.2⟩
    · split
      · rename_i hak
        subst hak
        exact Memory.wfFrom_put w.2 h
      · simp only [Memory.wfFrom, Bool.and_eq_true, decide_eq_true_eq]
        exact ⟨w.1, ih w.2 (by omega)⟩

/-- A write keeps the canonical form. -/
theorem Memory.wf_write {a : Nat} {m : List Host.Cell} {v : Byte} (w : Memory.wf m = true) :
    Memory.wf (Memory.write m a v) = true :=
  Memory.wfFrom_write w (Nat.zero_le a)

/-- A write lists no address but those listed and its own. -/
theorem Memory.mem_write {a : Nat} {m : List Host.Cell} {v : Byte} {cell : Host.Cell}
    (h : cell ∈ Memory.write m a v) : cell ∈ m ∨ cell = (a, v) := by
  have put_mem : ∀ l : List Host.Cell, cell ∈ Memory.put a v l → cell ∈ l ∨ cell = (a, v) := by
    intro l hl
    unfold Memory.put at hl
    split at hl
    · exact .inl hl
    · rcases List.mem_cons.1 hl with e | e
      · exact .inr e
      · exact .inl e
  induction m with
  | nil => exact put_mem [] h
  | cons c m ih =>
    obtain ⟨k, u⟩ := c
    unfold Memory.write at h
    split at h
    · exact put_mem _ h
    · split at h
      · exact (put_mem _ h).imp (List.mem_cons_of_mem _) id
      · rcases List.mem_cons.1 h with e | e
        · exact .inl (e ▸ List.mem_cons_self)
        · exact (ih e).imp (List.mem_cons_of_mem _) id

theorem Memory.ext_from {lo : Nat} {m m' : List Host.Cell} (w : Memory.wfFrom lo m = true)
    (w' : Memory.wfFrom lo m' = true) (h : ∀ a, Memory.read m a = Memory.read m' a) : m = m' := by
  induction m generalizing lo m' with
  | nil =>
    cases m' with
    | nil => rfl
    | cons c m' =>
      obtain ⟨k, v⟩ := c
      simp only [Memory.wfFrom, Bool.and_eq_true, decide_eq_true_eq] at w'
      have := h k
      simp [Memory.read] at this
      exact absurd this.symm w'.1.2
  | cons c m ih =>
    obtain ⟨k, v⟩ := c
    simp only [Memory.wfFrom, Bool.and_eq_true, decide_eq_true_eq] at w
    cases m' with
    | nil =>
      have := h k
      simp [Memory.read] at this
      exact absurd this w.1.2
    | cons c' m' =>
      obtain ⟨k', v'⟩ := c'
      simp only [Memory.wfFrom, Bool.and_eq_true, decide_eq_true_eq] at w'
      have hkk : k = k' := by
        rcases Nat.lt_trichotomy k k' with hlt | heq | hgt
        · have e := h k
          have hne : k' ≠ k := by omega
          simp only [Memory.read, if_true, hne, if_false] at e
          rw [Memory.read_below w'.2 (by omega)] at e
          exact absurd e w.1.2
        · exact heq
        · have e := h k'
          have hne : k ≠ k' := by omega
          simp only [Memory.read, if_true, hne, if_false] at e
          rw [Memory.read_below w.2 (by omega)] at e
          exact absurd e.symm w'.1.2
      subst hkk
      have hv : v = v' := by
        have e := h k
        simpa [Memory.read] using e
      subst hv
      have tails : m = m' := by
        refine ih w.2 w'.2 fun a => ?_
        by_cases hk : k = a
        · subst hk
          rw [Memory.read_below w.2 (by omega), Memory.read_below w'.2 (by omega)]
        · have e := h a
          simpa only [Memory.read, hk, if_false] using e
      rw [tails]

/-- Canonical memories with equal bytes are equal data. -/
theorem Memory.ext {m m' : List Host.Cell} (w : Memory.wf m = true) (w' : Memory.wf m' = true)
    (h : ∀ a, Memory.read m a = Memory.read m' a) : m = m' :=
  Memory.ext_from w w' h

/-- Writes to different addresses of a canonical memory commute. -/
theorem Memory.write_comm {m : List Host.Cell} {a b : Nat} {u v : Byte} (w : Memory.wf m = true) (h : a ≠ b) :
    Memory.write (Memory.write m a u) b v = Memory.write (Memory.write m b v) a u := by
  refine Memory.ext (Memory.wf_write (Memory.wf_write w)) (Memory.wf_write (Memory.wf_write w)) fun x => ?_
  by_cases hb : b = x
  · subst hb
    rw [Memory.read_write_same (Memory.wf_write w), Memory.read_write_other h, Memory.read_write_same w]
  · rw [Memory.read_write_other hb]
    by_cases ha : a = x
    · subst ha
      rw [Memory.read_write_same w, Memory.read_write_same (Memory.wf_write w)]
    · rw [Memory.read_write_other ha, Memory.read_write_other ha, Memory.read_write_other hb]

end Sys2Proof.Machine
end

