-- ==== Sys2Proof/Laws/State.lean ====
section
/-!
SUPPORT. What each named operation leaves unchanged, one lemma per field, so that no proof unfolds an update.
-/

namespace Sys2Proof.Machine

@[simp] theorem imgWrite_cfg (sel : ImgSel) (o : Nat) (v : Byte) (s : State) :
    (imgWrite sel o v s).cfg = s.cfg := rfl

@[simp] theorem imgWrite_storage (sel : ImgSel) (o : Nat) (v : Byte) (s : State) :
    (imgWrite sel o v s).storage = s.storage := rfl

@[simp] theorem imgWrite_upperPresent (sel : ImgSel) (o : Nat) (v : Byte) (s : State) :
    (imgWrite sel o v s).upperPresent = s.upperPresent := rfl

@[simp] theorem imgWrite_activeBank (sel : ImgSel) (o : Nat) (v : Byte) (s : State) :
    (imgWrite sel o v s).activeBank = s.activeBank := rfl

@[simp] theorem imgWrite_dbusOut (sel : ImgSel) (o : Nat) (v : Byte) (s : State) :
    (imgWrite sel o v s).dbusOut = s.dbusOut := rfl

@[simp] theorem imgWrite_session (sel : ImgSel) (o : Nat) (v : Byte) (s : State) :
    (imgWrite sel o v s).session = s.session := rfl

@[simp] theorem imgWrite_listCursor (sel : ImgSel) (o : Nat) (v : Byte) (s : State) :
    (imgWrite sel o v s).listCursor = s.listCursor := rfl

@[simp] theorem imgWrite_dirCursor (sel : ImgSel) (o : Nat) (v : Byte) (s : State) :
    (imgWrite sel o v s).dirCursor = s.dirCursor := rfl

@[simp] theorem imgWrite_hostReset (sel : ImgSel) (o : Nat) (v : Byte) (s : State) :
    (imgWrite sel o v s).hostReset = s.hostReset := rfl

@[simp] theorem imgWrite_led (sel : ImgSel) (o : Nat) (v : Byte) (s : State) :
    (imgWrite sel o v s).led = s.led := rfl

@[simp] theorem imgWrite_romEnable (sel : ImgSel) (o : Nat) (v : Byte) (s : State) :
    (imgWrite sel o v s).romEnable = s.romEnable := rfl

@[simp] theorem imgWrite_region (sel : ImgSel) (o : Nat) (v : Byte) (s : State) :
    (imgWrite sel o v s).region = s.region := rfl

@[simp] theorem imgWrite_addr (sel : ImgSel) (o : Nat) (v : Byte) (s : State) :
    (imgWrite sel o v s).addr = s.addr := rfl

@[simp] theorem imgWrite_cycle (sel : ImgSel) (o : Nat) (v : Byte) (s : State) :
    (imgWrite sel o v s).cycle = s.cycle := rfl

@[simp] theorem imgWrite_latchQ (sel : ImgSel) (o : Nat) (v : Byte) (s : State) :
    (imgWrite sel o v s).latchQ = s.latchQ := rfl

@[simp] theorem imgWrite_marks (sel : ImgSel) (o : Nat) (v : Byte) (s : State) :
    (imgWrite sel o v s).marks = s.marks := rfl

@[simp] theorem imgWrite_trace (sel : ImgSel) (o : Nat) (v : Byte) (s : State) :
    (imgWrite sel o v s).trace = s.trace := rfl

@[simp] theorem imgWrite_draws (sel : ImgSel) (o : Nat) (v : Byte) (s : State) :
    (imgWrite sel o v s).draws = s.draws := rfl

@[simp] theorem imgWrite_answers (sel : ImgSel) (o : Nat) (v : Byte) (s : State) :
    (imgWrite sel o v s).answers = s.answers := rfl

@[simp] theorem imgWrite_sched (sel : ImgSel) (o : Nat) (v : Byte) (s : State) :
    (imgWrite sel o v s).sched = s.sched := rfl

@[simp] theorem imgWrites_cfg (sel : ImgSel) (ws : List (Nat × Byte)) (s : State) :
    (imgWrites sel ws s).cfg = s.cfg := by
  induction ws generalizing s with
  | nil => rfl
  | cons w ws ih => simp [imgWrites, ih]

@[simp] theorem imgWrites_storage (sel : ImgSel) (ws : List (Nat × Byte)) (s : State) :
    (imgWrites sel ws s).storage = s.storage := by
  induction ws generalizing s with
  | nil => rfl
  | cons w ws ih => simp [imgWrites, ih]

@[simp] theorem imgWrites_upperPresent (sel : ImgSel) (ws : List (Nat × Byte)) (s : State) :
    (imgWrites sel ws s).upperPresent = s.upperPresent := by
  induction ws generalizing s with
  | nil => rfl
  | cons w ws ih => simp [imgWrites, ih]

@[simp] theorem imgWrites_activeBank (sel : ImgSel) (ws : List (Nat × Byte)) (s : State) :
    (imgWrites sel ws s).activeBank = s.activeBank := by
  induction ws generalizing s with
  | nil => rfl
  | cons w ws ih => simp [imgWrites, ih]

@[simp] theorem imgWrites_dbusOut (sel : ImgSel) (ws : List (Nat × Byte)) (s : State) :
    (imgWrites sel ws s).dbusOut = s.dbusOut := by
  induction ws generalizing s with
  | nil => rfl
  | cons w ws ih => simp [imgWrites, ih]

@[simp] theorem imgWrites_session (sel : ImgSel) (ws : List (Nat × Byte)) (s : State) :
    (imgWrites sel ws s).session = s.session := by
  induction ws generalizing s with
  | nil => rfl
  | cons w ws ih => simp [imgWrites, ih]

@[simp] theorem imgWrites_listCursor (sel : ImgSel) (ws : List (Nat × Byte)) (s : State) :
    (imgWrites sel ws s).listCursor = s.listCursor := by
  induction ws generalizing s with
  | nil => rfl
  | cons w ws ih => simp [imgWrites, ih]

@[simp] theorem imgWrites_dirCursor (sel : ImgSel) (ws : List (Nat × Byte)) (s : State) :
    (imgWrites sel ws s).dirCursor = s.dirCursor := by
  induction ws generalizing s with
  | nil => rfl
  | cons w ws ih => simp [imgWrites, ih]

@[simp] theorem imgWrites_hostReset (sel : ImgSel) (ws : List (Nat × Byte)) (s : State) :
    (imgWrites sel ws s).hostReset = s.hostReset := by
  induction ws generalizing s with
  | nil => rfl
  | cons w ws ih => simp [imgWrites, ih]

@[simp] theorem imgWrites_led (sel : ImgSel) (ws : List (Nat × Byte)) (s : State) :
    (imgWrites sel ws s).led = s.led := by
  induction ws generalizing s with
  | nil => rfl
  | cons w ws ih => simp [imgWrites, ih]

@[simp] theorem imgWrites_romEnable (sel : ImgSel) (ws : List (Nat × Byte)) (s : State) :
    (imgWrites sel ws s).romEnable = s.romEnable := by
  induction ws generalizing s with
  | nil => rfl
  | cons w ws ih => simp [imgWrites, ih]

@[simp] theorem imgWrites_region (sel : ImgSel) (ws : List (Nat × Byte)) (s : State) :
    (imgWrites sel ws s).region = s.region := by
  induction ws generalizing s with
  | nil => rfl
  | cons w ws ih => simp [imgWrites, ih]

@[simp] theorem imgWrites_addr (sel : ImgSel) (ws : List (Nat × Byte)) (s : State) :
    (imgWrites sel ws s).addr = s.addr := by
  induction ws generalizing s with
  | nil => rfl
  | cons w ws ih => simp [imgWrites, ih]

@[simp] theorem imgWrites_cycle (sel : ImgSel) (ws : List (Nat × Byte)) (s : State) :
    (imgWrites sel ws s).cycle = s.cycle := by
  induction ws generalizing s with
  | nil => rfl
  | cons w ws ih => simp [imgWrites, ih]

@[simp] theorem imgWrites_latchQ (sel : ImgSel) (ws : List (Nat × Byte)) (s : State) :
    (imgWrites sel ws s).latchQ = s.latchQ := by
  induction ws generalizing s with
  | nil => rfl
  | cons w ws ih => simp [imgWrites, ih]

@[simp] theorem imgWrites_marks (sel : ImgSel) (ws : List (Nat × Byte)) (s : State) :
    (imgWrites sel ws s).marks = s.marks := by
  induction ws generalizing s with
  | nil => rfl
  | cons w ws ih => simp [imgWrites, ih]

@[simp] theorem imgWrites_trace (sel : ImgSel) (ws : List (Nat × Byte)) (s : State) :
    (imgWrites sel ws s).trace = s.trace := by
  induction ws generalizing s with
  | nil => rfl
  | cons w ws ih => simp [imgWrites, ih]

@[simp] theorem imgWrites_draws (sel : ImgSel) (ws : List (Nat × Byte)) (s : State) :
    (imgWrites sel ws s).draws = s.draws := by
  induction ws generalizing s with
  | nil => rfl
  | cons w ws ih => simp [imgWrites, ih]

@[simp] theorem imgWrites_answers (sel : ImgSel) (ws : List (Nat × Byte)) (s : State) :
    (imgWrites sel ws s).answers = s.answers := by
  induction ws generalizing s with
  | nil => rfl
  | cons w ws ih => simp [imgWrites, ih]

@[simp] theorem imgWrites_sched (sel : ImgSel) (ws : List (Nat × Byte)) (s : State) :
    (imgWrites sel ws s).sched = s.sched := by
  induction ws generalizing s with
  | nil => rfl
  | cons w ws ih => simp [imgWrites, ih]

@[simp] theorem setPresent_cfg (n : Nat) (bit : Bool) (s : State) :
    (setPresent n bit s).cfg = s.cfg := rfl

@[simp] theorem setPresent_storage (n : Nat) (bit : Bool) (s : State) :
    (setPresent n bit s).storage = s.storage := rfl

@[simp] theorem setPresent_mem (n : Nat) (bit : Bool) (s : State) :
    (setPresent n bit s).mem = s.mem := rfl

@[simp] theorem setPresent_activeBank (n : Nat) (bit : Bool) (s : State) :
    (setPresent n bit s).activeBank = s.activeBank := rfl

@[simp] theorem setPresent_dbusOut (n : Nat) (bit : Bool) (s : State) :
    (setPresent n bit s).dbusOut = s.dbusOut := rfl

@[simp] theorem setPresent_session (n : Nat) (bit : Bool) (s : State) :
    (setPresent n bit s).session = s.session := rfl

@[simp] theorem setPresent_listCursor (n : Nat) (bit : Bool) (s : State) :
    (setPresent n bit s).listCursor = s.listCursor := rfl

@[simp] theorem setPresent_dirCursor (n : Nat) (bit : Bool) (s : State) :
    (setPresent n bit s).dirCursor = s.dirCursor := rfl

@[simp] theorem setPresent_hostReset (n : Nat) (bit : Bool) (s : State) :
    (setPresent n bit s).hostReset = s.hostReset := rfl

@[simp] theorem setPresent_led (n : Nat) (bit : Bool) (s : State) :
    (setPresent n bit s).led = s.led := rfl

@[simp] theorem setPresent_romEnable (n : Nat) (bit : Bool) (s : State) :
    (setPresent n bit s).romEnable = s.romEnable := rfl

@[simp] theorem setPresent_region (n : Nat) (bit : Bool) (s : State) :
    (setPresent n bit s).region = s.region := rfl

@[simp] theorem setPresent_addr (n : Nat) (bit : Bool) (s : State) :
    (setPresent n bit s).addr = s.addr := rfl

@[simp] theorem setPresent_cycle (n : Nat) (bit : Bool) (s : State) :
    (setPresent n bit s).cycle = s.cycle := rfl

@[simp] theorem setPresent_latchQ (n : Nat) (bit : Bool) (s : State) :
    (setPresent n bit s).latchQ = s.latchQ := rfl

@[simp] theorem setPresent_marks (n : Nat) (bit : Bool) (s : State) :
    (setPresent n bit s).marks = s.marks := rfl

@[simp] theorem setPresent_trace (n : Nat) (bit : Bool) (s : State) :
    (setPresent n bit s).trace = s.trace := rfl

@[simp] theorem setPresent_draws (n : Nat) (bit : Bool) (s : State) :
    (setPresent n bit s).draws = s.draws := rfl

@[simp] theorem setPresent_answers (n : Nat) (bit : Bool) (s : State) :
    (setPresent n bit s).answers = s.answers := rfl

@[simp] theorem setPresent_sched (n : Nat) (bit : Bool) (s : State) :
    (setPresent n bit s).sched = s.sched := rfl

@[simp] theorem clearPresent_cfg (s : State) :
    (clearPresent s).cfg = s.cfg := rfl

@[simp] theorem clearPresent_storage (s : State) :
    (clearPresent s).storage = s.storage := rfl

@[simp] theorem clearPresent_mem (s : State) :
    (clearPresent s).mem = s.mem := rfl

@[simp] theorem clearPresent_activeBank (s : State) :
    (clearPresent s).activeBank = s.activeBank := rfl

@[simp] theorem clearPresent_dbusOut (s : State) :
    (clearPresent s).dbusOut = s.dbusOut := rfl

@[simp] theorem clearPresent_session (s : State) :
    (clearPresent s).session = s.session := rfl

@[simp] theorem clearPresent_listCursor (s : State) :
    (clearPresent s).listCursor = s.listCursor := rfl

@[simp] theorem clearPresent_dirCursor (s : State) :
    (clearPresent s).dirCursor = s.dirCursor := rfl

@[simp] theorem clearPresent_hostReset (s : State) :
    (clearPresent s).hostReset = s.hostReset := rfl

@[simp] theorem clearPresent_led (s : State) :
    (clearPresent s).led = s.led := rfl

@[simp] theorem clearPresent_romEnable (s : State) :
    (clearPresent s).romEnable = s.romEnable := rfl

@[simp] theorem clearPresent_region (s : State) :
    (clearPresent s).region = s.region := rfl

@[simp] theorem clearPresent_addr (s : State) :
    (clearPresent s).addr = s.addr := rfl

@[simp] theorem clearPresent_cycle (s : State) :
    (clearPresent s).cycle = s.cycle := rfl

@[simp] theorem clearPresent_latchQ (s : State) :
    (clearPresent s).latchQ = s.latchQ := rfl

@[simp] theorem clearPresent_marks (s : State) :
    (clearPresent s).marks = s.marks := rfl

@[simp] theorem clearPresent_trace (s : State) :
    (clearPresent s).trace = s.trace := rfl

@[simp] theorem clearPresent_draws (s : State) :
    (clearPresent s).draws = s.draws := rfl

@[simp] theorem clearPresent_answers (s : State) :
    (clearPresent s).answers = s.answers := rfl

@[simp] theorem clearPresent_sched (s : State) :
    (clearPresent s).sched = s.sched := rfl

@[simp] theorem selectBank_cfg (b : Byte) (s : State) :
    (selectBank b s).cfg = s.cfg := rfl

@[simp] theorem selectBank_storage (b : Byte) (s : State) :
    (selectBank b s).storage = s.storage := rfl

@[simp] theorem selectBank_mem (b : Byte) (s : State) :
    (selectBank b s).mem = s.mem := rfl

@[simp] theorem selectBank_upperPresent (b : Byte) (s : State) :
    (selectBank b s).upperPresent = s.upperPresent := rfl

@[simp] theorem selectBank_dbusOut (b : Byte) (s : State) :
    (selectBank b s).dbusOut = s.dbusOut := rfl

@[simp] theorem selectBank_session (b : Byte) (s : State) :
    (selectBank b s).session = s.session := rfl

@[simp] theorem selectBank_listCursor (b : Byte) (s : State) :
    (selectBank b s).listCursor = s.listCursor := rfl

@[simp] theorem selectBank_dirCursor (b : Byte) (s : State) :
    (selectBank b s).dirCursor = s.dirCursor := rfl

@[simp] theorem selectBank_hostReset (b : Byte) (s : State) :
    (selectBank b s).hostReset = s.hostReset := rfl

@[simp] theorem selectBank_led (b : Byte) (s : State) :
    (selectBank b s).led = s.led := rfl

@[simp] theorem selectBank_romEnable (b : Byte) (s : State) :
    (selectBank b s).romEnable = s.romEnable := rfl

@[simp] theorem selectBank_region (b : Byte) (s : State) :
    (selectBank b s).region = s.region := rfl

@[simp] theorem selectBank_addr (b : Byte) (s : State) :
    (selectBank b s).addr = s.addr := rfl

@[simp] theorem selectBank_cycle (b : Byte) (s : State) :
    (selectBank b s).cycle = s.cycle := rfl

@[simp] theorem selectBank_latchQ (b : Byte) (s : State) :
    (selectBank b s).latchQ = s.latchQ := rfl

@[simp] theorem selectBank_marks (b : Byte) (s : State) :
    (selectBank b s).marks = s.marks := rfl

@[simp] theorem selectBank_trace (b : Byte) (s : State) :
    (selectBank b s).trace = s.trace := rfl

@[simp] theorem selectBank_draws (b : Byte) (s : State) :
    (selectBank b s).draws = s.draws := rfl

@[simp] theorem selectBank_answers (b : Byte) (s : State) :
    (selectBank b s).answers = s.answers := rfl

@[simp] theorem selectBank_sched (b : Byte) (s : State) :
    (selectBank b s).sched = s.sched := rfl

@[simp] theorem observe_cfg (o : Obs) (s : State) :
    (observe o s).cfg = s.cfg := rfl

@[simp] theorem observe_storage (o : Obs) (s : State) :
    (observe o s).storage = s.storage := rfl

@[simp] theorem observe_mem (o : Obs) (s : State) :
    (observe o s).mem = s.mem := rfl

@[simp] theorem observe_upperPresent (o : Obs) (s : State) :
    (observe o s).upperPresent = s.upperPresent := rfl

@[simp] theorem observe_activeBank (o : Obs) (s : State) :
    (observe o s).activeBank = s.activeBank := rfl

@[simp] theorem observe_dbusOut (o : Obs) (s : State) :
    (observe o s).dbusOut = s.dbusOut := rfl

@[simp] theorem observe_session (o : Obs) (s : State) :
    (observe o s).session = s.session := rfl

@[simp] theorem observe_listCursor (o : Obs) (s : State) :
    (observe o s).listCursor = s.listCursor := rfl

@[simp] theorem observe_dirCursor (o : Obs) (s : State) :
    (observe o s).dirCursor = s.dirCursor := rfl

@[simp] theorem observe_hostReset (o : Obs) (s : State) :
    (observe o s).hostReset = s.hostReset := rfl

@[simp] theorem observe_led (o : Obs) (s : State) :
    (observe o s).led = s.led := rfl

@[simp] theorem observe_romEnable (o : Obs) (s : State) :
    (observe o s).romEnable = s.romEnable := rfl

@[simp] theorem observe_region (o : Obs) (s : State) :
    (observe o s).region = s.region := rfl

@[simp] theorem observe_addr (o : Obs) (s : State) :
    (observe o s).addr = s.addr := rfl

@[simp] theorem observe_cycle (o : Obs) (s : State) :
    (observe o s).cycle = s.cycle := rfl

@[simp] theorem observe_latchQ (o : Obs) (s : State) :
    (observe o s).latchQ = s.latchQ := rfl

@[simp] theorem observe_marks (o : Obs) (s : State) :
    (observe o s).marks = s.marks := rfl

@[simp] theorem observe_draws (o : Obs) (s : State) :
    (observe o s).draws = s.draws := rfl

@[simp] theorem observe_answers (o : Obs) (s : State) :
    (observe o s).answers = s.answers := rfl

@[simp] theorem observe_sched (o : Obs) (s : State) :
    (observe o s).sched = s.sched := rfl

@[simp] theorem driveReset_cfg (l : HostReset) (s : State) :
    (driveReset l s).cfg = s.cfg := by
  unfold driveReset
  split <;> rfl

@[simp] theorem driveReset_storage (l : HostReset) (s : State) :
    (driveReset l s).storage = s.storage := by
  unfold driveReset
  split <;> rfl

@[simp] theorem driveReset_mem (l : HostReset) (s : State) :
    (driveReset l s).mem = s.mem := by
  unfold driveReset
  split <;> rfl

@[simp] theorem driveReset_upperPresent (l : HostReset) (s : State) :
    (driveReset l s).upperPresent = s.upperPresent := by
  unfold driveReset
  split <;> rfl

@[simp] theorem driveReset_activeBank (l : HostReset) (s : State) :
    (driveReset l s).activeBank = s.activeBank := by
  unfold driveReset
  split <;> rfl

@[simp] theorem driveReset_dbusOut (l : HostReset) (s : State) :
    (driveReset l s).dbusOut = s.dbusOut := by
  unfold driveReset
  split <;> rfl

@[simp] theorem driveReset_session (l : HostReset) (s : State) :
    (driveReset l s).session = s.session := by
  unfold driveReset
  split <;> rfl

@[simp] theorem driveReset_listCursor (l : HostReset) (s : State) :
    (driveReset l s).listCursor = s.listCursor := by
  unfold driveReset
  split <;> rfl

@[simp] theorem driveReset_dirCursor (l : HostReset) (s : State) :
    (driveReset l s).dirCursor = s.dirCursor := by
  unfold driveReset
  split <;> rfl

@[simp] theorem driveReset_led (l : HostReset) (s : State) :
    (driveReset l s).led = s.led := by
  unfold driveReset
  split <;> rfl

@[simp] theorem driveReset_romEnable (l : HostReset) (s : State) :
    (driveReset l s).romEnable = s.romEnable := by
  unfold driveReset
  split <;> rfl

@[simp] theorem driveReset_region (l : HostReset) (s : State) :
    (driveReset l s).region = s.region := by
  unfold driveReset
  split <;> rfl

@[simp] theorem driveReset_addr (l : HostReset) (s : State) :
    (driveReset l s).addr = s.addr := by
  unfold driveReset
  split <;> rfl

@[simp] theorem driveReset_cycle (l : HostReset) (s : State) :
    (driveReset l s).cycle = s.cycle := by
  unfold driveReset
  split <;> rfl

@[simp] theorem driveReset_latchQ (l : HostReset) (s : State) :
    (driveReset l s).latchQ = s.latchQ := by
  unfold driveReset
  split <;> rfl

@[simp] theorem driveReset_marks (l : HostReset) (s : State) :
    (driveReset l s).marks = s.marks := by
  unfold driveReset
  split <;> rfl

@[simp] theorem driveReset_draws (l : HostReset) (s : State) :
    (driveReset l s).draws = s.draws := by
  unfold driveReset
  split <;> rfl

@[simp] theorem driveReset_answers (l : HostReset) (s : State) :
    (driveReset l s).answers = s.answers := by
  unfold driveReset
  split <;> rfl

@[simp] theorem driveReset_sched (l : HostReset) (s : State) :
    (driveReset l s).sched = s.sched := by
  unfold driveReset
  split <;> rfl

@[simp] theorem cutShort_cfg (s : State) :
    (cutShort s).cfg = s.cfg := rfl

@[simp] theorem cutShort_storage (s : State) :
    (cutShort s).storage = s.storage := rfl

@[simp] theorem cutShort_mem (s : State) :
    (cutShort s).mem = s.mem := rfl

@[simp] theorem cutShort_upperPresent (s : State) :
    (cutShort s).upperPresent = s.upperPresent := rfl

@[simp] theorem cutShort_activeBank (s : State) :
    (cutShort s).activeBank = s.activeBank := rfl

@[simp] theorem cutShort_dbusOut (s : State) :
    (cutShort s).dbusOut = s.dbusOut := rfl

@[simp] theorem cutShort_session (s : State) :
    (cutShort s).session = s.session := rfl

@[simp] theorem cutShort_listCursor (s : State) :
    (cutShort s).listCursor = s.listCursor := rfl

@[simp] theorem cutShort_dirCursor (s : State) :
    (cutShort s).dirCursor = s.dirCursor := rfl

@[simp] theorem cutShort_hostReset (s : State) :
    (cutShort s).hostReset = s.hostReset := rfl

@[simp] theorem cutShort_led (s : State) :
    (cutShort s).led = s.led := rfl

@[simp] theorem cutShort_region (s : State) :
    (cutShort s).region = s.region := rfl

@[simp] theorem cutShort_addr (s : State) :
    (cutShort s).addr = s.addr := rfl

@[simp] theorem cutShort_latchQ (s : State) :
    (cutShort s).latchQ = s.latchQ := rfl

@[simp] theorem cutShort_marks (s : State) :
    (cutShort s).marks = s.marks := rfl

@[simp] theorem cutShort_trace (s : State) :
    (cutShort s).trace = s.trace := rfl

@[simp] theorem cutShort_draws (s : State) :
    (cutShort s).draws = s.draws := rfl

@[simp] theorem cutShort_answers (s : State) :
    (cutShort s).answers = s.answers := rfl

@[simp] theorem cutShort_sched (s : State) :
    (cutShort s).sched = s.sched := rfl

@[simp] theorem assertReset_cfg (s : State) :
    (assertReset s).cfg = s.cfg := driveReset_cfg _ _

@[simp] theorem assertReset_storage (s : State) :
    (assertReset s).storage = s.storage := driveReset_storage _ _

@[simp] theorem assertReset_mem (s : State) :
    (assertReset s).mem = s.mem := driveReset_mem _ _

@[simp] theorem assertReset_upperPresent (s : State) :
    (assertReset s).upperPresent = s.upperPresent := driveReset_upperPresent _ _

@[simp] theorem assertReset_activeBank (s : State) :
    (assertReset s).activeBank = s.activeBank := driveReset_activeBank _ _

@[simp] theorem assertReset_dbusOut (s : State) :
    (assertReset s).dbusOut = s.dbusOut := driveReset_dbusOut _ _

@[simp] theorem assertReset_session (s : State) :
    (assertReset s).session = s.session := driveReset_session _ _

@[simp] theorem assertReset_listCursor (s : State) :
    (assertReset s).listCursor = s.listCursor := driveReset_listCursor _ _

@[simp] theorem assertReset_dirCursor (s : State) :
    (assertReset s).dirCursor = s.dirCursor := driveReset_dirCursor _ _

@[simp] theorem assertReset_led (s : State) :
    (assertReset s).led = s.led := driveReset_led _ _

@[simp] theorem assertReset_region (s : State) :
    (assertReset s).region = s.region := driveReset_region _ _

@[simp] theorem assertReset_addr (s : State) :
    (assertReset s).addr = s.addr := driveReset_addr _ _

@[simp] theorem assertReset_latchQ (s : State) :
    (assertReset s).latchQ = s.latchQ := driveReset_latchQ _ _

@[simp] theorem assertReset_marks (s : State) :
    (assertReset s).marks = s.marks := driveReset_marks _ _

@[simp] theorem assertReset_draws (s : State) :
    (assertReset s).draws = s.draws := driveReset_draws _ _

@[simp] theorem assertReset_answers (s : State) :
    (assertReset s).answers = s.answers := driveReset_answers _ _

@[simp] theorem assertReset_sched (s : State) :
    (assertReset s).sched = s.sched := driveReset_sched _ _

@[simp] theorem releaseReset_cfg (s : State) :
    (releaseReset s).cfg = s.cfg := driveReset_cfg _ _

@[simp] theorem releaseReset_storage (s : State) :
    (releaseReset s).storage = s.storage := driveReset_storage _ _

@[simp] theorem releaseReset_mem (s : State) :
    (releaseReset s).mem = s.mem := driveReset_mem _ _

@[simp] theorem releaseReset_upperPresent (s : State) :
    (releaseReset s).upperPresent = s.upperPresent := driveReset_upperPresent _ _

@[simp] theorem releaseReset_activeBank (s : State) :
    (releaseReset s).activeBank = s.activeBank := driveReset_activeBank _ _

@[simp] theorem releaseReset_dbusOut (s : State) :
    (releaseReset s).dbusOut = s.dbusOut := driveReset_dbusOut _ _

@[simp] theorem releaseReset_session (s : State) :
    (releaseReset s).session = s.session := driveReset_session _ _

@[simp] theorem releaseReset_listCursor (s : State) :
    (releaseReset s).listCursor = s.listCursor := driveReset_listCursor _ _

@[simp] theorem releaseReset_dirCursor (s : State) :
    (releaseReset s).dirCursor = s.dirCursor := driveReset_dirCursor _ _

@[simp] theorem releaseReset_led (s : State) :
    (releaseReset s).led = s.led := driveReset_led _ _

@[simp] theorem releaseReset_romEnable (s : State) :
    (releaseReset s).romEnable = s.romEnable := driveReset_romEnable _ _

@[simp] theorem releaseReset_region (s : State) :
    (releaseReset s).region = s.region := driveReset_region _ _

@[simp] theorem releaseReset_addr (s : State) :
    (releaseReset s).addr = s.addr := driveReset_addr _ _

@[simp] theorem releaseReset_cycle (s : State) :
    (releaseReset s).cycle = s.cycle := driveReset_cycle _ _

@[simp] theorem releaseReset_latchQ (s : State) :
    (releaseReset s).latchQ = s.latchQ := driveReset_latchQ _ _

@[simp] theorem releaseReset_marks (s : State) :
    (releaseReset s).marks = s.marks := driveReset_marks _ _

@[simp] theorem releaseReset_draws (s : State) :
    (releaseReset s).draws = s.draws := driveReset_draws _ _

@[simp] theorem releaseReset_answers (s : State) :
    (releaseReset s).answers = s.answers := driveReset_answers _ _

@[simp] theorem releaseReset_sched (s : State) :
    (releaseReset s).sched = s.sched := driveReset_sched _ _

@[simp] theorem setLed_cfg (l : Led) (s : State) :
    (setLed l s).cfg = s.cfg := by
  unfold setLed
  split <;> rfl

@[simp] theorem setLed_storage (l : Led) (s : State) :
    (setLed l s).storage = s.storage := by
  unfold setLed
  split <;> rfl

@[simp] theorem setLed_mem (l : Led) (s : State) :
    (setLed l s).mem = s.mem := by
  unfold setLed
  split <;> rfl

@[simp] theorem setLed_upperPresent (l : Led) (s : State) :
    (setLed l s).upperPresent = s.upperPresent := by
  unfold setLed
  split <;> rfl

@[simp] theorem setLed_activeBank (l : Led) (s : State) :
    (setLed l s).activeBank = s.activeBank := by
  unfold setLed
  split <;> rfl

@[simp] theorem setLed_dbusOut (l : Led) (s : State) :
    (setLed l s).dbusOut = s.dbusOut := by
  unfold setLed
  split <;> rfl

@[simp] theorem setLed_session (l : Led) (s : State) :
    (setLed l s).session = s.session := by
  unfold setLed
  split <;> rfl

@[simp] theorem setLed_listCursor (l : Led) (s : State) :
    (setLed l s).listCursor = s.listCursor := by
  unfold setLed
  split <;> rfl

@[simp] theorem setLed_dirCursor (l : Led) (s : State) :
    (setLed l s).dirCursor = s.dirCursor := by
  unfold setLed
  split <;> rfl

@[simp] theorem setLed_hostReset (l : Led) (s : State) :
    (setLed l s).hostReset = s.hostReset := by
  unfold setLed
  split <;> rfl

@[simp] theorem setLed_romEnable (l : Led) (s : State) :
    (setLed l s).romEnable = s.romEnable := by
  unfold setLed
  split <;> rfl

@[simp] theorem setLed_region (l : Led) (s : State) :
    (setLed l s).region = s.region := by
  unfold setLed
  split <;> rfl

@[simp] theorem setLed_addr (l : Led) (s : State) :
    (setLed l s).addr = s.addr := by
  unfold setLed
  split <;> rfl

@[simp] theorem setLed_cycle (l : Led) (s : State) :
    (setLed l s).cycle = s.cycle := by
  unfold setLed
  split <;> rfl

@[simp] theorem setLed_latchQ (l : Led) (s : State) :
    (setLed l s).latchQ = s.latchQ := by
  unfold setLed
  split <;> rfl

@[simp] theorem setLed_marks (l : Led) (s : State) :
    (setLed l s).marks = s.marks := by
  unfold setLed
  split <;> rfl

@[simp] theorem setLed_draws (l : Led) (s : State) :
    (setLed l s).draws = s.draws := by
  unfold setLed
  split <;> rfl

@[simp] theorem setLed_answers (l : Led) (s : State) :
    (setLed l s).answers = s.answers := by
  unfold setLed
  split <;> rfl

@[simp] theorem setLed_sched (l : Led) (s : State) :
    (setLed l s).sched = s.sched := by
  unfold setLed
  split <;> rfl

@[simp] theorem setListCursor_cfg (k : Nat) (s : State) :
    (setListCursor k s).cfg = s.cfg := rfl

@[simp] theorem setListCursor_storage (k : Nat) (s : State) :
    (setListCursor k s).storage = s.storage := rfl

@[simp] theorem setListCursor_mem (k : Nat) (s : State) :
    (setListCursor k s).mem = s.mem := rfl

@[simp] theorem setListCursor_upperPresent (k : Nat) (s : State) :
    (setListCursor k s).upperPresent = s.upperPresent := rfl

@[simp] theorem setListCursor_activeBank (k : Nat) (s : State) :
    (setListCursor k s).activeBank = s.activeBank := rfl

@[simp] theorem setListCursor_dbusOut (k : Nat) (s : State) :
    (setListCursor k s).dbusOut = s.dbusOut := rfl

@[simp] theorem setListCursor_session (k : Nat) (s : State) :
    (setListCursor k s).session = s.session := rfl

@[simp] theorem setListCursor_dirCursor (k : Nat) (s : State) :
    (setListCursor k s).dirCursor = s.dirCursor := rfl

@[simp] theorem setListCursor_hostReset (k : Nat) (s : State) :
    (setListCursor k s).hostReset = s.hostReset := rfl

@[simp] theorem setListCursor_led (k : Nat) (s : State) :
    (setListCursor k s).led = s.led := rfl

@[simp] theorem setListCursor_romEnable (k : Nat) (s : State) :
    (setListCursor k s).romEnable = s.romEnable := rfl

@[simp] theorem setListCursor_region (k : Nat) (s : State) :
    (setListCursor k s).region = s.region := rfl

@[simp] theorem setListCursor_addr (k : Nat) (s : State) :
    (setListCursor k s).addr = s.addr := rfl

@[simp] theorem setListCursor_cycle (k : Nat) (s : State) :
    (setListCursor k s).cycle = s.cycle := rfl

@[simp] theorem setListCursor_latchQ (k : Nat) (s : State) :
    (setListCursor k s).latchQ = s.latchQ := rfl

@[simp] theorem setListCursor_marks (k : Nat) (s : State) :
    (setListCursor k s).marks = s.marks := rfl

@[simp] theorem setListCursor_trace (k : Nat) (s : State) :
    (setListCursor k s).trace = s.trace := rfl

@[simp] theorem setListCursor_draws (k : Nat) (s : State) :
    (setListCursor k s).draws = s.draws := rfl

@[simp] theorem setListCursor_answers (k : Nat) (s : State) :
    (setListCursor k s).answers = s.answers := rfl

@[simp] theorem setListCursor_sched (k : Nat) (s : State) :
    (setListCursor k s).sched = s.sched := rfl

@[simp] theorem setDirCursor_cfg (k : Option Nat) (s : State) :
    (setDirCursor k s).cfg = s.cfg := rfl

@[simp] theorem setDirCursor_storage (k : Option Nat) (s : State) :
    (setDirCursor k s).storage = s.storage := rfl

@[simp] theorem setDirCursor_mem (k : Option Nat) (s : State) :
    (setDirCursor k s).mem = s.mem := rfl

@[simp] theorem setDirCursor_upperPresent (k : Option Nat) (s : State) :
    (setDirCursor k s).upperPresent = s.upperPresent := rfl

@[simp] theorem setDirCursor_activeBank (k : Option Nat) (s : State) :
    (setDirCursor k s).activeBank = s.activeBank := rfl

@[simp] theorem setDirCursor_dbusOut (k : Option Nat) (s : State) :
    (setDirCursor k s).dbusOut = s.dbusOut := rfl

@[simp] theorem setDirCursor_session (k : Option Nat) (s : State) :
    (setDirCursor k s).session = s.session := rfl

@[simp] theorem setDirCursor_listCursor (k : Option Nat) (s : State) :
    (setDirCursor k s).listCursor = s.listCursor := rfl

@[simp] theorem setDirCursor_hostReset (k : Option Nat) (s : State) :
    (setDirCursor k s).hostReset = s.hostReset := rfl

@[simp] theorem setDirCursor_led (k : Option Nat) (s : State) :
    (setDirCursor k s).led = s.led := rfl

@[simp] theorem setDirCursor_romEnable (k : Option Nat) (s : State) :
    (setDirCursor k s).romEnable = s.romEnable := rfl

@[simp] theorem setDirCursor_region (k : Option Nat) (s : State) :
    (setDirCursor k s).region = s.region := rfl

@[simp] theorem setDirCursor_addr (k : Option Nat) (s : State) :
    (setDirCursor k s).addr = s.addr := rfl

@[simp] theorem setDirCursor_cycle (k : Option Nat) (s : State) :
    (setDirCursor k s).cycle = s.cycle := rfl

@[simp] theorem setDirCursor_latchQ (k : Option Nat) (s : State) :
    (setDirCursor k s).latchQ = s.latchQ := rfl

@[simp] theorem setDirCursor_marks (k : Option Nat) (s : State) :
    (setDirCursor k s).marks = s.marks := rfl

@[simp] theorem setDirCursor_trace (k : Option Nat) (s : State) :
    (setDirCursor k s).trace = s.trace := rfl

@[simp] theorem setDirCursor_draws (k : Option Nat) (s : State) :
    (setDirCursor k s).draws = s.draws := rfl

@[simp] theorem setDirCursor_answers (k : Option Nat) (s : State) :
    (setDirCursor k s).answers = s.answers := rfl

@[simp] theorem setDirCursor_sched (k : Option Nat) (s : State) :
    (setDirCursor k s).sched = s.sched := rfl

@[simp] theorem drawn_cfg (s : State) :
    (drawn s).cfg = s.cfg := rfl

@[simp] theorem drawn_storage (s : State) :
    (drawn s).storage = s.storage := rfl

@[simp] theorem drawn_mem (s : State) :
    (drawn s).mem = s.mem := rfl

@[simp] theorem drawn_upperPresent (s : State) :
    (drawn s).upperPresent = s.upperPresent := rfl

@[simp] theorem drawn_activeBank (s : State) :
    (drawn s).activeBank = s.activeBank := rfl

@[simp] theorem drawn_dbusOut (s : State) :
    (drawn s).dbusOut = s.dbusOut := rfl

@[simp] theorem drawn_session (s : State) :
    (drawn s).session = s.session := rfl

@[simp] theorem drawn_listCursor (s : State) :
    (drawn s).listCursor = s.listCursor := rfl

@[simp] theorem drawn_dirCursor (s : State) :
    (drawn s).dirCursor = s.dirCursor := rfl

@[simp] theorem drawn_hostReset (s : State) :
    (drawn s).hostReset = s.hostReset := rfl

@[simp] theorem drawn_led (s : State) :
    (drawn s).led = s.led := rfl

@[simp] theorem drawn_romEnable (s : State) :
    (drawn s).romEnable = s.romEnable := rfl

@[simp] theorem drawn_region (s : State) :
    (drawn s).region = s.region := rfl

@[simp] theorem drawn_addr (s : State) :
    (drawn s).addr = s.addr := rfl

@[simp] theorem drawn_cycle (s : State) :
    (drawn s).cycle = s.cycle := rfl

@[simp] theorem drawn_latchQ (s : State) :
    (drawn s).latchQ = s.latchQ := rfl

@[simp] theorem drawn_marks (s : State) :
    (drawn s).marks = s.marks := rfl

@[simp] theorem drawn_trace (s : State) :
    (drawn s).trace = s.trace := rfl

@[simp] theorem drawn_answers (s : State) :
    (drawn s).answers = s.answers := rfl

@[simp] theorem drawn_sched (s : State) :
    (drawn s).sched = s.sched := rfl

@[simp] theorem answered_cfg (s : State) :
    (answered s).cfg = s.cfg := rfl

@[simp] theorem answered_storage (s : State) :
    (answered s).storage = s.storage := rfl

@[simp] theorem answered_mem (s : State) :
    (answered s).mem = s.mem := rfl

@[simp] theorem answered_upperPresent (s : State) :
    (answered s).upperPresent = s.upperPresent := rfl

@[simp] theorem answered_activeBank (s : State) :
    (answered s).activeBank = s.activeBank := rfl

@[simp] theorem answered_dbusOut (s : State) :
    (answered s).dbusOut = s.dbusOut := rfl

@[simp] theorem answered_session (s : State) :
    (answered s).session = s.session := rfl

@[simp] theorem answered_listCursor (s : State) :
    (answered s).listCursor = s.listCursor := rfl

@[simp] theorem answered_dirCursor (s : State) :
    (answered s).dirCursor = s.dirCursor := rfl

@[simp] theorem answered_hostReset (s : State) :
    (answered s).hostReset = s.hostReset := rfl

@[simp] theorem answered_led (s : State) :
    (answered s).led = s.led := rfl

@[simp] theorem answered_romEnable (s : State) :
    (answered s).romEnable = s.romEnable := rfl

@[simp] theorem answered_region (s : State) :
    (answered s).region = s.region := rfl

@[simp] theorem answered_addr (s : State) :
    (answered s).addr = s.addr := rfl

@[simp] theorem answered_cycle (s : State) :
    (answered s).cycle = s.cycle := rfl

@[simp] theorem answered_latchQ (s : State) :
    (answered s).latchQ = s.latchQ := rfl

@[simp] theorem answered_marks (s : State) :
    (answered s).marks = s.marks := rfl

@[simp] theorem answered_trace (s : State) :
    (answered s).trace = s.trace := rfl

@[simp] theorem answered_sched (s : State) :
    (answered s).sched = s.sched := rfl

@[simp] theorem complete_cfg (s : State) :
    (complete s).cfg = s.cfg := rfl

@[simp] theorem complete_storage (s : State) :
    (complete s).storage = s.storage := rfl

@[simp] theorem complete_mem (s : State) :
    (complete s).mem = s.mem := rfl

@[simp] theorem complete_upperPresent (s : State) :
    (complete s).upperPresent = s.upperPresent := rfl

@[simp] theorem complete_activeBank (s : State) :
    (complete s).activeBank = s.activeBank := rfl

@[simp] theorem complete_dbusOut (s : State) :
    (complete s).dbusOut = s.dbusOut := rfl

@[simp] theorem complete_listCursor (s : State) :
    (complete s).listCursor = s.listCursor := rfl

@[simp] theorem complete_dirCursor (s : State) :
    (complete s).dirCursor = s.dirCursor := rfl

@[simp] theorem complete_hostReset (s : State) :
    (complete s).hostReset = s.hostReset := rfl

@[simp] theorem complete_led (s : State) :
    (complete s).led = s.led := rfl

@[simp] theorem complete_romEnable (s : State) :
    (complete s).romEnable = s.romEnable := rfl

@[simp] theorem complete_region (s : State) :
    (complete s).region = s.region := rfl

@[simp] theorem complete_addr (s : State) :
    (complete s).addr = s.addr := rfl

@[simp] theorem complete_cycle (s : State) :
    (complete s).cycle = s.cycle := rfl

@[simp] theorem complete_latchQ (s : State) :
    (complete s).latchQ = s.latchQ := rfl

@[simp] theorem complete_marks (s : State) :
    (complete s).marks = s.marks := rfl

@[simp] theorem complete_trace (s : State) :
    (complete s).trace = s.trace := rfl

@[simp] theorem complete_draws (s : State) :
    (complete s).draws = s.draws := rfl

@[simp] theorem complete_answers (s : State) :
    (complete s).answers = s.answers := rfl

@[simp] theorem complete_sched (s : State) :
    (complete s).sched = s.sched := rfl

@[simp] theorem bumpSeq_cfg (n : Nat) (s : State) :
    (bumpSeq n s).cfg = s.cfg := rfl

@[simp] theorem bumpSeq_storage (n : Nat) (s : State) :
    (bumpSeq n s).storage = s.storage := rfl

@[simp] theorem bumpSeq_upperPresent (n : Nat) (s : State) :
    (bumpSeq n s).upperPresent = s.upperPresent := rfl

@[simp] theorem bumpSeq_activeBank (n : Nat) (s : State) :
    (bumpSeq n s).activeBank = s.activeBank := rfl

@[simp] theorem bumpSeq_dbusOut (n : Nat) (s : State) :
    (bumpSeq n s).dbusOut = s.dbusOut := rfl

@[simp] theorem bumpSeq_session (n : Nat) (s : State) :
    (bumpSeq n s).session = s.session := rfl

@[simp] theorem bumpSeq_listCursor (n : Nat) (s : State) :
    (bumpSeq n s).listCursor = s.listCursor := rfl

@[simp] theorem bumpSeq_dirCursor (n : Nat) (s : State) :
    (bumpSeq n s).dirCursor = s.dirCursor := rfl

@[simp] theorem bumpSeq_hostReset (n : Nat) (s : State) :
    (bumpSeq n s).hostReset = s.hostReset := rfl

@[simp] theorem bumpSeq_led (n : Nat) (s : State) :
    (bumpSeq n s).led = s.led := rfl

@[simp] theorem bumpSeq_romEnable (n : Nat) (s : State) :
    (bumpSeq n s).romEnable = s.romEnable := rfl

@[simp] theorem bumpSeq_region (n : Nat) (s : State) :
    (bumpSeq n s).region = s.region := rfl

@[simp] theorem bumpSeq_addr (n : Nat) (s : State) :
    (bumpSeq n s).addr = s.addr := rfl

@[simp] theorem bumpSeq_cycle (n : Nat) (s : State) :
    (bumpSeq n s).cycle = s.cycle := rfl

@[simp] theorem bumpSeq_latchQ (n : Nat) (s : State) :
    (bumpSeq n s).latchQ = s.latchQ := rfl

@[simp] theorem bumpSeq_marks (n : Nat) (s : State) :
    (bumpSeq n s).marks = s.marks := rfl

@[simp] theorem bumpSeq_trace (n : Nat) (s : State) :
    (bumpSeq n s).trace = s.trace := rfl

@[simp] theorem bumpSeq_draws (n : Nat) (s : State) :
    (bumpSeq n s).draws = s.draws := rfl

@[simp] theorem bumpSeq_answers (n : Nat) (s : State) :
    (bumpSeq n s).answers = s.answers := rfl

@[simp] theorem bumpSeq_sched (n : Nat) (s : State) :
    (bumpSeq n s).sched = s.sched := rfl

@[simp] theorem loadUpper_cfg (n : Nat) (img : Image) (s : State) :
    (loadUpper n img s).cfg = s.cfg := by simp [loadUpper]

@[simp] theorem loadUpper_storage (n : Nat) (img : Image) (s : State) :
    (loadUpper n img s).storage = s.storage := by simp [loadUpper]

@[simp] theorem loadUpper_activeBank (n : Nat) (img : Image) (s : State) :
    (loadUpper n img s).activeBank = s.activeBank := by simp [loadUpper]

@[simp] theorem loadUpper_dbusOut (n : Nat) (img : Image) (s : State) :
    (loadUpper n img s).dbusOut = s.dbusOut := by simp [loadUpper]

@[simp] theorem loadUpper_session (n : Nat) (img : Image) (s : State) :
    (loadUpper n img s).session = s.session := by simp [loadUpper]

@[simp] theorem loadUpper_listCursor (n : Nat) (img : Image) (s : State) :
    (loadUpper n img s).listCursor = s.listCursor := by simp [loadUpper]

@[simp] theorem loadUpper_dirCursor (n : Nat) (img : Image) (s : State) :
    (loadUpper n img s).dirCursor = s.dirCursor := by simp [loadUpper]

@[simp] theorem loadUpper_hostReset (n : Nat) (img : Image) (s : State) :
    (loadUpper n img s).hostReset = s.hostReset := by simp [loadUpper]

@[simp] theorem loadUpper_led (n : Nat) (img : Image) (s : State) :
    (loadUpper n img s).led = s.led := by simp [loadUpper]

@[simp] theorem loadUpper_romEnable (n : Nat) (img : Image) (s : State) :
    (loadUpper n img s).romEnable = s.romEnable := by simp [loadUpper]

@[simp] theorem loadUpper_region (n : Nat) (img : Image) (s : State) :
    (loadUpper n img s).region = s.region := by simp [loadUpper]

@[simp] theorem loadUpper_addr (n : Nat) (img : Image) (s : State) :
    (loadUpper n img s).addr = s.addr := by simp [loadUpper]

@[simp] theorem loadUpper_cycle (n : Nat) (img : Image) (s : State) :
    (loadUpper n img s).cycle = s.cycle := by simp [loadUpper]

@[simp] theorem loadUpper_latchQ (n : Nat) (img : Image) (s : State) :
    (loadUpper n img s).latchQ = s.latchQ := by simp [loadUpper]

@[simp] theorem loadUpper_marks (n : Nat) (img : Image) (s : State) :
    (loadUpper n img s).marks = s.marks := by simp [loadUpper]

@[simp] theorem loadUpper_trace (n : Nat) (img : Image) (s : State) :
    (loadUpper n img s).trace = s.trace := by simp [loadUpper]

@[simp] theorem loadUpper_draws (n : Nat) (img : Image) (s : State) :
    (loadUpper n img s).draws = s.draws := by simp [loadUpper]

@[simp] theorem loadUpper_answers (n : Nat) (img : Image) (s : State) :
    (loadUpper n img s).answers = s.answers := by simp [loadUpper]

@[simp] theorem loadUpper_sched (n : Nat) (img : Image) (s : State) :
    (loadUpper n img s).sched = s.sched := by simp [loadUpper]

@[simp] theorem loadBroken_cfg (n : Nat) (img : Image) (bit : Bool) (s : State) :
    (loadBroken n img bit s).cfg = s.cfg := by simp [loadBroken]

@[simp] theorem loadBroken_storage (n : Nat) (img : Image) (bit : Bool) (s : State) :
    (loadBroken n img bit s).storage = s.storage := by simp [loadBroken]

@[simp] theorem loadBroken_activeBank (n : Nat) (img : Image) (bit : Bool) (s : State) :
    (loadBroken n img bit s).activeBank = s.activeBank := by simp [loadBroken]

@[simp] theorem loadBroken_dbusOut (n : Nat) (img : Image) (bit : Bool) (s : State) :
    (loadBroken n img bit s).dbusOut = s.dbusOut := by simp [loadBroken]

@[simp] theorem loadBroken_session (n : Nat) (img : Image) (bit : Bool) (s : State) :
    (loadBroken n img bit s).session = s.session := by simp [loadBroken]

@[simp] theorem loadBroken_listCursor (n : Nat) (img : Image) (bit : Bool) (s : State) :
    (loadBroken n img bit s).listCursor = s.listCursor := by simp [loadBroken]

@[simp] theorem loadBroken_dirCursor (n : Nat) (img : Image) (bit : Bool) (s : State) :
    (loadBroken n img bit s).dirCursor = s.dirCursor := by simp [loadBroken]

@[simp] theorem loadBroken_hostReset (n : Nat) (img : Image) (bit : Bool) (s : State) :
    (loadBroken n img bit s).hostReset = s.hostReset := by simp [loadBroken]

@[simp] theorem loadBroken_led (n : Nat) (img : Image) (bit : Bool) (s : State) :
    (loadBroken n img bit s).led = s.led := by simp [loadBroken]

@[simp] theorem loadBroken_romEnable (n : Nat) (img : Image) (bit : Bool) (s : State) :
    (loadBroken n img bit s).romEnable = s.romEnable := by simp [loadBroken]

@[simp] theorem loadBroken_region (n : Nat) (img : Image) (bit : Bool) (s : State) :
    (loadBroken n img bit s).region = s.region := by simp [loadBroken]

@[simp] theorem loadBroken_addr (n : Nat) (img : Image) (bit : Bool) (s : State) :
    (loadBroken n img bit s).addr = s.addr := by simp [loadBroken]

@[simp] theorem loadBroken_cycle (n : Nat) (img : Image) (bit : Bool) (s : State) :
    (loadBroken n img bit s).cycle = s.cycle := by simp [loadBroken]

@[simp] theorem loadBroken_latchQ (n : Nat) (img : Image) (bit : Bool) (s : State) :
    (loadBroken n img bit s).latchQ = s.latchQ := by simp [loadBroken]

@[simp] theorem loadBroken_marks (n : Nat) (img : Image) (bit : Bool) (s : State) :
    (loadBroken n img bit s).marks = s.marks := by simp [loadBroken]

@[simp] theorem loadBroken_trace (n : Nat) (img : Image) (bit : Bool) (s : State) :
    (loadBroken n img bit s).trace = s.trace := by simp [loadBroken]

@[simp] theorem loadBroken_draws (n : Nat) (img : Image) (bit : Bool) (s : State) :
    (loadBroken n img bit s).draws = s.draws := by simp [loadBroken]

@[simp] theorem loadBroken_answers (n : Nat) (img : Image) (bit : Bool) (s : State) :
    (loadBroken n img bit s).answers = s.answers := by simp [loadBroken]

@[simp] theorem loadBroken_sched (n : Nat) (img : Image) (bit : Bool) (s : State) :
    (loadBroken n img bit s).sched = s.sched := by simp [loadBroken]

@[simp] theorem unloadUpper_cfg (n : Nat) (s : State) :
    (unloadUpper n s).cfg = s.cfg := rfl

@[simp] theorem unloadUpper_storage (n : Nat) (s : State) :
    (unloadUpper n s).storage = s.storage := rfl

@[simp] theorem unloadUpper_mem (n : Nat) (s : State) :
    (unloadUpper n s).mem = s.mem := rfl

@[simp] theorem unloadUpper_activeBank (n : Nat) (s : State) :
    (unloadUpper n s).activeBank = s.activeBank := rfl

@[simp] theorem unloadUpper_dbusOut (n : Nat) (s : State) :
    (unloadUpper n s).dbusOut = s.dbusOut := rfl

@[simp] theorem unloadUpper_session (n : Nat) (s : State) :
    (unloadUpper n s).session = s.session := rfl

@[simp] theorem unloadUpper_listCursor (n : Nat) (s : State) :
    (unloadUpper n s).listCursor = s.listCursor := rfl

@[simp] theorem unloadUpper_dirCursor (n : Nat) (s : State) :
    (unloadUpper n s).dirCursor = s.dirCursor := rfl

@[simp] theorem unloadUpper_hostReset (n : Nat) (s : State) :
    (unloadUpper n s).hostReset = s.hostReset := rfl

@[simp] theorem unloadUpper_led (n : Nat) (s : State) :
    (unloadUpper n s).led = s.led := rfl

@[simp] theorem unloadUpper_romEnable (n : Nat) (s : State) :
    (unloadUpper n s).romEnable = s.romEnable := rfl

@[simp] theorem unloadUpper_region (n : Nat) (s : State) :
    (unloadUpper n s).region = s.region := rfl

@[simp] theorem unloadUpper_addr (n : Nat) (s : State) :
    (unloadUpper n s).addr = s.addr := rfl

@[simp] theorem unloadUpper_cycle (n : Nat) (s : State) :
    (unloadUpper n s).cycle = s.cycle := rfl

@[simp] theorem unloadUpper_latchQ (n : Nat) (s : State) :
    (unloadUpper n s).latchQ = s.latchQ := rfl

@[simp] theorem unloadUpper_marks (n : Nat) (s : State) :
    (unloadUpper n s).marks = s.marks := rfl

@[simp] theorem unloadUpper_trace (n : Nat) (s : State) :
    (unloadUpper n s).trace = s.trace := rfl

@[simp] theorem unloadUpper_draws (n : Nat) (s : State) :
    (unloadUpper n s).draws = s.draws := rfl

@[simp] theorem unloadUpper_answers (n : Nat) (s : State) :
    (unloadUpper n s).answers = s.answers := rfl

@[simp] theorem unloadUpper_sched (n : Nat) (s : State) :
    (unloadUpper n s).sched = s.sched := rfl

@[simp] theorem loadLower_cfg (img : Image) (s : State) :
    (loadLower img s).cfg = s.cfg := by simp [loadLower]

@[simp] theorem loadLower_storage (img : Image) (s : State) :
    (loadLower img s).storage = s.storage := by simp [loadLower]

@[simp] theorem loadLower_upperPresent (img : Image) (s : State) :
    (loadLower img s).upperPresent = s.upperPresent := by simp [loadLower]

@[simp] theorem loadLower_activeBank (img : Image) (s : State) :
    (loadLower img s).activeBank = s.activeBank := by simp [loadLower]

@[simp] theorem loadLower_dbusOut (img : Image) (s : State) :
    (loadLower img s).dbusOut = s.dbusOut := by simp [loadLower]

@[simp] theorem loadLower_session (img : Image) (s : State) :
    (loadLower img s).session = s.session := by simp [loadLower]

@[simp] theorem loadLower_listCursor (img : Image) (s : State) :
    (loadLower img s).listCursor = s.listCursor := by simp [loadLower]

@[simp] theorem loadLower_dirCursor (img : Image) (s : State) :
    (loadLower img s).dirCursor = s.dirCursor := by simp [loadLower]

@[simp] theorem loadLower_hostReset (img : Image) (s : State) :
    (loadLower img s).hostReset = s.hostReset := by simp [loadLower]

@[simp] theorem loadLower_led (img : Image) (s : State) :
    (loadLower img s).led = s.led := by simp [loadLower]

@[simp] theorem loadLower_romEnable (img : Image) (s : State) :
    (loadLower img s).romEnable = s.romEnable := by simp [loadLower]

@[simp] theorem loadLower_region (img : Image) (s : State) :
    (loadLower img s).region = s.region := by simp [loadLower]

@[simp] theorem loadLower_addr (img : Image) (s : State) :
    (loadLower img s).addr = s.addr := by simp [loadLower]

@[simp] theorem loadLower_cycle (img : Image) (s : State) :
    (loadLower img s).cycle = s.cycle := by simp [loadLower]

@[simp] theorem loadLower_latchQ (img : Image) (s : State) :
    (loadLower img s).latchQ = s.latchQ := by simp [loadLower]

@[simp] theorem loadLower_marks (img : Image) (s : State) :
    (loadLower img s).marks = s.marks := by simp [loadLower]

@[simp] theorem loadLower_trace (img : Image) (s : State) :
    (loadLower img s).trace = s.trace := by simp [loadLower]

@[simp] theorem loadLower_draws (img : Image) (s : State) :
    (loadLower img s).draws = s.draws := by simp [loadLower]

@[simp] theorem loadLower_answers (img : Image) (s : State) :
    (loadLower img s).answers = s.answers := by simp [loadLower]

@[simp] theorem loadLower_sched (img : Image) (s : State) :
    (loadLower img s).sched = s.sched := by simp [loadLower]

@[simp] theorem respondIn_cfg (n : Nat) (st : Status) (kind : Kind) (t : List Byte) (fill : Nat → Byte) (s : State) :
    (respondIn n st kind t fill s).cfg = s.cfg := by simp [respondIn]

@[simp] theorem respondIn_storage (n : Nat) (st : Status) (kind : Kind) (t : List Byte) (fill : Nat → Byte) (s : State) :
    (respondIn n st kind t fill s).storage = s.storage := by simp [respondIn]

@[simp] theorem respondIn_upperPresent (n : Nat) (st : Status) (kind : Kind) (t : List Byte) (fill : Nat → Byte) (s : State) :
    (respondIn n st kind t fill s).upperPresent = s.upperPresent := by simp [respondIn]

@[simp] theorem respondIn_activeBank (n : Nat) (st : Status) (kind : Kind) (t : List Byte) (fill : Nat → Byte) (s : State) :
    (respondIn n st kind t fill s).activeBank = s.activeBank := by simp [respondIn]

@[simp] theorem respondIn_dbusOut (n : Nat) (st : Status) (kind : Kind) (t : List Byte) (fill : Nat → Byte) (s : State) :
    (respondIn n st kind t fill s).dbusOut = s.dbusOut := by simp [respondIn]

@[simp] theorem respondIn_session (n : Nat) (st : Status) (kind : Kind) (t : List Byte) (fill : Nat → Byte) (s : State) :
    (respondIn n st kind t fill s).session = s.session := by simp [respondIn]

@[simp] theorem respondIn_listCursor (n : Nat) (st : Status) (kind : Kind) (t : List Byte) (fill : Nat → Byte) (s : State) :
    (respondIn n st kind t fill s).listCursor = s.listCursor := by simp [respondIn]

@[simp] theorem respondIn_dirCursor (n : Nat) (st : Status) (kind : Kind) (t : List Byte) (fill : Nat → Byte) (s : State) :
    (respondIn n st kind t fill s).dirCursor = s.dirCursor := by simp [respondIn]

@[simp] theorem respondIn_hostReset (n : Nat) (st : Status) (kind : Kind) (t : List Byte) (fill : Nat → Byte) (s : State) :
    (respondIn n st kind t fill s).hostReset = s.hostReset := by simp [respondIn]

@[simp] theorem respondIn_led (n : Nat) (st : Status) (kind : Kind) (t : List Byte) (fill : Nat → Byte) (s : State) :
    (respondIn n st kind t fill s).led = s.led := by simp [respondIn]

@[simp] theorem respondIn_romEnable (n : Nat) (st : Status) (kind : Kind) (t : List Byte) (fill : Nat → Byte) (s : State) :
    (respondIn n st kind t fill s).romEnable = s.romEnable := by simp [respondIn]

@[simp] theorem respondIn_region (n : Nat) (st : Status) (kind : Kind) (t : List Byte) (fill : Nat → Byte) (s : State) :
    (respondIn n st kind t fill s).region = s.region := by simp [respondIn]

@[simp] theorem respondIn_addr (n : Nat) (st : Status) (kind : Kind) (t : List Byte) (fill : Nat → Byte) (s : State) :
    (respondIn n st kind t fill s).addr = s.addr := by simp [respondIn]

@[simp] theorem respondIn_cycle (n : Nat) (st : Status) (kind : Kind) (t : List Byte) (fill : Nat → Byte) (s : State) :
    (respondIn n st kind t fill s).cycle = s.cycle := by simp [respondIn]

@[simp] theorem respondIn_latchQ (n : Nat) (st : Status) (kind : Kind) (t : List Byte) (fill : Nat → Byte) (s : State) :
    (respondIn n st kind t fill s).latchQ = s.latchQ := by simp [respondIn]

@[simp] theorem respondIn_marks (n : Nat) (st : Status) (kind : Kind) (t : List Byte) (fill : Nat → Byte) (s : State) :
    (respondIn n st kind t fill s).marks = s.marks := by simp [respondIn]

@[simp] theorem respondIn_trace (n : Nat) (st : Status) (kind : Kind) (t : List Byte) (fill : Nat → Byte) (s : State) :
    (respondIn n st kind t fill s).trace = s.trace := by simp [respondIn]

@[simp] theorem respondIn_draws (n : Nat) (st : Status) (kind : Kind) (t : List Byte) (fill : Nat → Byte) (s : State) :
    (respondIn n st kind t fill s).draws = s.draws := by simp [respondIn]

@[simp] theorem respondIn_answers (n : Nat) (st : Status) (kind : Kind) (t : List Byte) (fill : Nat → Byte) (s : State) :
    (respondIn n st kind t fill s).answers = s.answers := by simp [respondIn]

@[simp] theorem respondIn_sched (n : Nat) (st : Status) (kind : Kind) (t : List Byte) (fill : Nat → Byte) (s : State) :
    (respondIn n st kind t fill s).sched = s.sched := by simp [respondIn]

@[simp] theorem respond_cfg (st : Status) (kind : Kind) (t : List Byte) (s : State) :
    (respond st kind t s).cfg = s.cfg := by
  unfold respond
  split <;> simp

@[simp] theorem respond_storage (st : Status) (kind : Kind) (t : List Byte) (s : State) :
    (respond st kind t s).storage = s.storage := by
  unfold respond
  split <;> simp

@[simp] theorem respond_upperPresent (st : Status) (kind : Kind) (t : List Byte) (s : State) :
    (respond st kind t s).upperPresent = s.upperPresent := by
  unfold respond
  split <;> simp

@[simp] theorem respond_activeBank (st : Status) (kind : Kind) (t : List Byte) (s : State) :
    (respond st kind t s).activeBank = s.activeBank := by
  unfold respond
  split <;> simp

@[simp] theorem respond_dbusOut (st : Status) (kind : Kind) (t : List Byte) (s : State) :
    (respond st kind t s).dbusOut = s.dbusOut := by
  unfold respond
  split <;> simp

@[simp] theorem respond_session (st : Status) (kind : Kind) (t : List Byte) (s : State) :
    (respond st kind t s).session = s.session := by
  unfold respond
  split <;> simp

@[simp] theorem respond_listCursor (st : Status) (kind : Kind) (t : List Byte) (s : State) :
    (respond st kind t s).listCursor = s.listCursor := by
  unfold respond
  split <;> simp

@[simp] theorem respond_dirCursor (st : Status) (kind : Kind) (t : List Byte) (s : State) :
    (respond st kind t s).dirCursor = s.dirCursor := by
  unfold respond
  split <;> simp

@[simp] theorem respond_hostReset (st : Status) (kind : Kind) (t : List Byte) (s : State) :
    (respond st kind t s).hostReset = s.hostReset := by
  unfold respond
  split <;> simp

@[simp] theorem respond_led (st : Status) (kind : Kind) (t : List Byte) (s : State) :
    (respond st kind t s).led = s.led := by
  unfold respond
  split <;> simp

@[simp] theorem respond_romEnable (st : Status) (kind : Kind) (t : List Byte) (s : State) :
    (respond st kind t s).romEnable = s.romEnable := by
  unfold respond
  split <;> simp

@[simp] theorem respond_region (st : Status) (kind : Kind) (t : List Byte) (s : State) :
    (respond st kind t s).region = s.region := by
  unfold respond
  split <;> simp

@[simp] theorem respond_addr (st : Status) (kind : Kind) (t : List Byte) (s : State) :
    (respond st kind t s).addr = s.addr := by
  unfold respond
  split <;> simp

@[simp] theorem respond_cycle (st : Status) (kind : Kind) (t : List Byte) (s : State) :
    (respond st kind t s).cycle = s.cycle := by
  unfold respond
  split <;> simp

@[simp] theorem respond_latchQ (st : Status) (kind : Kind) (t : List Byte) (s : State) :
    (respond st kind t s).latchQ = s.latchQ := by
  unfold respond
  split <;> simp

@[simp] theorem respond_marks (st : Status) (kind : Kind) (t : List Byte) (s : State) :
    (respond st kind t s).marks = s.marks := by
  unfold respond
  split <;> simp

@[simp] theorem respond_trace (st : Status) (kind : Kind) (t : List Byte) (s : State) :
    (respond st kind t s).trace = s.trace := by
  unfold respond
  split <;> simp

@[simp] theorem respond_answers (st : Status) (kind : Kind) (t : List Byte) (s : State) :
    (respond st kind t s).answers = s.answers := by
  unfold respond
  split <;> simp

@[simp] theorem respond_sched (st : Status) (kind : Kind) (t : List Byte) (s : State) :
    (respond st kind t s).sched = s.sched := by
  unfold respond
  split <;> simp

@[simp] theorem raiseError_cfg (e : Cause) (s : State) :
    (raiseError e s).cfg = s.cfg := respond_cfg _ _ _ _

@[simp] theorem raiseError_storage (e : Cause) (s : State) :
    (raiseError e s).storage = s.storage := respond_storage _ _ _ _

@[simp] theorem raiseError_upperPresent (e : Cause) (s : State) :
    (raiseError e s).upperPresent = s.upperPresent := respond_upperPresent _ _ _ _

@[simp] theorem raiseError_activeBank (e : Cause) (s : State) :
    (raiseError e s).activeBank = s.activeBank := respond_activeBank _ _ _ _

@[simp] theorem raiseError_dbusOut (e : Cause) (s : State) :
    (raiseError e s).dbusOut = s.dbusOut := respond_dbusOut _ _ _ _

@[simp] theorem raiseError_session (e : Cause) (s : State) :
    (raiseError e s).session = s.session := respond_session _ _ _ _

@[simp] theorem raiseError_listCursor (e : Cause) (s : State) :
    (raiseError e s).listCursor = s.listCursor := respond_listCursor _ _ _ _

@[simp] theorem raiseError_dirCursor (e : Cause) (s : State) :
    (raiseError e s).dirCursor = s.dirCursor := respond_dirCursor _ _ _ _

@[simp] theorem raiseError_hostReset (e : Cause) (s : State) :
    (raiseError e s).hostReset = s.hostReset := respond_hostReset _ _ _ _

@[simp] theorem raiseError_led (e : Cause) (s : State) :
    (raiseError e s).led = s.led := respond_led _ _ _ _

@[simp] theorem raiseError_romEnable (e : Cause) (s : State) :
    (raiseError e s).romEnable = s.romEnable := respond_romEnable _ _ _ _

@[simp] theorem raiseError_region (e : Cause) (s : State) :
    (raiseError e s).region = s.region := respond_region _ _ _ _

@[simp] theorem raiseError_addr (e : Cause) (s : State) :
    (raiseError e s).addr = s.addr := respond_addr _ _ _ _

@[simp] theorem raiseError_cycle (e : Cause) (s : State) :
    (raiseError e s).cycle = s.cycle := respond_cycle _ _ _ _

@[simp] theorem raiseError_latchQ (e : Cause) (s : State) :
    (raiseError e s).latchQ = s.latchQ := respond_latchQ _ _ _ _

@[simp] theorem raiseError_marks (e : Cause) (s : State) :
    (raiseError e s).marks = s.marks := respond_marks _ _ _ _

@[simp] theorem raiseError_trace (e : Cause) (s : State) :
    (raiseError e s).trace = s.trace := respond_trace _ _ _ _

@[simp] theorem raiseError_answers (e : Cause) (s : State) :
    (raiseError e s).answers = s.answers := respond_answers _ _ _ _

@[simp] theorem raiseError_sched (e : Cause) (s : State) :
    (raiseError e s).sched = s.sched := respond_sched _ _ _ _

end Sys2Proof.Machine
end

