-- ==== Sys2Proof/Laws/Ops.lean ====
section
/-!
SUPPORT. One lemma per shared operation that says what it does to the fields it writes: image writes, loads, the
bracket, the indicator, the response.
-/

namespace Sys2Proof.Machine

/-! ## Image addresses -/

@[simp] theorem imgAddr_inj {c : Config} {sel : ImgSel} {a b : Nat} : imgAddr c sel a = imgAddr c sel b ↔ a = b := by
  cases sel <;> simp [imgAddr]

theorem imgRead_mem (sel : ImgSel) (a : Nat) (s : State) :
    imgRead sel a s = Memory.read s.mem (imgAddr s.cfg sel a) := rfl

@[simp] theorem imgWrite_mem (sel : ImgSel) (o : Nat) (v : Byte) (s : State) :
    (imgWrite sel o v s).mem = Memory.write s.mem (imgAddr s.cfg sel o) v := rfl

/-! ## A list of image writes -/

theorem imgWrites_wf {sel : ImgSel} {ws : List (Nat × Byte)} {s : State} (w : Memory.wf s.mem = true) :
    Memory.wf (imgWrites sel ws s).mem = true := by
  induction ws generalizing s with
  | nil => exact w
  | cons x ws ih => exact ih (s := imgWrite sel x.1 x.2 s) (by simpa using Memory.wf_write w)

/-- The writes leave alone every address none of them names. -/
theorem imgWrites_read_other {sel : ImgSel} {ws : List (Nat × Byte)} {s : State} {a : Nat}
    (h : ∀ x ∈ ws, imgAddr s.cfg sel x.1 ≠ a) :
    Memory.read (imgWrites sel ws s).mem a = Memory.read s.mem a := by
  induction ws generalizing s with
  | nil => rfl
  | cons x ws ih =>
    have hx := h x List.mem_cons_self
    rw [imgWrites, ih (s := imgWrite sel x.1 x.2 s) fun y hy => by simpa using h y (List.mem_cons_of_mem _ hy)]
    simpa using Memory.read_write_other hx

/-- Writes to different offsets each leave the byte they wrote. -/
theorem imgWrites_read_mem {sel : ImgSel} {ws : List (Nat × Byte)} {s : State} (w : Memory.wf s.mem = true)
    (nodup : (ws.map Prod.fst).Nodup) {x : Nat × Byte} (hx : x ∈ ws) :
    Memory.read (imgWrites sel ws s).mem (imgAddr s.cfg sel x.1) = x.2 := by
  induction ws generalizing s with
  | nil => simp at hx
  | cons y ws ih =>
    rw [List.map_cons, List.nodup_cons] at nodup
    have wf' : Memory.wf (imgWrite sel y.1 y.2 s).mem = true := by simpa using Memory.wf_write w
    rcases List.mem_cons.1 hx with rfl | hmem
    · rw [imgWrites, imgWrites_read_other]
      · simpa using Memory.read_write_same w
      · intro z hz e
        have : z.1 = x.1 := by simpa using e
        exact nodup.1 (this ▸ List.mem_map_of_mem hz)
    · rw [imgWrites]
      simpa using ih wf' nodup.2 hmem

/-- Every cell listed after the writes was listed before or is one of theirs. -/
theorem imgWrites_cells {sel : ImgSel} {ws : List (Nat × Byte)} {s : State} {cell : Host.Cell}
    (h : cell ∈ (imgWrites sel ws s).mem) : cell ∈ s.mem ∨ ∃ x ∈ ws, cell.1 = imgAddr s.cfg sel x.1 := by
  induction ws generalizing s with
  | nil => exact .inl h
  | cons x ws ih =>
    rcases ih (s := imgWrite sel x.1 x.2 s) h with hm | ⟨y, hy, e⟩
    · rcases Memory.mem_write (by simpa using hm) with hm' | e
      · exact .inl hm'
      · exact .inr ⟨x, List.mem_cons_self, by rw [e]⟩
    · exact .inr ⟨y, List.mem_cons_of_mem _ hy, by simpa using e⟩

/-! ## The bracket and the indicator -/

@[simp] theorem driveReset_hostReset (l : HostReset) (s : State) : (driveReset l s).hostReset = l := by
  unfold driveReset
  split
  · assumption
  · rfl

/-- The line records an edge where it changes. -/
theorem driveReset_trace (l : HostReset) (s : State) :
    (driveReset l s).trace = if s.hostReset = l then s.trace else .resetEdge l :: s.trace := by
  unfold driveReset
  split <;> rfl

@[simp] theorem assertReset_hostReset (s : State) : (assertReset s).hostReset = .asserted := driveReset_hostReset _ _

@[simp] theorem cutShort_romEnable (s : State) : (cutShort s).romEnable = false := rfl

@[simp] theorem cutShort_cycle (s : State) : (cutShort s).cycle = cycleCut s.cycle := rfl

/-- A cycle is cut short once. -/
@[simp] theorem cycleCut_cut (c : HostCycle) : cycleCut (cycleCut c) = cycleCut c := by cases c <;> rfl

@[simp] theorem assertReset_romEnable (s : State) : (assertReset s).romEnable = false := driveReset_romEnable _ _

@[simp] theorem assertReset_cycle (s : State) : (assertReset s).cycle = cycleCut s.cycle :=
  driveReset_cycle _ _

@[simp] theorem releaseReset_hostReset (s : State) : (releaseReset s).hostReset = .released :=
  driveReset_hostReset _ _

@[simp] theorem setLed_led (l : Led) (s : State) : (setLed l s).led = l := by
  unfold setLed
  split
  · assumption
  · rfl

theorem setLed_trace (l : Led) (s : State) :
    (setLed l s).trace = if s.led = l then s.trace else .ledChange l :: s.trace := by
  unfold setLed
  split <;> rfl

@[simp] theorem setPresent_upperPresent (n : Nat) (bit : Bool) (s : State) :
    (setPresent n bit s).upperPresent = maskWithBit s.upperPresent n bit := rfl

@[simp] theorem clearPresent_upperPresent (s : State) : (clearPresent s).upperPresent = 0 := rfl

@[simp] theorem setListCursor_listCursor (k : Nat) (s : State) : (setListCursor k s).listCursor = k := rfl

@[simp] theorem setDirCursor_dirCursor (k : Option Nat) (s : State) : (setDirCursor k s).dirCursor = k := rfl

@[simp] theorem complete_session (s : State) : (complete s).session = .idle := rfl

/-! ## Presence bits -/

/-- Writing bit `n` of a mask writes that bit and no other. -/
theorem maskWithBit_getLsbD (m : Mask) (n i : Nat) (bit : Bool) (h : n < 256) :
    (maskWithBit m n bit).getLsbD i = if i = n then bit else m.getLsbD i := by
  by_cases hi : i < 256
  · by_cases e : i = n
    · subst e
      cases bit <;> simp [maskWithBit, hi]
    · cases bit
      · simp only [maskWithBit]
        simp [e, hi]
        intro _
        omega
      · simp only [maskWithBit]
        simp [e, hi]
        intro hni
        omega
  · have e : i ≠ n := by omega
    have h1 : (maskWithBit m n bit).getLsbD i = false := BitVec.getLsbD_of_ge _ _ (by omega)
    have h2 : m.getLsbD i = false := BitVec.getLsbD_of_ge _ _ (by omega)
    simp [e, h1, h2]

/-- Equal configurations and active banks have equal windows. -/
theorem activeIndex_congr {s t : State} (hc : t.cfg = s.cfg) (ha : t.activeBank = s.activeBank) :
    activeIndex t = activeIndex s := by
  unfold activeIndex
  rw [hc, ha]

theorem activeIndex_lt {s : State} {n : Nat} (h : activeIndex s = some n) : n < s.cfg.n := by
  unfold activeIndex at h
  split at h
  · simp at h
  · split at h
    · rename_i hlt
      have : _ = n := Option.some.inj h
      omega
    · simp at h

/-! ## Loads -/

theorem loadWrites_fst (c : Config) (img : Image) : (loadWrites c img).map Prod.fst = List.range c.romSize := by
  simp [loadWrites, Function.comp_def]

theorem mem_loadWrites {c : Config} {img : Image} {x : Nat × Byte} :
    x ∈ loadWrites c img ↔ x.1 < c.romSize ∧ x.2 = imageByte img x.1 := by
  obtain ⟨a, v⟩ := x
  simp only [loadWrites, List.mem_map, List.mem_range, Prod.mk.injEq]
  constructor
  · rintro ⟨b, hb, rfl, rfl⟩
    exact ⟨hb, rfl⟩
  · rintro ⟨ha, rfl⟩
    exact ⟨a, ha, rfl, rfl⟩

/-- The writes of a load put the image in place and change no byte outside it. -/
theorem loadWrites_loaded {sel : ImgSel} {img : Image} {s : State} (w : Memory.wf s.mem = true) :
    Loaded sel img s (imgWrites sel (loadWrites s.cfg img) s) := by
  constructor
  · intro i hi
    have nodup : ((loadWrites s.cfg img).map Prod.fst).Nodup := by
      rw [loadWrites_fst]
      exact List.nodup_range
    have := imgWrites_read_mem (sel := sel) w nodup (x := (i, imageByte img i)) (mem_loadWrites.2 ⟨hi, rfl⟩)
    simpa [imgRead] using this
  · intro a ha
    refine imgWrites_read_other fun x hx e => ha ⟨x.1, (mem_loadWrites.1 hx).1, e.symm⟩

theorem loadUpper_wf {n : Nat} {img : Image} {s : State} (w : Memory.wf s.mem = true) :
    Memory.wf (loadUpper n img s).mem = true := by
  rw [loadUpper, setPresent_mem]
  exact imgWrites_wf w

theorem loadBroken_wf {n : Nat} {img : Image} {bit : Bool} {s : State} (w : Memory.wf s.mem = true) :
    Memory.wf (loadBroken n img bit s).mem = true := by
  rw [loadBroken, setPresent_mem]
  exact imgWrites_wf w

theorem loadLower_wf {img : Image} {s : State} (w : Memory.wf s.mem = true) :
    Memory.wf (loadLower img s).mem = true := imgWrites_wf w

@[simp] theorem loadUpper_upperPresent (n : Nat) (img : Image) (s : State) :
    (loadUpper n img s).upperPresent = maskWithBit s.upperPresent n true := by
  simp [loadUpper]

@[simp] theorem loadBroken_upperPresent (n : Nat) (img : Image) (bit : Bool) (s : State) :
    (loadBroken n img bit s).upperPresent = maskWithBit s.upperPresent n bit := by
  simp [loadBroken]

@[simp] theorem unloadUpper_upperPresent (n : Nat) (s : State) :
    (unloadUpper n s).upperPresent = maskWithBit s.upperPresent n false := rfl

/-- What `load_upper` does to memory (R102). -/
theorem loadUpper_loaded {n : Nat} {img : Image} {s : State} (w : Memory.wf s.mem = true) :
    Loaded (.upper n) img s (loadUpper n img s) := loadWrites_loaded w

/-- What `load_lower` does to memory (R104). -/
theorem loadLower_loaded {img : Image} {s : State} (w : Memory.wf s.mem = true) :
    Loaded .lower img s (loadLower img s) := loadWrites_loaded w

/-! ## The response -/

theorem windowWrites_fst (c : Config) (st : Status) (kind : Kind) (text : List Byte) (fill : Nat → Byte) :
    (windowWrites c st kind text fill).map Prod.fst =
      (c.respOffset + 1) :: (c.respOffset + 2) :: (List.range (c.respSize - 3)).map fun i => c.respOffset + 3 + i := by
  simp [windowWrites, Function.comp_def]

theorem windowWrites_nodup (c : Config) (st : Status) (kind : Kind) (text : List Byte) (fill : Nat → Byte) :
    ((windowWrites c st kind text fill).map Prod.fst).Nodup := by
  rw [windowWrites_fst]
  refine List.nodup_cons.2 ⟨?_, List.nodup_cons.2 ⟨?_, ?_⟩⟩
  · simp only [List.mem_cons, List.mem_map, List.mem_range, not_or, not_exists, not_and]
    exact ⟨by omega, fun x _ => by omega⟩
  · simp only [List.mem_map, List.mem_range, not_exists, not_and]
    exact fun x _ => by omega
  · exact List.Nodup.map (fun a b e => by simpa using e) List.nodup_range

/-- Where a window write goes: above the sequence byte, inside the window. -/
theorem windowWrites_offset {c : Config} {st : Status} {kind : Kind} {text : List Byte} {fill : Nat → Byte}
    {x : Nat × Byte} (hs : 3 ≤ c.respSize) (hx : x ∈ windowWrites c st kind text fill) :
    ∃ i, 0 < i ∧ i < c.respSize ∧ x.1 = c.respOffset + i := by
  have h : x.1 ∈ (windowWrites c st kind text fill).map Prod.fst := List.mem_map_of_mem hx
  rw [windowWrites_fst] at h
  simp only [List.mem_cons, List.mem_map, List.mem_range] at h
  rcases h with h | h | ⟨i, hi, h⟩
  · exact ⟨1, by omega, by omega, h⟩
  · exact ⟨2, by omega, by omega, h⟩
  · exact ⟨3 + i, by omega, by omega, by omega⟩

theorem bumpSeq_mem (n : Nat) (s : State) :
    (bumpSeq n s).mem =
      Memory.write s.mem (imgAddr s.cfg (.upper n) s.cfg.respOffset) (imgRead (.upper n) s.cfg.respOffset s + 1) :=
  rfl

theorem respondIn_wf {n : Nat} {st : Status} {kind : Kind} {text : List Byte} {fill : Nat → Byte} {s : State}
    (w : Memory.wf s.mem = true) : Memory.wf (respondIn n st kind text fill s).mem = true :=
  Memory.wf_write (imgWrites_wf w)

/-- A response keeps the canonical form of memory. -/
theorem respond_wf {st : Status} {kind : Kind} {text : List Byte} {s : State} (w : Memory.wf s.mem = true) :
    Memory.wf (respond st kind text s).mem = true := by
  unfold respond
  split
  · exact w
  · simpa using respondIn_wf w

/-- The window bytes above the sequence byte after a response. -/
theorem respondIn_window {n : Nat} {st : Status} {kind : Kind} {text : List Byte} {fill : Nat → Byte} {s : State}
    (w : Memory.wf s.mem = true) {x : Nat × Byte} (hs : 3 ≤ s.cfg.respSize)
    (hx : x ∈ windowWrites s.cfg st kind text fill) :
    imgRead (.upper n) x.1 (respondIn n st kind text fill s) = x.2 := by
  obtain ⟨i, h0, _, hi⟩ := windowWrites_offset hs hx
  have hne : imgAddr s.cfg (.upper n) s.cfg.respOffset ≠ imgAddr s.cfg (.upper n) x.1 := by
    simp only [ne_eq, imgAddr_inj]
    omega
  have := imgWrites_read_mem (sel := .upper n) w (windowWrites_nodup _ _ _ _ _) hx
  rw [imgRead_mem, respondIn, bumpSeq_mem]
  simp only [imgWrites_cfg, bumpSeq_cfg]
  rw [Memory.read_write_other hne]
  exact this

theorem respondIn_seq {n : Nat} {st : Status} {kind : Kind} {text : List Byte} {fill : Nat → Byte} {s : State}
    (w : Memory.wf s.mem = true) (hs : 3 ≤ s.cfg.respSize) :
    windowByte n 0 (respondIn n st kind text fill s) = windowByte n 0 s + 1 := by
  have hold : Memory.read (imgWrites (.upper n) (windowWrites s.cfg st kind text fill) s).mem
      (imgAddr s.cfg (.upper n) s.cfg.respOffset) = Memory.read s.mem (imgAddr s.cfg (.upper n) s.cfg.respOffset) := by
    refine imgWrites_read_other fun x hx => ?_
    obtain ⟨i, h0, _, hi⟩ := windowWrites_offset hs hx
    simp only [ne_eq, imgAddr_inj]
    omega
  unfold windowByte
  rw [imgRead_mem, respondIn, bumpSeq_mem]
  simp only [imgWrites_cfg, bumpSeq_cfg, Nat.add_zero]
  rw [Memory.read_write_same (imgWrites_wf w), imgRead_mem]
  simp only [imgWrites_cfg]
  rw [hold]
  rfl

/-- A response changes no byte outside the window. -/
theorem respondIn_other {n : Nat} {st : Status} {kind : Kind} {text : List Byte} {fill : Nat → Byte} {s : State}
    (hs : 3 ≤ s.cfg.respSize) {a : Nat} (ha : ¬ windowAddr s.cfg n a) :
    Memory.read (respondIn n st kind text fill s).mem a = Memory.read s.mem a := by
  have h0 : imgAddr s.cfg (.upper n) s.cfg.respOffset ≠ a := fun e => ha ⟨0, by omega, by simpa using e.symm⟩
  rw [respondIn, bumpSeq_mem]
  simp only [imgWrites_cfg]
  rw [Memory.read_write_other h0]
  refine imgWrites_read_other fun x hx e => ha ?_
  obtain ⟨i, _, hi, hx1⟩ := windowWrites_offset hs hx
  exact ⟨i, hi, by rw [← e, hx1]⟩

theorem mem_windowWrites_payload {c : Config} {st : Status} {kind : Kind} {text : List Byte} {fill : Nat → Byte}
    {i : Nat} (h : i < c.respSize - 3) :
    (c.respOffset + 3 + i, payloadByte c kind text fill i) ∈ windowWrites c st kind text fill := by
  simp only [windowWrites, List.mem_cons, List.mem_map, List.mem_range]
  exact .inr (.inr ⟨i, h, rfl⟩)

/-- What `Respond` does (R108 to R111). -/
theorem respond_responded {st : Status} {kind : Kind} {text : List Byte} {s : State} (w : Memory.wf s.mem = true)
    (hs : 5 ≤ s.cfg.respSize) : Responded st kind text s (respond st kind text s) := by
  unfold Responded
  cases hn : activeIndex s with
  | none => simp [respond, hn]
  | some n =>
    have e : respond st kind text s = drawn (respondIn n st kind text (Config.freeByte s.draws) s) := by
      simp [respond, hn]
    have lift : ∀ i, windowByte n i (respond st kind text s) =
        windowByte n i (respondIn n st kind text (Config.freeByte s.draws) s) := fun i => by rw [e]; rfl
    have pay : ∀ i, i < s.cfg.respSize - 3 → windowByte n (3 + i) (respond st kind text s) =
        payloadByte s.cfg kind text (Config.freeByte s.draws) i := fun i hi => by
      rw [lift]
      have := respondIn_window (n := n) w (by omega) (mem_windowWrites_payload (st := st) (kind := kind)
        (text := text) (fill := Config.freeByte s.draws) hi)
      simpa [windowByte, Nat.add_assoc] using this
    refine ⟨?_, ?_, ?_, ?_, ?_⟩
    · rw [lift]
      exact respondIn_seq w (by omega)
    · rw [lift]
      have := respondIn_window (n := n) (st := st) (kind := kind) (text := text) (fill := Config.freeByte s.draws) w
        (x := (s.cfg.respOffset + 1, statusByte s.cfg st)) (by omega) (by simp [windowWrites])
      cases st <;> simpa [windowByte, statusByte] using this
    · rw [lift]
      have := respondIn_window (n := n) (st := st) (kind := kind) (text := text) (fill := Config.freeByte s.draws) w
        (x := (s.cfg.respOffset + 2, kindByte kind)) (by omega) (by simp [windowWrites])
      cases kind <;> simpa [windowByte, kindByte] using this
    · intro hk
      subst hk
      have hlen : (text.take s.cfg.payloadMax).length ≤ s.cfg.respSize - 4 := by
        simp [Config.payloadMax]
      constructor
      · intro i hi
        simp only [respond_cfg] at hi ⊢
        rw [pay i (by omega)]
        simp only [payloadByte]
        rw [if_pos hi]
      · simp only [respond_cfg]
        rw [pay _ (by omega)]
        simp [payloadByte]
    · intro a ha
      rw [e, drawn_mem]
      exact respondIn_other (by omega) ha

/-- Image writes write image memory and nothing else. -/
theorem imgWrites_frame (sel : ImgSel) (ws : List (Nat × Byte)) (s : State) :
    imgWrites sel ws s = { s with mem := (imgWrites sel ws s).mem } := by
  induction ws generalizing s with
  | nil => rfl
  | cons w ws ih =>
    rw [imgWrites, ih]
    rfl

/-- A load writes image memory and the presence bit of its bank. -/
theorem loadUpper_frame (n : Nat) (img : Image) (s : State) :
    loadUpper n img s = { s with mem := (loadUpper n img s).mem, upperPresent := maskWithBit s.upperPresent n true } := by
  simp only [loadUpper]
  rw [imgWrites_frame]
  rfl

theorem loadBroken_frame (n : Nat) (img : Image) (bit : Bool) (s : State) :
    loadBroken n img bit s =
      { s with mem := (loadBroken n img bit s).mem, upperPresent := maskWithBit s.upperPresent n bit } := by
  simp only [loadBroken]
  rw [imgWrites_frame]
  rfl

/-- `AssertReset` from a released line: the line, one edge, and the host's read cycle cut short. -/
theorem assertReset_frame {s : State} (h : s.hostReset = .released) :
    assertReset s = { s with
      hostReset := .asserted, romEnable := false, cycle := cycleCut s.cycle, trace := .resetEdge .asserted :: s.trace } := by
  simp [assertReset, driveReset, cutShort, h, observe]

/-- `ReleaseReset` from an asserted line: the line and one edge. -/
theorem releaseReset_frame {s : State} (h : s.hostReset = .asserted) :
    releaseReset s = { s with hostReset := .released, trace := .resetEdge .released :: s.trace } := by
  simp [releaseReset, driveReset, h, observe]

theorem respondIn_frame (n : Nat) (st : Status) (kind : Kind) (text : List Byte) (fill : Nat → Byte) (s : State) :
    respondIn n st kind text fill s = { s with mem := (respondIn n st kind text fill s).mem } := by
  simp only [respondIn, bumpSeq, imgWrite]
  rw [imgWrites_frame]

/-- A response writes image memory and takes a draw, and nothing else. -/
theorem respond_frame (st : Status) (kind : Kind) (text : List Byte) (s : State) :
    respond st kind text s =
      { s with mem := (respond st kind text s).mem, draws := (respond st kind text s).draws } := by
  unfold respond
  split
  · rfl
  · rw [respondIn_frame]
    rfl

/-- Completing a command does not disturb the response. -/
theorem responded_complete {st : Status} {kind : Kind} {text : List Byte} {s t : State}
    (h : Responded st kind text s t) : Responded st kind text s (complete t) := h

/-- `Responded` looks only at the configuration, the active bank and the memory. -/
theorem responded_congr {st : Status} {kind : Kind} {text : List Byte} {s s' t t' : State} (hc : s'.cfg = s.cfg)
    (ha : s'.activeBank = s.activeBank) (hm : s'.mem = s.mem) (tc : t'.cfg = t.cfg) (tm : t'.mem = t.mem)
    (h : Responded st kind text s t) : Responded st kind text s' t' := by
  unfold Responded at h ⊢
  rw [activeIndex_congr hc ha]
  cases hn : activeIndex s with
  | none => simp only [hn] at h ⊢; rw [tm, hm, h]
  | some n =>
    simp only [hn] at h ⊢
    simp only [windowByte, imgRead, payloadIs, hc, hm, tc, tm] at h ⊢
    exact h

end Sys2Proof.Machine
end

