-- ==== Sys2Proof/Laws/Banks.lean ====
section
/-!
SUPPORT. What the replacement of the bank set does (R194): images of different banks do not overlap, and a list of
loads puts each image in its own place.
-/

namespace Sys2Proof.Machine

/-- Different image bytes have different addresses. -/
theorem imgAddr_upper_eq {c : Config} {n m a b : Nat} (ha : a < c.romSize) (hb : b < c.romSize)
    (h : imgAddr c (.upper n) a = imgAddr c (.upper m) b) : n = m ∧ a = b := by
  simp only [imgAddr] at h
  have hd := congrArg (· / c.romSize) h
  have hpos : 0 < c.romSize := by omega
  simp only [Nat.mul_comm _ c.romSize, Nat.mul_add_div hpos, Nat.div_eq_of_lt ha, Nat.div_eq_of_lt hb] at hd
  have hnm : n = m := by omega
  subst hnm
  exact ⟨rfl, by omega⟩

/-- The lower image lies below every bank. -/
theorem imgAddr_lower_ne {c : Config} {n a b : Nat} (ha : a < c.romSize) :
    imgAddr c .lower a ≠ imgAddr c (.upper n) b := by
  have : c.romSize ≤ (n + 1) * c.romSize := Nat.le_mul_of_pos_left _ (by omega)
  simp only [imgAddr]
  omega

/-- Every image byte lies inside image memory. -/
theorem imgAddr_upper_lt {c : Config} {n a : Nat} (hn : n < c.n) (ha : a < c.romSize) :
    imgAddr c (.upper n) a < imageBytes c := by
  have h : (n + 1) * c.romSize + c.romSize ≤ (c.n + 1) * c.romSize := by
    rw [← Nat.succ_mul]
    exact Nat.mul_le_mul_right _ (by omega)
  simp only [imgAddr, imageBytes]
  omega

theorem imgAddr_lower_lt {c : Config} {a : Nat} (ha : a < c.romSize) : imgAddr c .lower a < imageBytes c := by
  have h : c.romSize ≤ (c.n + 1) * c.romSize := Nat.le_mul_of_pos_left _ (by omega)
  simp only [imgAddr, imageBytes]
  omega

/-- The byte of one bank is left alone by a load of another. -/
theorem loadUpper_read_other {n m off : Nat} {img : Image} {s : State} (w : Memory.wf s.mem = true)
    (ho : off < s.cfg.romSize) (h : m ≠ n) :
    imgRead (.upper m) off (loadUpper n img s) = imgRead (.upper m) off s := by
  have := (loadUpper_loaded (n := n) (img := img) w).2 (imgAddr s.cfg (.upper m) off) fun ⟨i, hi, e⟩ =>
    h (imgAddr_upper_eq ho hi e).1
  simpa [imgRead] using this

theorem loadUpper_read_same {n off : Nat} {img : Image} {s : State} (w : Memory.wf s.mem = true)
    (ho : off < s.cfg.romSize) : imgRead (.upper n) off (loadUpper n img s) = imageByte img off :=
  (loadUpper_loaded w).1 off ho

theorem loadBanks_frame (set : BankSet) (ns : List Nat) (s : State) :
    loadBanks set ns s =
      { s with mem := (loadBanks set ns s).mem, upperPresent := (loadBanks set ns s).upperPresent } := by
  induction ns generalizing s with
  | nil => rfl
  | cons n ns ih =>
    simp only [loadBanks]
    split
    · exact ih s
    · rw [ih, loadUpper_frame]

@[simp] theorem loadBanks_cfg (set : BankSet) (ns : List Nat) (s : State) : (loadBanks set ns s).cfg = s.cfg := by
  rw [loadBanks_frame]

theorem loadBanks_wf {set : BankSet} {ns : List Nat} {s : State} (w : Memory.wf s.mem = true) :
    Memory.wf (loadBanks set ns s).mem = true := by
  induction ns generalizing s with
  | nil => exact w
  | cons n ns ih =>
    simp only [loadBanks]
    split
    · exact ih w
    · exact ih (loadUpper_wf w)

/-- A list of loads makes present the banks it loads, and no other. -/
theorem loadBanks_present {set : BankSet} {ns : List Nat} {s : State} (h : ∀ n ∈ ns, n < 256) (j : Nat) :
    (loadBanks set ns s).upperPresent.getLsbD j =
      if j ∈ ns ∧ (bankSetImage set j).isSome = true then true else s.upperPresent.getLsbD j := by
  induction ns generalizing s with
  | nil => simp [loadBanks]
  | cons n ns ih =>
    have ih' := fun s => ih (s := s) fun m hm => h m (List.mem_cons_of_mem _ hm)
    have hn := h n List.mem_cons_self
    simp only [loadBanks]
    split
    · rename_i hnone
      rw [ih']
      by_cases e : j = n
      · subst e
        simp [hnone]
      · simp [e]
    · rename_i img hsome
      rw [ih', loadUpper_upperPresent, maskWithBit_getLsbD _ _ _ _ hn]
      by_cases e : j = n
      · subst e
        simp [hsome]
      · simp [e]

/-- A list of loads of different banks puts each image in its own bank. -/
theorem loadBanks_read {set : BankSet} {ns : List Nat} {s : State} (w : Memory.wf s.mem = true) (nodup : ns.Nodup)
    {j off : Nat} (ho : off < s.cfg.romSize) :
    imgRead (.upper j) off (loadBanks set ns s) =
      match bankSetImage set j with
      | none => imgRead (.upper j) off s
      | some img => if j ∈ ns then imageByte img off else imgRead (.upper j) off s := by
  induction ns generalizing s with
  | nil => cases bankSetImage set j <;> simp [loadBanks]
  | cons n ns ih =>
    obtain ⟨hn, nodup'⟩ := List.nodup_cons.1 nodup
    simp only [loadBanks]
    split
    · rename_i hnone
      rw [ih w nodup' ho]
      by_cases e : j = n
      · subst e
        simp [hnone]
      · simp [e]
    · rename_i img hsome
      rw [ih (loadUpper_wf w) nodup' (by simpa using ho)]
      by_cases e : j = n
      · subst e
        simp [hsome, hn, loadUpper_read_same w ho]
      · simp [e, loadUpper_read_other w ho e]

/-- A list of loads changes no byte outside the banks it names. -/
theorem loadBanks_other {set : BankSet} {ns : List Nat} {s : State} (w : Memory.wf s.mem = true) {a : Nat}
    (h : ∀ n ∈ ns, ¬ imageAddr s.cfg (.upper n) a) :
    Memory.read (loadBanks set ns s).mem a = Memory.read s.mem a := by
  induction ns generalizing s with
  | nil => rfl
  | cons n ns ih =>
    have h' : ∀ m ∈ ns, ¬ imageAddr s.cfg (.upper m) a := fun m hm => h m (List.mem_cons_of_mem _ hm)
    simp only [loadBanks]
    split
    · exact ih w h'
    · rw [ih (loadUpper_wf w) (by simpa using h')]
      exact (loadUpper_loaded w).2 a (h n List.mem_cons_self)

theorem loadLowerOpt_frame (o : Option Image) (s : State) :
    loadLowerOpt o s = { s with mem := (loadLowerOpt o s).mem } := by
  cases o with
  | none => rfl
  | some img => exact imgWrites_frame _ _ _

theorem loadLowerOpt_wf {o : Option Image} {s : State} (w : Memory.wf s.mem = true) :
    Memory.wf (loadLowerOpt o s).mem = true := by
  cases o with
  | none => exact w
  | some img => exact loadLower_wf w

/-- The lower image replaced, if there is one to load (R195 (c)). -/
theorem loadLowerOpt_read {o : Option Image} {s : State} (w : Memory.wf s.mem = true) {off : Nat}
    (ho : off < s.cfg.romSize) :
    imgRead .lower off (loadLowerOpt o s) =
      match o with
      | none => imgRead .lower off s
      | some img => imageByte img off := by
  cases o with
  | none => rfl
  | some img => exact (loadLower_loaded w).1 off ho

theorem loadLowerOpt_other {o : Option Image} {s : State} (w : Memory.wf s.mem = true) {a : Nat}
    (h : ¬ imageAddr s.cfg .lower a) : Memory.read (loadLowerOpt o s).mem a = Memory.read s.mem a := by
  cases o with
  | none => rfl
  | some img => exact (loadLower_loaded w).2 a h

/-- The replacement of the bank set writes images and presence bits, and nothing else. -/
theorem replaceBanks_frame (set : BankSet) (s : State) :
    replaceBanks set s =
      { s with mem := (replaceBanks set s).mem, upperPresent := (replaceBanks set s).upperPresent } := by
  simp only [replaceBanks]
  rw [loadBanks_frame, loadLowerOpt_frame]
  rfl

theorem replaceBanks_wf {set : BankSet} {s : State} (w : Memory.wf s.mem = true) :
    Memory.wf (replaceBanks set s).mem = true :=
  loadBanks_wf (loadLowerOpt_wf (s := clearPresent s) w)

end Sys2Proof.Machine
end

