-- ==== Sys2Proof/Laws/Exec.lean ====
section
/-!
SUPPORT. What a command can write, said once for every named operation, every meaning and every micro-step: never
the configuration, the storage, the active bank, the bus, the queue, the marks or the schedule (R47, R151), and of
the host's inputs no more than cutting its read cycle short (R264). And that every meaning answers a next state.
-/

namespace Sys2Proof.Machine

/-- From `s` to `t` nothing a command may not write has changed. -/
structure CommandKeeps (s t : State) : Prop where
  cfg : t.cfg = s.cfg
  storage : t.storage = s.storage
  activeBank : t.activeBank = s.activeBank
  dbusOut : t.dbusOut = s.dbusOut
  region : t.region = s.region
  addr : t.addr = s.addr
  latchQ : t.latchQ = s.latchQ
  marks : t.marks = s.marks
  sched : t.sched = s.sched
  host : (t.romEnable = s.romEnable ∧ t.cycle = s.cycle) ∨ (t.romEnable = false ∧ t.cycle = cycleCut s.cycle)
  held : t.hostReset = .asserted → s.hostReset = .asserted ∨ t.romEnable = false

/-- An operation that leaves every field a command may not write. -/
theorem CommandKeeps.ofEq {s t : State} (cfg : t.cfg = s.cfg) (storage : t.storage = s.storage)
    (activeBank : t.activeBank = s.activeBank) (dbusOut : t.dbusOut = s.dbusOut) (region : t.region = s.region)
    (addr : t.addr = s.addr) (latchQ : t.latchQ = s.latchQ) (marks : t.marks = s.marks) (sched : t.sched = s.sched)
    (romEnable : t.romEnable = s.romEnable) (cycle : t.cycle = s.cycle) (line : t.hostReset = s.hostReset) :
    CommandKeeps s t :=
  ⟨cfg, storage, activeBank, dbusOut, region, addr, latchQ, marks, sched, .inl ⟨romEnable, cycle⟩,
    fun h => .inl (line ▸ h)⟩

theorem CommandKeeps.refl (s : State) : CommandKeeps s s := by apply CommandKeeps.ofEq <;> rfl

theorem CommandKeeps.trans {s t u : State} (h : CommandKeeps s t) (k : CommandKeeps t u) : CommandKeeps s u := by
  constructor
  · rw [k.cfg, h.cfg]
  · rw [k.storage, h.storage]
  · rw [k.activeBank, h.activeBank]
  · rw [k.dbusOut, h.dbusOut]
  · rw [k.region, h.region]
  · rw [k.addr, h.addr]
  · rw [k.latchQ, h.latchQ]
  · rw [k.marks, h.marks]
  · rw [k.sched, h.sched]
  · rcases k.host with ⟨e, c⟩ | e
    · rw [e, c]
      exact h.host
    · rcases h.host with h | h
      · exact .inr ⟨e.1, by rw [e.2, h.2]⟩
      · exact .inr ⟨e.1, by rw [e.2, h.2, cycleCut_cut]⟩
  · intro e
    rcases k.held e with e | e
    · rcases h.held e with e | e
      · exact .inl e
      · rcases k.host with k | k
        · exact .inr (k.1.trans e)
        · exact .inr k.1
    · exact .inr e

theorem CommandKeeps.session {s t : State} (h : CommandKeeps s t) (v : Session) :
    CommandKeeps s { t with session := v } := ⟨h.1, h.2, h.3, h.4, h.5, h.6, h.7, h.8, h.9, h.10, h.11⟩

/-! ## The named operations -/

theorem imgWrite_keeps (sel : ImgSel) (o : Nat) (v : Byte) (s : State) : CommandKeeps s (imgWrite sel o v s) := by
  apply CommandKeeps.ofEq <;> rfl

theorem imgWrites_keeps (sel : ImgSel) (ws : List (Nat × Byte)) (s : State) :
    CommandKeeps s (imgWrites sel ws s) := by
  apply CommandKeeps.ofEq <;> simp

theorem drawn_keeps (s : State) : CommandKeeps s (drawn s) := by apply CommandKeeps.ofEq <;> rfl

theorem answered_keeps (s : State) : CommandKeeps s (answered s) := by apply CommandKeeps.ofEq <;> rfl

theorem setPresent_keeps (n : Nat) (bit : Bool) (s : State) : CommandKeeps s (setPresent n bit s) := by
  apply CommandKeeps.ofEq <;> rfl

theorem clearPresent_keeps (s : State) : CommandKeeps s (clearPresent s) := by apply CommandKeeps.ofEq <;> rfl

theorem setListCursor_keeps (k : Nat) (s : State) : CommandKeeps s (setListCursor k s) := by apply CommandKeeps.ofEq <;> rfl

theorem setDirCursor_keeps (k : Option Nat) (s : State) : CommandKeeps s (setDirCursor k s) := by
  apply CommandKeeps.ofEq <;> rfl

theorem setLed_keeps (l : Led) (s : State) : CommandKeeps s (setLed l s) := by apply CommandKeeps.ofEq <;> simp

theorem assertReset_keeps (s : State) : CommandKeeps s (assertReset s) := by constructor <;> simp

theorem releaseReset_keeps (s : State) : CommandKeeps s (releaseReset s) := by constructor <;> simp

theorem complete_keeps (s : State) : CommandKeeps s (complete s) := by apply CommandKeeps.ofEq <;> rfl

theorem bumpSeq_keeps (n : Nat) (s : State) : CommandKeeps s (bumpSeq n s) := by apply CommandKeeps.ofEq <;> rfl

theorem loadUpper_keeps (n : Nat) (img : Image) (s : State) : CommandKeeps s (loadUpper n img s) := by
  apply CommandKeeps.ofEq <;> simp

theorem loadBroken_keeps (n : Nat) (img : Image) (bit : Bool) (s : State) :
    CommandKeeps s (loadBroken n img bit s) := by
  apply CommandKeeps.ofEq <;> simp

theorem unloadUpper_keeps (n : Nat) (s : State) : CommandKeeps s (unloadUpper n s) := by apply CommandKeeps.ofEq <;> rfl

theorem respond_keeps (st : Status) (kind : Kind) (text : List Byte) (s : State) :
    CommandKeeps s (respond st kind text s) := by
  apply CommandKeeps.ofEq <;> simp

theorem raiseError_keeps (e : Cause) (s : State) : CommandKeeps s (raiseError e s) := respond_keeps _ _ _ _

theorem replaceBanks_keeps (set : BankSet) (s : State) : CommandKeeps s (replaceBanks set s) := by
  rw [replaceBanks_frame]
  apply CommandKeeps.ofEq <;> rfl

/-! ## The commands -/

theorem dirLine_keeps (k : Nat) (s : State) : CommandKeeps s (dirLine k s) := by
  refine (answered_keeps s).trans ?_
  unfold dirLine dirOn
  cases dirEntry k s with
  | fail => exact (setDirCursor_keeps _ _).trans (raiseError_keeps _ _)
  | endOfDir => exact (setDirCursor_keeps _ _).trans (respond_keeps _ _ _ _)
  | entry name size => exact (setDirCursor_keeps _ _).trans (respond_keeps _ _ _ _)

theorem dirNext_keeps (s : State) : CommandKeeps s (dirNext s) := by
  unfold dirNext
  split
  · exact respond_keeps _ _ _ _
  · exact dirLine_keeps _ _

theorem romListFirst_keeps (s : State) : CommandKeeps s (romListFirst s) :=
  (setListCursor_keeps _ _).trans (respond_keeps _ _ _ _)

theorem romListNext_keeps (s : State) : CommandKeeps s (romListNext s) := by
  unfold romListNext
  split
  · exact respond_keeps _ _ _ _
  · split <;> exact (setListCursor_keeps _ _).trans (respond_keeps _ _ _ _)

theorem romIn_keeps (p0 : Byte) (path : List Byte) (s : State) : CommandKeeps s (romIn p0 path s) := by
  unfold romIn
  cases resolveBank s.cfg p0 with
  | none => exact raiseError_keeps _ _
  | some n =>
    refine (answered_keeps s).trans ?_
    unfold romInOn
    cases readRom path s with
    | fail => exact raiseError_keeps _ _
    | ok img =>
      exact (((assertReset_keeps _).trans (loadUpper_keeps _ _ _)).trans (releaseReset_keeps _)).trans
        (respond_keeps _ _ _ _)
    | broken img =>
      exact (((assertReset_keeps _).trans (loadBroken_keeps _ _ _ _)).trans (releaseReset_keeps _)).trans
        (raiseError_keeps _ _)

theorem romOut_keeps (p0 : Byte) (s : State) : CommandKeeps s (romOut p0 s) := by
  unfold romOut
  cases resolveBank s.cfg p0 with
  | none => exact raiseError_keeps _ _
  | some n =>
    exact (((assertReset_keeps _).trans (unloadUpper_keeps _ _)).trans (releaseReset_keeps _)).trans
      (respond_keeps _ _ _ _)

theorem failBracket_keeps (s : State) : CommandKeeps s (failBracket s) := by
  unfold failBracket
  split
  · exact (assertReset_keeps _).trans (releaseReset_keeps _)
  · exact .refl _

theorem cfgSet_keeps (name : List Byte) (s : State) : CommandKeeps s (cfgSet name s) := by
  refine (answered_keeps s).trans ?_
  unfold cfgSet cfgSetOn
  cases loadConfig name s with
  | fail => exact (failBracket_keeps _).trans (raiseError_keeps _ _)
  | ok set =>
    exact (((assertReset_keeps _).trans (replaceBanks_keeps _ _)).trans (releaseReset_keeps _)).trans
      (respond_keeps _ _ _ _)

theorem ledCmd_keeps (p0 : Byte) (s : State) : CommandKeeps s (ledCmd p0 s) :=
  ((drawn_keeps s).trans (setLed_keeps _ _)).trans (respond_keeps _ _ _ _)

/-! ## The meanings -/

/-- A command, whatever its bytes, keeps what no command writes, and answers a next state. -/
theorem exec_ofCmd_keeps (k : Cmd) (fixed buffer : List Byte) (s : State) :
    ∃ t, exec (.ofCmd k fixed buffer) s = .next t ∧ CommandKeeps s t := by
  cases k
  case dirFirst => exact ⟨_, rfl, (dirLine_keeps _ _).trans (complete_keeps _)⟩
  case dirNext => exact ⟨_, rfl, (dirNext_keeps _).trans (complete_keeps _)⟩
  case romListFirst => exact ⟨_, rfl, (romListFirst_keeps _).trans (complete_keeps _)⟩
  case romListNext => exact ⟨_, rfl, (romListNext_keeps _).trans (complete_keeps _)⟩
  case romIn => exact ⟨_, rfl, (romIn_keeps _ _ _).trans (complete_keeps _)⟩
  case romOut => exact ⟨_, rfl, (romOut_keeps _ _).trans (complete_keeps _)⟩
  case configSet => exact ⟨_, rfl, (cfgSet_keeps _ _).trans (complete_keeps _)⟩
  case led => exact ⟨_, rfl, (ledCmd_keeps _ _).trans (complete_keeps _)⟩
  case picoload => exact ⟨_, rfl, (assertReset_keeps _).session _⟩

/-- An instruction is a command, a bus sample, an idle byte or an unknown command. -/
theorem instr_cases (i : Instr) : (∃ k fixed buffer, i = .ofCmd k fixed buffer) ∨ i = .release ∨
    (∃ a, i = .rdL a) ∨ (∃ a, i = .rdU a) ∨ i = .pfx ∨ (∃ b, i = .ign b) ∨ (∃ b, i = .sel b) ∨ ∃ b, i = .unknown b := by
  cases i
  case dirFirst => exact .inl ⟨.dirFirst, [], [], rfl⟩
  case dirNext => exact .inl ⟨.dirNext, [], [], rfl⟩
  case romListFirst => exact .inl ⟨.romListFirst, [], [], rfl⟩
  case romListNext => exact .inl ⟨.romListNext, [], [], rfl⟩
  case romIn p0 path => exact .inl ⟨.romIn, [p0], path, rfl⟩
  case romOut p0 => exact .inl ⟨.romOut, [p0], [], rfl⟩
  case cfgSet name => exact .inl ⟨.configSet, [], name, rfl⟩
  case led p0 => exact .inl ⟨.led, [p0], [], rfl⟩
  case picoload => exact .inl ⟨.picoload, [], [], rfl⟩
  all_goals simp

/-- Every meaning answers a next state. -/
theorem exec_next (i : Instr) (s : State) : ∃ t, exec i s = .next t := by
  cases i <;> exact ⟨_, rfl⟩

/-! ## The micro-steps -/

theorem respondDrawn_keeps (s : State) : CommandKeeps s (respondDrawn s) := by
  unfold respondDrawn
  split
  · exact .refl _
  · exact drawn_keeps _

/-- An answered oracle call plans and writes nothing. -/
theorem runMicro_keeps (m : Micro) (todo : List Micro) (s : State) : CommandKeeps s (runMicro m todo s).2 := by
  cases m
  case callDir k =>
    refine (answered_keeps s).trans ?_
    simp only [runMicro, planDir]
    cases dirEntry k s <;> exact respondDrawn_keeps _
  case callRead n path =>
    refine (answered_keeps s).trans ?_
    simp only [runMicro, planRead]
    cases readRom path s <;> exact respondDrawn_keeps _
  case callConfig name =>
    refine (answered_keeps s).trans ?_
    simp only [runMicro, planConfig]
    cases loadConfig name s <;> exact respondDrawn_keeps _
  case assertReset => exact assertReset_keeps _
  case releaseReset => exact releaseReset_keeps _
  case write sel o v => exact imgWrite_keeps _ _ _ _
  case setPresent n bit => exact setPresent_keeps _ _ _
  case clearPresent => exact clearPresent_keeps _
  case setListCursor k => exact setListCursor_keeps _ _
  case setDirCursor k => exact setDirCursor_keeps _ _
  case setLed l => exact setLed_keeps _ _
  case bumpSeq n => exact bumpSeq_keeps _ _

theorem underWay_keeps (k : Cmd) (fixed buffer : List Byte) (p : Plan) :
    CommandKeeps p.2 (underWay k fixed buffer p) := by
  unfold underWay
  split <;> exact (CommandKeeps.refl _).session _

/-- A micro-step keeps what no command writes. -/
theorem microStep_keeps (k : Cmd) (fixed buffer : List Byte) (todo : List Micro) (s : State) :
    CommandKeeps s (microStep k fixed buffer todo s) := by
  unfold microStep
  split
  · exact (CommandKeeps.refl _).session _
  · exact (runMicro_keeps _ _ _).trans (underWay_keeps _ _ _ _)

theorem stepsOf_keeps (k : Cmd) (fixed buffer : List Byte) (s : State) :
    CommandKeeps s (stepsOf k fixed buffer s).2 := by
  cases k
  case dirFirst => exact .refl _
  case dirNext =>
    simp only [stepsOf]
    split
    · exact respondDrawn_keeps _
    · exact .refl _
  case romListFirst => exact respondDrawn_keeps _
  case romListNext =>
    simp only [stepsOf, planListNext]
    split
    · exact respondDrawn_keeps _
    · split <;> exact respondDrawn_keeps _
  case romIn =>
    simp only [stepsOf]
    split
    · exact respondDrawn_keeps _
    · exact .refl _
  case romOut =>
    simp only [stepsOf]
    split <;> exact respondDrawn_keeps _
  case configSet => exact .refl _
  case led => exact (drawn_keeps _).trans (respondDrawn_keeps _)
  case picoload => exact .refl _

/-- Starting a command plans it and writes nothing. -/
theorem startCmd_keeps (k : Cmd) (fixed buffer : List Byte) (s : State) :
    CommandKeeps s (startCmd k fixed buffer s) :=
  (stepsOf_keeps _ _ _ _).trans (underWay_keeps _ _ _ _)

end Sys2Proof.Machine
end

