-- ==== Sys2Proof/Laws/Step.lean ====
section
/-!
SUPPORT. What one step can do, said once for each agent: the engine writes the bus, Context B what a command
writes and the bank its select byte names, the host its own lines and the queue (R47, R50).
-/

namespace Sys2Proof.Machine

/-! ## The turn -/

/-- A step that answers a next state is the next turn of a machine with a well-formed configuration. -/
theorem step_next {s t : State} (h : step s = .next t) :
    s.cfg.wf = true ∧ runTurn (nextTurn s) (turnTaken s) = .next t := by
  change (if s.cfg.wf = true then _ else _) = _ at h
  split at h
  · exact ⟨‹_›, h⟩
  · cases h

theorem step_wf {s : State} (h : s.cfg.wf = true) : step s = runTurn (nextTurn s) (turnTaken s) := by
  change (if s.cfg.wf = true then _ else _) = _
  rw [if_pos h]

/-- With a turn decided, the step is that turn with the schedule moved on. -/
theorem step_sched {s : State} {turn : Turn} {rest : List Turn} (h : s.cfg.wf = true) (hs : s.sched = turn :: rest) :
    step s = runTurn turn { s with sched := rest } := by
  rw [step_wf h]
  simp only [nextTurn, turnTaken, hs]

/-- Taking the next turn off the schedule touches only the model's own fields. -/
theorem turnTaken_frame (s : State) :
    turnTaken s = { s with sched := (turnTaken s).sched, draws := (turnTaken s).draws } := by
  unfold turnTaken
  split <;> rfl

@[simp] theorem turnTaken_cfg (s : State) : (turnTaken s).cfg = s.cfg := by rw [turnTaken_frame]

@[simp] theorem turnTaken_storage (s : State) : (turnTaken s).storage = s.storage := by rw [turnTaken_frame]

@[simp] theorem turnTaken_mem (s : State) : (turnTaken s).mem = s.mem := by rw [turnTaken_frame]

@[simp] theorem turnTaken_upperPresent (s : State) : (turnTaken s).upperPresent = s.upperPresent := by
  rw [turnTaken_frame]

@[simp] theorem turnTaken_activeBank (s : State) : (turnTaken s).activeBank = s.activeBank := by
  rw [turnTaken_frame]

@[simp] theorem turnTaken_dbusOut (s : State) : (turnTaken s).dbusOut = s.dbusOut := by rw [turnTaken_frame]

@[simp] theorem turnTaken_session (s : State) : (turnTaken s).session = s.session := by rw [turnTaken_frame]

@[simp] theorem turnTaken_listCursor (s : State) : (turnTaken s).listCursor = s.listCursor := by
  rw [turnTaken_frame]

@[simp] theorem turnTaken_dirCursor (s : State) : (turnTaken s).dirCursor = s.dirCursor := by rw [turnTaken_frame]

@[simp] theorem turnTaken_hostReset (s : State) : (turnTaken s).hostReset = s.hostReset := by rw [turnTaken_frame]

@[simp] theorem turnTaken_led (s : State) : (turnTaken s).led = s.led := by rw [turnTaken_frame]

@[simp] theorem turnTaken_romEnable (s : State) : (turnTaken s).romEnable = s.romEnable := by rw [turnTaken_frame]

@[simp] theorem turnTaken_cycle (s : State) : (turnTaken s).cycle = s.cycle := by rw [turnTaken_frame]

@[simp] theorem turnTaken_addr (s : State) : (turnTaken s).addr = s.addr := by rw [turnTaken_frame]

@[simp] theorem turnTaken_latchQ (s : State) : (turnTaken s).latchQ = s.latchQ := by rw [turnTaken_frame]

@[simp] theorem turnTaken_marks (s : State) : (turnTaken s).marks = s.marks := by rw [turnTaken_frame]

@[simp] theorem turnTaken_trace (s : State) : (turnTaken s).trace = s.trace := by rw [turnTaken_frame]

/-! ## The engine -/

/-- Driving the bus writes the bus and, under reset, the mark of R237. -/
theorem driveBus_frame (out : DBus) (s : State) :
    driveBus out s = { s with
      dbusOut := (driveBus out s).dbusOut, marks := (driveBus out s).marks, draws := (driveBus out s).draws } := by
  unfold driveBus
  split <;> rfl

/-- With the line released the bus takes the value it is given. -/
theorem driveBus_released {out : DBus} {s : State} (h : s.hostReset = .released) :
    driveBus out s = { s with dbusOut := out } := by
  unfold driveBus
  rw [h]

theorem driveBus_marks (out : DBus) (s : State) :
    (driveBus out s).marks.latchOverflow = s.marks.latchOverflow ∧
      (s.marks.readUnderMutation = true → (driveBus out s).marks.readUnderMutation = true) := by
  unfold driveBus
  split
  · exact ⟨rfl, id⟩
  · exact ⟨rfl, fun _ => rfl⟩

/-- What the engine decodes: a release while the ROM is not enabled, else a read of the region (R71). -/
theorem decodeBus_opcode (enabled : Bool) (region : Region) (addr : Nat) :
    decodeBus (busOpcode enabled region) addr =
      if enabled = true then (if region = .upper then .rdU addr else .rdL addr) else .release := by
  cases enabled <;> cases region <;> rfl

/-- An engine iteration drives the bus or releases it, and the host's cycle has seen it. -/
theorem engineStep_cases (s : State) :
    engineStep s = .next { iterated s with dbusOut := .hiZ } ∨
      ∃ out, engineStep s = .next (driveBus out (iterated s)) := by
  unfold engineStep
  rw [decodeBus_opcode]
  split
  · split
    · exact .inr ⟨_, rfl⟩
    · exact .inr ⟨_, rfl⟩
  · exact .inl rfl

/-! ## Context B -/

/-- What Context B keeps in any step of its own, and what it does to the queue and the active bank. -/
structure ProtocolKeeps (s t : State) : Prop where
  cfg : t.cfg = s.cfg
  storage : t.storage = s.storage
  dbusOut : t.dbusOut = s.dbusOut
  region : t.region = s.region
  addr : t.addr = s.addr
  marks : t.marks = s.marks
  sched : t.sched = s.sched
  host : (t.romEnable = s.romEnable ∧ t.cycle = s.cycle) ∨ (t.romEnable = false ∧ t.cycle = cycleCut s.cycle)
  held : t.hostReset = .asserted → s.hostReset = .asserted ∨ t.romEnable = false
  activeBank : t.activeBank = s.activeBank ∨ s.session = .idle ∧ ∃ b q, s.latchQ = b :: q ∧
    b ≠ s.cfg.prefixByte ∧ s.cfg.legacyIgnored.contains b = false ∧
      t.activeBank = if present b.toNat s then .bank b.toNat else .noBank

theorem CommandKeeps.protocol {s t : State} {q : List Byte} (h : CommandKeeps { s with latchQ := q } t) :
    ProtocolKeeps s t := ⟨h.cfg, h.storage, h.dbusOut, h.region, h.addr, h.marks, h.sched, h.host, h.held, .inl h.activeBank⟩

theorem afterFixed_keeps (k : Cmd) (fixed : List Byte) (s : State) : CommandKeeps s (afterFixed k fixed s) := by
  unfold afterFixed
  split
  · exact (CommandKeeps.refl s).session _
  · exact startCmd_keeps _ _ _ _

theorem selected_keeps (k : Cmd) (s : State) : CommandKeeps s (selected k s) := by
  unfold selected
  split
  · exact (CommandKeeps.refl s).session _
  · exact afterFixed_keeps _ _ _

theorem collectByte_keeps (k : Cmd) (ph : Phase) (r : Nat) (fixed buffer : List Byte) (b : Byte) (s : State) :
    CommandKeeps s (collectByte k ph r fixed buffer b s) := by
  unfold collectByte
  cases ph
  · simp only
    split
    · exact (CommandKeeps.refl s).session _
    · exact afterFixed_keeps _ _ _
  · simp only
    split
    · exact startCmd_keeps _ _ _ _
    · exact (CommandKeeps.refl s).session _
  · simp only
    split
    · exact (CommandKeeps.refl s).session _
    · exact startCmd_keeps _ _ _ _

/-- What a byte does in `Idle`: open a command, nothing, or select a bank (R144). -/
theorem idleByte_keeps {s : State} {b : Byte} {q : List Byte} (hs : s.session = .idle) (hq : s.latchQ = b :: q) :
    ∃ t, exec (decodeIdle s.cfg b) { s with latchQ := q } = .next t ∧ ProtocolKeeps s t ∧ t.latchQ = q := by
  unfold decodeIdle
  split
  · exact ⟨_, rfl, ((CommandKeeps.refl _).session _).protocol, rfl⟩
  · split
    · exact ⟨_, rfl, (CommandKeeps.refl _).protocol, rfl⟩
    · exact ⟨_, rfl, ⟨rfl, rfl, rfl, rfl, rfl, rfl, rfl, .inl ⟨rfl, rfl⟩, .inl,
        .inr ⟨hs, b, q, hq, ‹_›, by simpa using ‹¬ s.cfg.legacyIgnored.contains b = true›, rfl⟩⟩, rfl⟩

/-- One step of Context B answers a next state and keeps what Context B does not write. -/
theorem protocolStep_keeps (s : State) :
    ∃ t, protocolStep s = .next t ∧ ProtocolKeeps s t ∧ (t.latchQ = s.latchQ ∨ t.latchQ = s.latchQ.tail) := by
  unfold protocolStep
  split
  · exact ⟨_, rfl, (microStep_keeps _ _ _ _ s).protocol (q := s.latchQ), .inl (microStep_keeps _ _ _ _ s).latchQ⟩
  · exact ⟨_, rfl, (CommandKeeps.refl s).protocol (q := s.latchQ), .inl rfl⟩
  · rename_i hs hq
    obtain ⟨t, h, hk, e⟩ := idleByte_keeps hs hq
    exact ⟨t, h, hk, .inr (by rw [e, hq]; rfl)⟩
  · rename_i b q hs hq
    unfold selectorByte
    split
    · exact ⟨_, rfl, ((CommandKeeps.refl _).session _).protocol, .inr (by rw [hq]; rfl)⟩
    · exact ⟨_, rfl, (selected_keeps _ _).protocol, .inr (by rw [(selected_keeps _ _).latchQ, hq]; rfl)⟩
  · rename_i k ph r fixed buffer b q hs hq
    exact ⟨_, rfl, (collectByte_keeps _ _ _ _ _ _ _).protocol,
      .inr (by rw [(collectByte_keeps _ _ _ _ _ _ _).latchQ, hq]; rfl)⟩
  · exact ⟨_, rfl, (CommandKeeps.refl s).protocol (q := s.latchQ), .inl rfl⟩
  · exact ⟨_, rfl, (CommandKeeps.refl s).protocol (q := s.latchQ), .inl rfl⟩
  · exact ⟨_, rfl, (CommandKeeps.refl s).protocol (q := s.latchQ), .inl rfl⟩

/-- Context B's step while it executes is a micro-step (R150). -/
theorem protocolStep_executing {s : State} {k : Cmd} {fixed buffer : List Byte} {todo : List Micro}
    (h : s.session = .executing k fixed buffer todo) :
    protocolStep s = .next (microStep k fixed buffer todo s) := by
  simp only [protocolStep, h]

/-- What the latch decoder reads: one byte that is no prefix, a lone prefix, a command, an unknown command. -/
theorem decode_cases {c : Config} {bytes rest : List Byte} {i : Instr} (h : decode c bytes = .instr i rest) :
    (∃ b, bytes = b :: rest ∧ b ≠ c.prefixByte ∧ i = decodeIdle c b) ∨ (bytes = [c.prefixByte] ∧ i = .pfx) ∨
      (∃ k fixed buffer, i = .ofCmd k fixed buffer) ∨ ∃ b, i = .unknown b := by
  cases bytes with
  | nil => cases h
  | cons b bs =>
    simp only [decode] at h
    split at h
    · rename_i hb
      cases bs with
      | nil =>
        cases h
        exact .inr (.inl ⟨by rw [hb], rfl⟩)
      | cons b' bs =>
        simp only [decodeCommand] at h
        split at h
        · cases h
          exact .inr (.inr (.inr ⟨_, rfl⟩))
        · simp only [decodeParams] at h
          split at h
          · cases h
          · split at h
            · unfold decodeString at h
              split at h
              · cases h
              · split at h
                · cases h
                · cases h
                  exact .inr (.inr (.inl ⟨_, _, _, rfl⟩))
            · cases h
              exact .inr (.inr (.inl ⟨_, _, _, rfl⟩))
    · rename_i hb
      cases h
      exact .inl ⟨b, rfl, hb, rfl⟩

/-- Context B's whole turn answers a next state and keeps what Context B does not write. -/
theorem protocolWhole_keeps (s : State) : ∃ t, protocolWhole s = .next t ∧ ProtocolKeeps s t := by
  have single : ∃ t, protocolStep s = .next t ∧ ProtocolKeeps s t :=
    (protocolStep_keeps s).imp fun _ h => ⟨h.1, h.2.1⟩
  unfold protocolWhole
  split
  · rename_i hs
    split
    · rename_i i rest hd
      rcases decode_cases hd with ⟨b, hq, _, rfl⟩ | ⟨hq, rfl⟩ | ⟨k, fixed, buffer, rfl⟩ | ⟨b, rfl⟩
      · obtain ⟨t, h, hk, _⟩ := idleByte_keeps hs hq
        exact ⟨t, h, hk⟩
      · exact ⟨_, rfl, ((CommandKeeps.refl _).session _).protocol⟩
      · obtain ⟨t, h, hk⟩ := exec_ofCmd_keeps k fixed buffer { s with latchQ := rest }
        exact ⟨t, h, hk.protocol⟩
      · exact ⟨_, rfl, ((CommandKeeps.refl _).session _).protocol⟩
    · exact single
  · exact single
  · exact single
  · exact single
  · exact single

/-! ## The host -/

/-- What an act of the host that answers a next state has done. -/
def HostDid (act : HostAct) (s t : State) : Prop :=
  match act with
  | .present region addr => addr < 2 ^ s.cfg.hostAddrBits ∧ t = hostPresent region addr s
  | .sample => t = hostSample s
  | .drop => t = hostDrop s
  | .latch b => t = hostLatch b s
  | .breach region addr => addr < 2 ^ s.cfg.hostAddrBits ∧ t = hostPresent region addr s

theorem presentStep_did {region : Region} {addr : Nat} {s t : State} (h : presentStep region addr s = .next t) :
    addr < 2 ^ s.cfg.hostAddrBits ∧ t = hostPresent region addr s := by
  unfold presentStep at h
  split at h
  · cases h
    exact ⟨‹_›, rfl⟩
  · cases h

theorem hostActs_did {act : HostAct} {s t : State} (h : hostActs act s = .next t) : HostDid act s t := by
  cases act
  case present => exact presentStep_did h
  case breach => exact presentStep_did h
  all_goals
    cases h
    rfl

/-! ## Any turn -/

/-- Everything a turn can do. -/
theorem runTurn_cases {turn : Turn} {s t : State} (h : runTurn turn s = .next t) :
    (turn = .engine ∧ (t = { iterated s with dbusOut := .hiZ } ∨ ∃ out, t = driveBus out (iterated s))) ∨
      ((turn = .protocol ∨ turn = .protocolWhole) ∧ ProtocolKeeps s t) ∨
      ∃ act, turn = .host act ∧ ((hostEnabled act s = false ∧ t = s) ∨ (hostEnabled act s = true ∧ HostDid act s t)) := by
  cases turn with
  | engine =>
    refine .inl ⟨rfl, ?_⟩
    rcases engineStep_cases s with e | ⟨out, e⟩
    · rw [runTurn, e] at h
      cases h
      exact .inl rfl
    · rw [runTurn, e] at h
      cases h
      exact .inr ⟨out, rfl⟩
  | protocol =>
    obtain ⟨u, e, hk, _⟩ := protocolStep_keeps s
    rw [runTurn, e] at h
    cases h
    exact .inr (.inl ⟨.inl rfl, hk⟩)
  | protocolWhole =>
    obtain ⟨u, e, hk⟩ := protocolWhole_keeps s
    rw [runTurn, e] at h
    cases h
    exact .inr (.inl ⟨.inr rfl, hk⟩)
  | host act =>
    refine .inr (.inr ⟨act, rfl, ?_⟩)
    rw [runTurn, hostStep] at h
    split at h
    · exact .inr ⟨‹_›, hostActs_did h⟩
    · cases h
      exact .inl ⟨Bool.eq_false_iff.2 ‹_›, rfl⟩

/-! ## The micro-steps of a response -/

/-- An order of a list is a permutation of it. -/
theorem shuffle_perm {α : Type} (pick : Nat → Nat) (len : Nat) (ws : List α) (h : ws.length = len) :
    (shuffle pick len ws).Perm ws := by
  induction len generalizing ws with
  | zero => exact .refl _
  | succ n ih =>
    have hlt : pick n % (n + 1) < ws.length := by
      rw [h]
      exact Nat.mod_lt _ (by omega)
    simp only [shuffle, List.getElem?_eq_getElem hlt]
    refine ((ih _ ?_).cons _).trans (List.getElem_cons_eraseIdx_perm hlt)
    rw [List.length_eraseIdx, if_pos hlt, h]
    rfl

end Sys2Proof.Machine
end

