-- ==== Sys2Proof/Laws/Micro.lean ====
section
/-!
SUPPORT. A command's micro-steps run one after another (R150): a list of them that holds no oracle call has one
effect, the one the named operations give, and neither reads nor writes the session, the schedule and the count
of draws.
-/

namespace Sys2Proof.Machine

/-- The micro-step is no oracle call. -/
def isPlain (m : Micro) : Bool :=
  match m with
  | .callDir _ => false
  | .callRead _ _ => false
  | .callConfig _ => false
  | .assertReset => true
  | .releaseReset => true
  | .write _ _ _ => true
  | .setPresent _ _ => true
  | .clearPresent => true
  | .setListCursor _ => true
  | .setDirCursor _ => true
  | .setLed _ => true
  | .bumpSeq _ => true

/-- The effect of one micro-step. -/
def runPlain (m : Micro) (s : State) : State := (runMicro m [] s).2

/-- The effect of a list of micro-steps. -/
def runPlains : List Micro → State → State
  | [], s => s
  | m :: ms, s => runPlains ms (runPlain m s)

/-- The state with another session, schedule and count of draws. -/
def putAside (v : Session) (turns : List Turn) (d : Nat) (s : State) : State :=
  { s with session := v, sched := turns, draws := d }

theorem runMicro_plain {m : Micro} (h : isPlain m = true) (todo : List Micro) (s : State) :
    runMicro m todo s = (todo, runPlain m s) := by
  cases m <;> first | rfl | cases h

theorem runPlain_aside {m : Micro} (h : isPlain m = true) (v : Session) (turns : List Turn) (d : Nat) (s : State) :
    runPlain m (putAside v turns d s) = putAside v turns d (runPlain m s) := by
  cases m
  case callDir => cases h
  case callRead => cases h
  case callConfig => cases h
  case assertReset =>
    by_cases e : s.hostReset = .asserted <;> simp [runPlain, runMicro, assertReset, driveReset, cutShort, putAside, observe, e]
  case releaseReset =>
    by_cases e : s.hostReset = .released <;> simp [runPlain, runMicro, releaseReset, driveReset, putAside, observe, e]
  case setLed l => by_cases e : s.led = l <;> simp [runPlain, runMicro, setLed, putAside, observe, e]
  all_goals rfl

theorem runPlain_draws {m : Micro} (h : isPlain m = true) (s : State) : (runPlain m s).draws = s.draws := by
  cases m
  case callDir => cases h
  case callRead => cases h
  case callConfig => cases h
  all_goals simp [runPlain, runMicro]

theorem runPlain_session {m : Micro} (h : isPlain m = true) (s : State) : (runPlain m s).session = s.session := by
  cases m
  case callDir => cases h
  case callRead => cases h
  case callConfig => cases h
  all_goals simp [runPlain, runMicro]

theorem runPlains_aside {ms : List Micro} (h : ∀ m ∈ ms, isPlain m = true) (v : Session) (turns : List Turn) (d : Nat)
    (s : State) : runPlains ms (putAside v turns d s) = putAside v turns d (runPlains ms s) := by
  induction ms generalizing s with
  | nil => rfl
  | cons m ms ih =>
    simp only [runPlains]
    rw [runPlain_aside (h m List.mem_cons_self), ih fun x hx => h x (List.mem_cons_of_mem _ hx)]

theorem runPlains_keeps (ms : List Micro) (s : State) : CommandKeeps s (runPlains ms s) := by
  induction ms generalizing s with
  | nil => exact .refl _
  | cons m ms ih => exact (runMicro_keeps m [] s).trans (ih _)

theorem runPlains_draws {ms : List Micro} (h : ∀ m ∈ ms, isPlain m = true) (s : State) :
    (runPlains ms s).draws = s.draws := by
  induction ms generalizing s with
  | nil => rfl
  | cons m ms ih =>
    rw [runPlains, ih fun x hx => h x (List.mem_cons_of_mem _ hx), runPlain_draws (h m List.mem_cons_self)]

theorem runPlains_session {ms : List Micro} (h : ∀ m ∈ ms, isPlain m = true) (s : State) :
    (runPlains ms s).session = s.session := by
  induction ms generalizing s with
  | nil => rfl
  | cons m ms ih =>
    rw [runPlains, ih fun x hx => h x (List.mem_cons_of_mem _ hx), runPlain_session (h m List.mem_cons_self)]

theorem runPlains_append (ms ms' : List Micro) (s : State) :
    runPlains (ms ++ ms') s = runPlains ms' (runPlains ms s) := by
  induction ms generalizing s with
  | nil => rfl
  | cons m ms ih => exact ih _

/-! ## Image writes and responses -/

theorem isPlain_writes {sel : ImgSel} {ws : List (Nat × Byte)} {m : Micro} (h : m ∈ ws.map (writeMicro sel)) :
    isPlain m = true := by
  obtain ⟨w, _, rfl⟩ := List.mem_map.1 h
  rfl

theorem runPlains_writes (sel : ImgSel) (ws : List (Nat × Byte)) (s : State) :
    runPlains (ws.map (writeMicro sel)) s = imgWrites sel ws s := by
  induction ws generalizing s with
  | nil => rfl
  | cons w ws ih => exact ih _

/-- Writes to different offsets give the same memory in any order (R108). -/
theorem imgWrites_perm {sel : ImgSel} {ws ws' : List (Nat × Byte)} (p : ws.Perm ws') {s : State}
    (w : Memory.wf s.mem = true) (nodup : (ws.map Prod.fst).Nodup) : imgWrites sel ws s = imgWrites sel ws' s := by
  induction p generalizing s with
  | nil => rfl
  | cons x p ih =>
    rw [List.map_cons, List.nodup_cons] at nodup
    exact ih (s := imgWrite sel x.1 x.2 s) (Memory.wf_write w) nodup.2
  | swap x y l =>
    have hne : y.1 ≠ x.1 := by
      simp only [List.map_cons, List.nodup_cons, List.mem_cons, not_or] at nodup
      exact nodup.1.1
    simp only [imgWrites, imgWrite]
    rw [Memory.write_comm w (by simpa using hne)]
  | trans p q ih ih' => rw [ih w nodup, ih' w ((p.map _).nodup_iff.1 nodup)]

theorem imgWrites_aside (sel : ImgSel) (ws : List (Nat × Byte)) (v : Session) (turns : List Turn) (d : Nat)
    (s : State) : imgWrites sel ws (putAside v turns d s) = putAside v turns d (imgWrites sel ws s) := by
  rw [← runPlains_writes, ← runPlains_writes]
  exact runPlains_aside (fun _ => isPlain_writes) _ _ _ _

theorem isPlain_respondSteps {st : Status} {kind : Kind} {text : List Byte} {s : State} {m : Micro}
    (h : m ∈ respondSteps st kind text s) : isPlain m = true := by
  unfold respondSteps at h
  split at h
  · cases h
  · rcases List.mem_append.1 h with h | h
    · exact isPlain_writes h
    · rw [List.mem_singleton.1 h]
      rfl

theorem respondSteps_congr {st : Status} {kind : Kind} {text : List Byte} {s t : State} (hc : t.cfg = s.cfg)
    (ha : t.activeBank = s.activeBank) (hd : t.draws = s.draws) :
    respondSteps st kind text t = respondSteps st kind text s := by
  unfold respondSteps
  rw [activeIndex_congr hc ha, hc, hd]

theorem respondDrawn_congr {s t : State} (hc : t.cfg = s.cfg) (ha : t.activeBank = s.activeBank) :
    respondDrawn t = if activeIndex s = none then t else drawn t := by
  unfold respondDrawn
  rw [activeIndex_congr hc ha]
  cases activeIndex s <;> rfl

/-- The micro-steps of a response, in whatever order they were planned, are the response. -/
theorem runPlains_respond {st : Status} {kind : Kind} {text : List Byte} {s t : State} (hc : t.cfg = s.cfg)
    (ha : t.activeBank = s.activeBank) (hd : t.draws = s.draws) (w : Memory.wf t.mem = true) :
    runPlains (respondSteps st kind text s) (respondDrawn t) = respond st kind text t := by
  rw [← respondSteps_congr hc ha hd]
  unfold respondSteps respondDrawn respond
  cases activeIndex t with
  | none => rfl
  | some n =>
    have perm := shuffle_perm (Config.freePick t.draws) _ (windowWrites t.cfg st kind text (Config.freeByte t.draws)) rfl
    have nodup := ((perm.map Prod.fst).nodup_iff).2 (windowWrites_nodup _ _ _ _ _)
    have aside : drawn t = putAside t.session t.sched (t.draws + 1) t := rfl
    simp only []
    rw [runPlains_append, runPlains_writes, imgWrites_perm perm (s := drawn t) w nodup, aside, imgWrites_aside,
      respondIn, imgWrites_frame]
    rfl

/-! ## Plans -/

/-- The plan holds no oracle call, and its micro-steps end in `t`. -/
structure PlanDoes (p : Plan) (t : State) : Prop where
  plain : ∀ m ∈ p.1, isPlain m = true
  effect : runPlains p.1 p.2 = t

/-- A plan that ends with a response does what comes before it, and then responds. -/
theorem planRespond_does {before : List Micro} (h : ∀ m ∈ before, isPlain m = true) {st : Status} {kind : Kind}
    {text : List Byte} {s t : State} (e : runPlains before s = t) (w : Memory.wf t.mem = true) :
    PlanDoes (planRespond before st kind text s) (respond st kind text t) := by
  subst e
  have keeps := runPlains_keeps before s
  constructor
  · intro m hm
    exact (List.mem_append.1 hm).elim (h m) isPlain_respondSteps
  · have commute : runPlains before (respondDrawn s) = respondDrawn (runPlains before s) := by
      rw [respondDrawn_congr rfl rfl, respondDrawn_congr keeps.cfg keeps.activeBank]
      split
      · rfl
      · have aside : drawn s = putAside s.session s.sched (s.draws + 1) s := rfl
        rw [aside, runPlains_aside h, drawn, runPlains_draws h, ← keeps.sched, ← runPlains_session h s]
        rfl
    simp only [planRespond]
    rw [runPlains_append, commute]
    exact runPlains_respond keeps.cfg keeps.activeBank (runPlains_draws h s) w

theorem planRaise_does {before : List Micro} (h : ∀ m ∈ before, isPlain m = true) {e : Cause} {s t : State}
    (he : runPlains before s = t) (w : Memory.wf t.mem = true) : PlanDoes (planRaise before e s) (raiseError e t) := by
  have := planRespond_does h (st := .error) (kind := .string) (text := payloadText s.cfg (.error e)) he w
  have cfg : t.cfg = s.cfg := he ▸ (runPlains_keeps before s).cfg
  rw [raiseError, cfg]
  exact this

theorem isPlain_loadUpperSteps {c : Config} {k n : Nat} {img : Image} {bit : Bool} {m : Micro}
    (h : m ∈ loadUpperSteps c k n img bit) : isPlain m = true := by
  rcases List.mem_append.1 h with h | h
  · exact isPlain_writes h
  · rw [List.mem_singleton.1 h]
    rfl

theorem isPlain_loadLowerSteps {c : Config} {o : Option Image} {m : Micro} (h : m ∈ loadLowerSteps c o) :
    isPlain m = true := by
  cases o with
  | none => cases h
  | some img => exact isPlain_writes h

theorem isPlain_loadBanksSteps {c : Config} {k : Nat} {set : BankSet} {ns : List Nat} {m : Micro}
    (h : m ∈ loadBanksSteps c k set ns) : isPlain m = true := by
  induction ns with
  | nil => cases h
  | cons n ns ih =>
    unfold loadBanksSteps at h
    split at h
    · exact ih h
    · exact (List.mem_append.1 h).elim isPlain_loadUpperSteps ih

/-- The micro-steps of a load, in whatever order they were planned, are the load. -/
theorem runPlains_loadUpper {c : Config} (k n : Nat) (img : Image) (bit : Bool) {s : State} (h : s.cfg = c)
    (w : Memory.wf s.mem = true) : runPlains (loadUpperSteps c k n img bit) s = loadBroken n img bit s := by
  subst h
  have perm := shuffle_perm (Config.freeLoadPick k n) _ (loadWrites s.cfg img) rfl
  have nodup := ((perm.map Prod.fst).nodup_iff).2 (by rw [loadWrites_fst]; exact List.nodup_range)
  rw [loadUpperSteps, runPlains_append, runPlains_writes, imgWrites_perm perm w nodup]
  rfl

theorem runPlains_loadLower {c : Config} (o : Option Image) {s : State} (h : s.cfg = c) :
    runPlains (loadLowerSteps c o) s = loadLowerOpt o s := by
  subst h
  cases o with
  | none => rfl
  | some img => exact runPlains_writes _ _ _

theorem runPlains_loadBanks {c : Config} (k : Nat) (set : BankSet) (ns : List Nat) {s : State} (h : s.cfg = c)
    (w : Memory.wf s.mem = true) : runPlains (loadBanksSteps c k set ns) s = loadBanks set ns s := by
  induction ns generalizing s with
  | nil => rfl
  | cons n ns ih =>
    unfold loadBanksSteps loadBanks
    cases bankSetImage set n with
    | none => exact ih h w
    | some img =>
      simp only []
      rw [runPlains_append, runPlains_loadUpper k n img true h w]
      exact ih (by rw [loadBroken_cfg, h]) (loadBroken_wf w)

/-- After the answer of `Fs.DirEntry` (R170, R171). -/
theorem planDir_does (k : Nat) (a : DirAnswer) {s : State} (w : Memory.wf s.mem = true) :
    PlanDoes (planDir k a s) (dirOn k a s) := by
  cases a
  · exact planRaise_does (by simp [isPlain]) rfl w
  · exact planRespond_does (by simp [isPlain]) rfl w
  · exact planRespond_does (by simp [isPlain]) rfl w

/-- After the answer of `Fs.ReadRom` (R190). -/
theorem planRead_does (n : Nat) (path : List Byte) (bit : Bool) (a : ReadAnswer) {s : State}
    (w : Memory.wf s.mem = true) : PlanDoes (planRead n path bit a s) (romInOn n path bit a s) := by
  have plain : ∀ img b, ∀ m ∈ [Micro.assertReset] ++ loadUpperSteps s.cfg s.draws n img b ++ [Micro.releaseReset],
      isPlain m = true := by
    intro img b m hm
    simp only [List.mem_append, List.mem_singleton] at hm
    rcases hm with (rfl | h) | rfl
    · rfl
    · exact isPlain_loadUpperSteps h
    · rfl
  have effect : ∀ img b, runPlains ([Micro.assertReset] ++ loadUpperSteps s.cfg s.draws n img b ++ [Micro.releaseReset]) s =
      releaseReset (loadBroken n img b (assertReset s)) := by
    intro img b
    rw [runPlains_append, runPlains_append]
    exact congrArg releaseReset (runPlains_loadUpper s.draws n img b (s := assertReset s) (assertReset_cfg s)
      (by rw [assertReset_mem]; exact w))
  have canonical : ∀ img b, Memory.wf (releaseReset (loadBroken n img b (assertReset s))).mem = true := by
    intro img b
    rw [releaseReset_mem]
    exact loadBroken_wf (by rw [assertReset_mem]; exact w)
  cases a
  · exact planRaise_does (by simp) rfl w
  · exact planRespond_does (plain _ _) (effect _ _) (canonical _ _)
  · exact planRaise_does (plain _ _) (effect _ _) (canonical _ _)

/-- After the answer of `Loader.LoadConfig` (R194). -/
theorem planConfig_does (name : List Byte) (a : LoadAnswer) {s : State} (w : Memory.wf s.mem = true) :
    PlanDoes (planConfig name a s) (cfgSetOn name a s) := by
  cases a with
  | fail =>
    refine planRaise_does ?_ ?_ ?_
    · split <;> simp [isPlain]
    · unfold failBracket
      split <;> rfl
    · unfold failBracket
      split
      · rw [releaseReset_mem, assertReset_mem]
        exact w
      · exact w
  | ok set =>
    have lower := runPlains_loadLower set.lower (s := clearPresent (assertReset s)) (assertReset_cfg s)
    have banks := runPlains_loadBanks s.draws set (List.range s.cfg.n) (c := s.cfg)
      (s := loadLowerOpt set.lower (clearPresent (assertReset s))) (by rw [loadLowerOpt_frame]; exact assertReset_cfg s)
      (loadLowerOpt_wf (by rw [clearPresent_mem, assertReset_mem]; exact w))
    refine planRespond_does ?_ ?_ ?_
    · intro m hm
      simp only [List.mem_append, List.mem_cons, List.not_mem_nil, or_false] at hm
      rcases hm with (((rfl | rfl) | h) | h) | rfl
      · rfl
      · rfl
      · exact isPlain_loadLowerSteps h
      · exact isPlain_loadBanksSteps h
      · rfl
    · rw [runPlains_append, runPlains_append, runPlains_append]
      have start : runPlains [.assertReset, .clearPresent] s = clearPresent (assertReset s) := rfl
      rw [start, lower, banks, replaceBanks, assertReset_cfg]
      rfl
    · rw [releaseReset_mem]
      exact replaceBanks_wf (by rw [assertReset_mem]; exact w)

end Sys2Proof.Machine
end

