-- ==== Sys2Proof/Laws/Bracket.lean ====
section
/-!
SUPPORT. The reset bracket (R55, R107): every command's plan keeps it, piece by piece.
-/

namespace Sys2Proof.Machine

/-- What a well-formed configuration says of the window and the banks (R5 to R7). -/
theorem wf_sizes {c : Config} (h : c.wf = true) :
    5 ≤ c.respSize ∧ c.respOffset + c.respSize ≤ c.romSize ∧ 1 ≤ c.n ∧ c.n ≤ 255 := by
  simp only [Config.wf, Config.windowOk, Config.sizesOk, Bool.and_eq_true, decide_eq_true_eq] at h
  omega

/-- Two lists that keep the bracket keep it one after the other. -/
theorem bracketed_append {c : Config} {win : Option Nat} {line mid fin : HostReset} {ms ms' : List Micro}
    (plain : ∀ m ∈ ms, isPlain m = true) (h : bracketed c win mid line ms = true)
    (h' : bracketed c win fin mid ms' = true) : bracketed c win fin line (ms ++ ms') = true := by
  induction ms generalizing line with
  | nil =>
    simp only [bracketed, decide_eq_true_eq] at h
    subst h
    exact h'
  | cons m ms ih =>
    have plain' : ∀ m ∈ ms, isPlain m = true := fun x hx => plain x (List.mem_cons_of_mem _ hx)
    have hm := plain m List.mem_cons_self
    cases m <;> simp only [List.cons_append, bracketed, Bool.and_eq_true] at h ⊢
    case callDir => cases hm
    case callRead => cases hm
    case callConfig => cases hm
    case setDirCursor => exact ih plain' h
    case setLed => exact ih plain' h
    all_goals exact ⟨h.1, ih plain' h.2⟩

/-- Image writes that each keep the bracket. -/
theorem bracketed_writes {c : Config} {win : Option Nat} {line : HostReset} {sel : ImgSel} {ws : List (Nat × Byte)}
    (h : ∀ w ∈ ws, insideImage c sel w.1 = true ∧ (line = .asserted ∨ windowWrite c win sel w.1 = true)) :
    bracketed c win line line (ws.map (writeMicro sel)) = true := by
  induction ws with
  | nil => simp [bracketed]
  | cons w ws ih =>
    simp only [List.map_cons, writeMicro, bracketed, Bool.and_eq_true, Bool.or_eq_true, decide_eq_true_eq]
    exact ⟨h w List.mem_cons_self, ih fun x hx => h x (List.mem_cons_of_mem _ hx)⟩

/-- A response writes only the window (R55). -/
theorem bracketed_respond {st : Status} {kind : Kind} {text : List Byte} {s : State} (wf : s.cfg.wf = true) :
    bracketed s.cfg (activeIndex s) .released .released (respondSteps st kind text s) = true := by
  unfold respondSteps
  cases hn : activeIndex s with
  | none => rfl
  | some n =>
    have hlt := activeIndex_lt hn
    have sizes := wf_sizes wf
    refine bracketed_append (mid := .released) (fun m => isPlain_writes) (bracketed_writes ?_) ?_
    · intro w hw
      rw [(shuffle_perm _ _ _ rfl).mem_iff] at hw
      obtain ⟨i, _, hi, e⟩ := windowWrites_offset (by omega) hw
      refine ⟨?_, .inr ?_⟩
      · simp [insideImage, hlt]
        omega
      · simp [windowWrite, inWindow]
        omega
    · simp [bracketed, hlt]

theorem bracketed_planRespond {before : List Micro} {st : Status} {kind : Kind} {text : List Byte} {s : State}
    (wf : s.cfg.wf = true) (plain : ∀ m ∈ before, isPlain m = true)
    (h : bracketed s.cfg (activeIndex s) .released .released before = true) :
    bracketed s.cfg (activeIndex s) .released .released (planRespond before st kind text s).1 = true :=
  bracketed_append plain h (bracketed_respond wf)

theorem bracketed_planRaise {before : List Micro} {e : Cause} {s : State} (wf : s.cfg.wf = true)
    (plain : ∀ m ∈ before, isPlain m = true)
    (h : bracketed s.cfg (activeIndex s) .released .released before = true) :
    bracketed s.cfg (activeIndex s) .released .released (planRaise before e s).1 = true :=
  bracketed_append plain h (bracketed_respond wf)

theorem bracketed_loadUpper {c : Config} {win : Option Nat} {k n : Nat} {img : Image} {bit : Bool} (hn : n < c.n) :
    bracketed c win .asserted .asserted (loadUpperSteps c k n img bit) = true := by
  refine bracketed_append (mid := .asserted) (fun m => isPlain_writes) (bracketed_writes fun w hw => ?_) ?_
  · rw [(shuffle_perm _ _ _ rfl).mem_iff] at hw
    simp [insideImage, hn, (mem_loadWrites.1 hw).1]
  · simp [bracketed, hn]

theorem bracketed_loadLower {c : Config} {win : Option Nat} {o : Option Image} :
    bracketed c win .asserted .asserted (loadLowerSteps c o) = true := by
  cases o with
  | none => rfl
  | some img => exact bracketed_writes fun w hw => by simp [insideImage, (mem_loadWrites.1 hw).1]

theorem bracketed_loadBanks {c : Config} {win : Option Nat} {k : Nat} {set : BankSet} {ns : List Nat}
    (h : ∀ n ∈ ns, n < c.n) : bracketed c win .asserted .asserted (loadBanksSteps c k set ns) = true := by
  induction ns with
  | nil => rfl
  | cons n ns ih =>
    have rest := ih fun x hx => h x (List.mem_cons_of_mem _ hx)
    unfold loadBanksSteps
    split
    · exact rest
    · exact bracketed_append (fun m => isPlain_loadUpperSteps) (bracketed_loadUpper (h n List.mem_cons_self)) rest

/-- A list put inside a bracket. -/
theorem bracketed_wrap {c : Config} {win : Option Nat} {ms : List Micro} (plain : ∀ m ∈ ms, isPlain m = true)
    (h : bracketed c win .asserted .asserted ms = true) :
    bracketed c win .released .released ([.assertReset] ++ ms ++ [.releaseReset]) = true := by
  have inside : bracketed c win .released .asserted (ms ++ [.releaseReset]) = true :=
    bracketed_append plain h (by simp [bracketed])
  simp [bracketed, inside]

theorem isPlain_wrap {ms : List Micro} (plain : ∀ m ∈ ms, isPlain m = true) {m : Micro}
    (h : m ∈ [.assertReset] ++ ms ++ [.releaseReset]) : isPlain m = true := by
  simp only [List.mem_append, List.mem_singleton] at h
  rcases h with (rfl | h) | rfl
  · rfl
  · exact plain m h
  · rfl

theorem bracketed_planDir {k : Nat} {a : DirAnswer} {s : State} (wf : s.cfg.wf = true) :
    bracketed s.cfg (activeIndex s) .released .released (planDir k a s).1 = true := by
  cases a
  · exact bracketed_planRaise wf (by simp [isPlain]) (by simp [bracketed])
  · exact bracketed_planRespond wf (by simp [isPlain]) (by simp [bracketed])
  · exact bracketed_planRespond wf (by simp [isPlain]) (by simp [bracketed])

theorem bracketed_planRead {n : Nat} {path : List Byte} {bit : Bool} {a : ReadAnswer} {s : State}
    (wf : s.cfg.wf = true) (hn : n < s.cfg.n) :
    bracketed s.cfg (activeIndex s) .released .released (planRead n path bit a s).1 = true := by
  have plain : ∀ img b, ∀ m ∈ loadUpperSteps s.cfg s.draws n img b, isPlain m = true := fun _ _ _ => isPlain_loadUpperSteps
  cases a with
  | fail => exact bracketed_planRaise wf (by simp) rfl
  | ok img =>
    exact bracketed_planRespond wf (fun m => isPlain_wrap (plain img true))
      (bracketed_wrap (plain img true) (bracketed_loadUpper hn))
  | broken img =>
    exact bracketed_planRaise wf (fun m => isPlain_wrap (plain img bit))
      (bracketed_wrap (plain img bit) (bracketed_loadUpper hn))

theorem bracketed_planConfig {name : List Byte} {a : LoadAnswer} {s : State} (wf : s.cfg.wf = true) :
    bracketed s.cfg (activeIndex s) .released .released (planConfig name a s).1 = true := by
  cases a with
  | fail =>
    refine bracketed_planRaise wf ?_ ?_
    · split <;> simp [isPlain]
    · split <;> simp [bracketed]
  | ok set =>
    have plain : ∀ m ∈ [Micro.clearPresent] ++ loadLowerSteps s.cfg set.lower ++
        loadBanksSteps s.cfg s.draws set (List.range s.cfg.n), isPlain m = true := by
      intro m hm
      simp only [List.mem_append, List.mem_singleton] at hm
      rcases hm with (rfl | h) | h
      · rfl
      · exact isPlain_loadLowerSteps h
      · exact isPlain_loadBanksSteps h
    have shape : ([.assertReset, .clearPresent] ++ loadLowerSteps s.cfg set.lower ++
        loadBanksSteps s.cfg s.draws set (List.range s.cfg.n) ++ [.releaseReset] : List Micro) =
        [.assertReset] ++ ([Micro.clearPresent] ++ loadLowerSteps s.cfg set.lower ++
          loadBanksSteps s.cfg s.draws set (List.range s.cfg.n)) ++ [.releaseReset] := by simp
    have lower : bracketed s.cfg (activeIndex s) .asserted .asserted
        ([Micro.clearPresent] ++ loadLowerSteps s.cfg set.lower) = true :=
      bracketed_append (mid := .asserted) (by simp [isPlain]) (by simp [bracketed]) bracketed_loadLower
    have inside := bracketed_append (mid := .asserted) (fun m hm => plain m (List.mem_append_left _ hm)) lower
      (bracketed_loadBanks (k := s.draws) (set := set) fun n hn => List.mem_range.1 hn)
    simp only [planConfig]
    rw [shape]
    exact bracketed_planRespond wf (fun m => isPlain_wrap plain) (bracketed_wrap plain inside)

/-- A bank parameter that names a bank names one of the `N` (R74). -/
theorem resolveBank_lt {c : Config} (wf : c.wf = true) {p0 : Byte} {n : Nat} (h : resolveBank c p0 = some n) :
    n < c.n := by
  have sizes := wf_sizes wf
  unfold resolveBank at h
  split at h
  · cases h
    assumption
  · split at h
    · cases h
      omega
    · cases h

/-- Every command's plan keeps the bracket, from the line released (R107). -/
theorem bracketed_stepsOf {k : Cmd} {fixed buffer : List Byte} {s : State} (wf : s.cfg.wf = true) :
    bracketed s.cfg (activeIndex s) (finalLine k) .released (stepsOf k fixed buffer s).1 = true := by
  cases k
  case dirFirst => simp [stepsOf, bracketed, finalLine]
  case dirNext =>
    simp only [stepsOf]
    split
    · exact bracketed_planRespond wf (by simp) rfl
    · simp [bracketed, finalLine]
  case romListFirst => exact bracketed_planRespond wf (by simp [isPlain]) (by simp [bracketed])
  case romListNext =>
    simp only [stepsOf, planListNext]
    split
    · exact bracketed_planRespond wf (by simp) rfl
    · split <;> exact bracketed_planRespond wf (by simp [isPlain]) (by simp [bracketed]; omega)
  case romIn =>
    simp only [stepsOf]
    split
    · exact bracketed_planRaise wf (by simp) rfl
    · rename_i h
      simp [bracketed, finalLine, resolveBank_lt wf h]
  case romOut =>
    simp only [stepsOf]
    split
    · exact bracketed_planRaise wf (by simp) rfl
    · rename_i h
      exact bracketed_planRespond wf (by simp [isPlain]) (by simp [bracketed, resolveBank_lt wf h])
  case configSet => simp [stepsOf, bracketed, finalLine]
  case led => exact bracketed_planRespond (s := drawn s) wf (by simp [isPlain]) (by simp [bracketed])
  case picoload => simp [stepsOf, bracketed, finalLine]

/-- A mask of `N` bits still is one once a bit below `N` has been written (R13). -/
theorem maskWithBit_lt {m : Mask} {n size : Nat} {bit : Bool} (h : m.toNat < 2 ^ size) (hn : n < size)
    (hs : size ≤ 255) : (maskWithBit m n bit).toNat < 2 ^ size := by
  apply Nat.lt_pow_two_of_testBit
  intro i hi
  have high : (maskWithBit m n bit).getLsbD i = false := by
    rw [maskWithBit_getLsbD _ _ _ _ (by omega), if_neg (by omega)]
    exact Nat.testBit_lt_two_pow (lt_of_lt_of_le h (Nat.pow_le_pow_right (by omega) hi))
  exact high

end Sys2Proof.Machine
end

