-- ==== Sys2Proof/Laws/Decode.lean ====
section
/-!
SUPPORT. The selector table of a well-formed configuration (R6, R145): different commands have different
selector bytes, and a lookup finds the command a byte selects.
-/

namespace Sys2Proof

/-- The nine selector bytes are distinct (R6). -/
theorem selector_inj {c : Config} (h : c.wf = true) {k l : Cmd} (e : c.selector k = c.selector l) : k = l := by
  have nodup : c.selectors.toList.Nodup := by
    simp only [Config.wf, Config.bytesOk, Bool.and_eq_true, decide_eq_true_eq] at h
    tauto
  simp only [Selectors.toList, List.nodup_cons, List.mem_cons, List.not_mem_nil, or_false, not_or] at nodup
  cases k <;> cases l <;> simp_all [Config.selector]

/-- The lookup of a selector byte finds its command (R145). -/
theorem lookup_selector {c : Config} (h : c.wf = true) (k : Cmd) : lookup c (c.selector k) = some k := by
  have e : (fun x => c.selector x == c.selector k) = fun x => decide (x = k) := by
    funext x
    by_cases hx : x = k
    · simp [hx]
    · have hne : ¬ c.selector x = c.selector k := fun e => hx (selector_inj h e)
      simp [hx, hne]
  unfold lookup
  rw [e]
  cases k <;> rfl

/-- The lookup of any other byte finds none (R145). -/
theorem lookup_none_iff {c : Config} {b : Byte} : lookup c b = none ↔ c.selectors.toList.contains b = false := by
  have comm : ∀ x : Byte, b = x ↔ x = b := fun x => eq_comm
  unfold lookup
  simp only [Cmd.all, List.find?_eq_none, List.mem_cons, List.not_mem_nil, or_false, forall_eq_or_imp, forall_eq,
    Config.selector, Selectors.toList, beq_iff_eq, List.contains_eq_mem, decide_eq_false_iff_not, not_or, comm]

/-- A prefix and a selector byte leave the parameters to read. -/
theorem decode_selector {c : Config} (h : c.wf = true) (k : Cmd) (rest : List Byte) :
    decode c (c.prefixByte :: c.selector k :: rest) = decodeParams k rest := by
  simp only [decode, if_true, decodeCommand, lookup_selector h]

end Sys2Proof
end

