-- ==== Sys2Proof/Laws/PerInstr.lean ====
section
/-!
SUPPORT. The per-instruction family about encodings: how many latch bytes an instruction has, and that every
command sequence begins with the prefix (R72, R73).
-/

namespace Sys2Proof.Laws

open Sys2Proof.Machine

/-- How many latch bytes an instruction has (R72, R73): none for a bus sample, one in format `I`, and the totals
of the sub-formats `C0`, `C1`, `C0S`, `C1S`. -/
def seqLength : Instr → Nat
  | .release => 0
  | .rdL _ => 0
  | .rdU _ => 0
  | .pfx => 1
  | .ign _ => 1
  | .sel _ => 1
  | .dirFirst => 2
  | .dirNext => 2
  | .romListFirst => 2
  | .romListNext => 2
  | .romIn _ path => 4 + path.length
  | .romOut _ => 3
  | .cfgSet name => 3 + name.length
  | .led _ => 3
  | .picoload => 2
  | .unknown _ => 2

/-- The encoding of an instruction has the shape its format gives it. -/
def EncodingShape.Statement (i : Instr) : Prop :=
  ∀ c : Config, (latchBytes c i).length = seqLength i ∧ (2 ≤ seqLength i → (latchBytes c i).head? = some c.prefixByte)

theorem EncodingShape.release : EncodingShape.Statement .release := fun _ => ⟨rfl, by simp [seqLength]⟩

theorem EncodingShape.rdL (addr : Nat) : EncodingShape.Statement (.rdL addr) := fun _ => ⟨rfl, by simp [seqLength]⟩

theorem EncodingShape.rdU (addr : Nat) : EncodingShape.Statement (.rdU addr) := fun _ => ⟨rfl, by simp [seqLength]⟩

theorem EncodingShape.pfx : EncodingShape.Statement .pfx := fun _ => ⟨rfl, by simp [seqLength]⟩

theorem EncodingShape.ign (b : Byte) : EncodingShape.Statement (.ign b) := fun _ => ⟨rfl, by simp [seqLength]⟩

theorem EncodingShape.sel (bank : Byte) : EncodingShape.Statement (.sel bank) := fun _ => ⟨rfl, by simp [seqLength]⟩

theorem EncodingShape.dirFirst : EncodingShape.Statement .dirFirst := fun _ => ⟨rfl, fun _ => rfl⟩

theorem EncodingShape.dirNext : EncodingShape.Statement .dirNext := fun _ => ⟨rfl, fun _ => rfl⟩

theorem EncodingShape.romListFirst : EncodingShape.Statement .romListFirst := fun _ => ⟨rfl, fun _ => rfl⟩

theorem EncodingShape.romListNext : EncodingShape.Statement .romListNext := fun _ => ⟨rfl, fun _ => rfl⟩

theorem EncodingShape.romIn (p0 : Byte) (path : List Byte) : EncodingShape.Statement (.romIn p0 path) := fun _ =>
  ⟨by simp [latchBytes, encode, encodeCmd, encodeString, seqLength]; omega, fun _ => rfl⟩

theorem EncodingShape.romOut (p0 : Byte) : EncodingShape.Statement (.romOut p0) := fun _ => ⟨rfl, fun _ => rfl⟩

theorem EncodingShape.cfgSet (name : List Byte) : EncodingShape.Statement (.cfgSet name) := fun _ =>
  ⟨by simp [latchBytes, encode, encodeCmd, encodeString, seqLength]; omega, fun _ => rfl⟩

theorem EncodingShape.led (p0 : Byte) : EncodingShape.Statement (.led p0) := fun _ => ⟨rfl, fun _ => rfl⟩

theorem EncodingShape.picoload : EncodingShape.Statement .picoload := fun _ => ⟨rfl, fun _ => rfl⟩

theorem EncodingShape.unknown (b : Byte) : EncodingShape.Statement (.unknown b) := fun _ => ⟨rfl, fun _ => rfl⟩

end Sys2Proof.Laws
end

