-- ==== Sys2Proof/Tests/Slice0.lean ====
section
/-!
SUPPORT. The model's own tests: what WellFormed refuses, words decoded, one step of each instruction against the
examples of the spec, and for every obligation with hypotheses a state and operands that meet them.
-/

namespace Sys2Proof.Tests

open Sys2Proof.Machine

/-! ## A small machine: 3 banks of 64 bytes, a window of 16 bytes at 0x20 -/

def tiny : Config :=
  { Config.default with
    n := 3, addrBits := 6, hostAddrBits := 8, legacyIgnored := [0xFF], respOffset := 0x20, respSize := 16,
    nameMax := 8, latchQDepth := 2 }

def tinyClamp : Config := { tiny with bankRangePolicy := .clamp }

/-- The bytes of `BASIC.ROM`. -/
def basicRom : List Byte := [0x42, 0x41, 0x53, 0x49, 0x43, 0x2E, 0x52, 0x4F, 0x4D]

/-- An image of 64 bytes 0x5A. -/
def image5A : Image := List.replicate 64 0x5A

/-- The directory of the example of R170; one ROM file; one configuration, which names bank 0 alone. -/
def tinyStorage : Storage :=
  { roms := [(basicRom, image5A)]
    dir := some [{ name := basicRom, size := 16384 }, { name := [0x41, 0x2E, 0x43, 0x46, 0x47], size := 20 }]
    configs := [([0x43], { lower := none, upper := [some image5A, none, none] })] }

/-- Banks 0 and 2 present, bank 0 active. Lower byte 8 is 0xC3. Bank 0 has the header and the name of the examples
of R174 and R175, and the sequence byte 0x41 of the example of R108. -/
def s0 : State :=
  State.launch
    { cfg := tiny, storage := tinyStorage
      mem := [(8, 0xC3), (65, 0x01), (68, 0x10), (69, 0xC0), (70, 0x4C), (80, 0x42), (81, 0x41), (82, 0x53), (83, 0x49),
        (84, 0xC3), (96, 0x41)]
      upperPresent := 0b101, activeBank := .bank 0, listCursor := 0, led := .off, romEnable := false, region := .lower,
      addr := 0 }

/-- The same with no bank active. -/
def sNo : State := { s0 with activeBank := .noBank }

/-- The same with an absent bank active (R15). -/
def sAbsent : State := { s0 with activeBank := .bank 1 }

/-- The outcome is a next state with a property. -/
def gives (o : Host.Outcome State Fault Refusal) (p : State → Bool) : Bool :=
  match o with
  | .next t => p t
  | .fault _ => false
  | .refused _ => false

/-- The window bytes `[1]`, `[2]`, ... of bank 0. -/
def window (k : Nat) (s : State) : List Byte := (List.range k).map fun i => windowByte 0 (i + 1) s

/-- One turn is decided. -/
def turn (k : Turn) (s : State) : State := { s with sched := [k] }

/-- One reset pulse has been observed, and nothing else. -/
def pulsed (s : State) : Bool := decide (s.trace = [.resetEdge .released, .resetEdge .asserted])

/-! ## What WellFormed refuses -/

theorem test_wf_accepts : Config.default.wf = true ∧ tiny.wf = true ∧ tinyClamp.wf = true ∧
    Storage.wf tiny tinyStorage = true ∧ s0.legal = true := by decide

theorem test_wf_refuses_sizes :
    Config.wf { tiny with n := 0 } = false ∧ Config.wf { tiny with n := 256 } = false ∧
    Config.wf { tiny with addrBits := 0 } = false ∧ Config.wf { tiny with hostAddrBits := 5 } = false ∧
    Config.wf { tiny with latchQDepth := 0 } = false ∧ Config.wf { tiny with nameMax := 0 } = false ∧
    Config.wf { tiny with nameMax := 13 } = false ∧ Config.wf { tiny with fwVersion := [0x50, 0x00] } = false ∧
    Config.wf { tiny with fwVersion := [0x80] } = false := by decide

theorem test_wf_refuses_bytes :
    Config.wf { tiny with prefixByte := 2 } = false ∧ Config.wf { tiny with legacyIgnored := [0xFC] } = false ∧
    Config.wf { tiny with selectors := { Selectors.default with led := 0x01 } } = false ∧
    Config.wf { tiny with statusError := 0 } = false ∧ Config.wf { tiny with statusError := 1 } = false := by decide

theorem test_wf_refuses_windows :
    Config.wf { tiny with respSize := 4, nameMax := 1 } = false ∧ Config.wf { tiny with respOffset := 49 } = false ∧
    Config.wf { tiny with respOffset := 3, namePtrOffset := 0 } = false ∧
    Config.wf { tiny with namePtrOffset := 31 } = false ∧ Config.wf { tiny with namePtrOffset := 63 } = false := by
  decide

theorem test_wf_refuses_storage :
    Image.wf tiny [0x00] = false ∧ BankSet.wf tiny { lower := some [], upper := [none, none, none] } = false ∧
    BankSet.wf tiny { lower := none, upper := [] } = false ∧
    BankSet.wf tiny { lower := none, upper := [none, none, some []] } = false ∧
    Storage.wf tiny { Storage.empty with roms := [([], [])] } = false ∧
    Storage.wf tiny { Storage.empty with dir := some [{ name := [0x00], size := 0 }] } = false ∧
    Storage.wf tiny { Storage.empty with configs := [([], { lower := none, upper := [] })] } = false := by decide

theorem test_wf_refuses_instructions :
    Instr.wf tiny (.rdL 256) = false ∧ Instr.wf tiny (.rdU 256) = false ∧ Instr.wf tiny (.ign 0xFC) = false ∧
    Instr.wf tiny (.ign 0x02) = false ∧ Instr.wf tiny (.sel 0xFC) = false ∧ Instr.wf tiny (.sel 0xFF) = false ∧
    Instr.wf tiny (.unknown 0x05) = false := by decide

/-- A string of 256 bytes does not fit its length byte (R76). -/
theorem test_wf_refuses_long_strings (t : List Byte) (h : t.length = 256) :
    Instr.wf tiny (.romIn 0 t) = false ∧ Instr.wf tiny (.cfgSet t) = false := by
  simp [Instr.wf, stringOk, h]

/-! ## Words written out from the encodings (R71 to R73, R80) -/

theorem test_decode_bus : decodeBus 0b00 0x38 = .release ∧ decodeBus 0b01 0xC123 = .release ∧
    decodeBus 0b10 0x38 = .rdL 0x38 ∧ decodeBus 0b11 0xC006 = .rdU 0xC006 := by decide

theorem test_decode_idle : decode tiny [0xFC] = .instr .pfx [] ∧ decode tiny [0xFF] = .instr (.ign 0xFF) [] ∧
    decode tiny [0x03, 0xFC] = .instr (.sel 0x03) [0xFC] := by decide

theorem test_decode_no_parameter :
    decode Config.default [0xFC, 0x01] = .instr .dirFirst [] ∧ decode Config.default [0xFC, 0x02] = .instr .dirNext [] ∧
    decode Config.default [0xFC, 0x03] = .instr .romListFirst [] ∧
    decode Config.default [0xFC, 0x04] = .instr .romListNext [] ∧
    decode Config.default [0xFC, 0x09] = .instr .picoload [] := by decide

theorem test_decode_parameters :
    decode Config.default [0xFC, 0x06, 0x03] = .instr (.romOut 3) [] ∧
    decode Config.default [0xFC, 0x08, 0x01] = .instr (.led 1) [] ∧
    decode Config.default [0xFC, 0x05, 0x03, 0x09, 0x42, 0x41, 0x53, 0x49, 0x43, 0x2E, 0x52, 0x4F, 0x4D] =
      .instr (.romIn 3 basicRom) [] ∧
    decode Config.default [0xFC, 0x07, 0x0B, 0x4D, 0x49, 0x53, 0x53, 0x49, 0x4E, 0x47, 0x2E, 0x43, 0x46, 0x47] =
      .instr (.cfgSet [0x4D, 0x49, 0x53, 0x53, 0x49, 0x4E, 0x47, 0x2E, 0x43, 0x46, 0x47]) [] := by decide

/-- R214: two bytes are consumed; R81, D38: a second prefix is a selector; R77: a sequence can be unfinished. -/
theorem test_decode_unknown : decode Config.default [0xFC, 0x77, 0x03] = .instr (.unknown 0x77) [0x03] ∧
    decode Config.default [0xFC, 0xFC] = .instr (.unknown 0xFC) [] ∧
    decode Config.default [0xFC, 0x05, 0x03, 0x02, 0x41] = .error .truncated ∧
    decode Config.default [] = .error .noByte ∧
    decodeEncoding Config.default (.latch [0x01, 0x02]) = .error .leftOver := by decide

/-- The opcode table's own numbers, first byte most significant (R92). -/
theorem test_table_words : decodeTableWord 2 0b10 = some (.rdL 0) ∧ decodeTableWord 16 0xFC03 = some .romListFirst ∧
    decodeTableWord 16 0xFC05 = some (.romIn 0 []) ∧ decodeTableWord 8 0xFC = some .pfx := by decide

theorem test_table_words_run : gives (step (State.reset.withFetchWord 16 0xFC09)) (fun t => t.session == .maintenance) = true ∧
    gives (step (State.reset.withFetchWord 2 0b11)) (fun t => t.dbusOut == .hiZ) = true ∧
    gives (step (State.reset.withFetchWord 2 0b10)) (fun t => t.dbusOut == .drive 0) = true := by decide

/-! ## Memory and the texts -/

/-- Writing what an unlisted address reads as removes the entry; a write in the middle keeps the order. -/
theorem test_memory_canonical : Memory.write [(3, 7)] 3 0 = [] ∧ Memory.write [(3, 7), (9, 8)] 5 1 = [(3, 7), (5, 1), (9, 8)] ∧
    Memory.read [(3, 7)] 4 = 0 ∧ Memory.wf [(3, 7), (3, 8)] = false ∧ Memory.wf [(3, 0)] = false := by decide

/-- R8: `dec` and `hex2`; R90: `san`. -/
theorem test_spellings : dec 0 = [0x30] ∧ dec 16384 = [0x31, 0x36, 0x33, 0x38, 0x34] ∧ hex2 0xA7 = [0x41, 0x37] ∧
    san [0x1F, 0x20, 0x7E, 0x7F] = [0x3F, 0x20, 0x7E, 0x3F] := by decide

/-- The example of R173: mask 0x009 with 12 banks is `PICOROM ROMS:009`. -/
theorem test_banner : payloadText Config.default (.banner 0x009) =
    [0x50, 0x49, 0x43, 0x4F, 0x52, 0x4F, 0x4D, 0x20, 0x52, 0x4F, 0x4D, 0x53, 0x3A, 0x30, 0x30, 0x39] := by decide

/-- The example of R175. -/
theorem test_decode_name : decodeName 0 s0 = [0x42, 0x41, 0x53, 0x49, 0x43] := by decide

/-- The example of R108, with 0xAA in the bytes a response does not cover. -/
theorem test_respond :
    windowByte 0 0 (respondIn 0 .ok .string [0x41, 0x42] (fun _ => 0xAA) s0) = 0x42 ∧
    window 6 (respondIn 0 .ok .string [0x41, 0x42] (fun _ => 0xAA) s0) = [0x00, 0x01, 0x41, 0x42, 0x00, 0xAA] := by
  decide

/-- R49 (b): the sequence byte wraps. -/
theorem test_sequence_wraps :
    windowByte 0 0 (bumpSeq 0 { s0 with mem := Memory.write s0.mem 96 0xFF }) = 0x00 := by decide

/-! ## The engine -/

theorem test_release : gives (exec .release { s0 with dbusOut := .drive 7 }) (fun t => t.dbusOut == .hiZ) = true := by
  decide

/-- The example of R122, at an aliased address. -/
theorem test_rdL : gives (exec (.rdL 0x48) sNo) (fun t => t.dbusOut == .drive 0xC3) = true := by decide

/-- The example of R123. -/
theorem test_rdU : gives (exec (.rdU 0xC6) s0) (fun t => t.dbusOut == .drive 0x4C) = true := by decide

theorem test_rdU_absent : gives (exec (.rdU 0xC6) { sAbsent with dbusOut := .drive 7 }) (fun t => t.dbusOut == .hiZ) = true ∧
    gives (exec (.rdU 0xC6) { sNo with dbusOut := .drive 7 }) (fun t => t.dbusOut == .hiZ) = true := by decide

/-! ## The idle bytes -/

theorem test_pfx : gives (exec .pfx s0) (fun t => t.session == .awaitingCommand && t.activeBank == .bank 0) = true := by
  decide

theorem test_ign : gives (exec (.ign 0xFF) s0) (fun t => t == s0) = true := by decide

/-- The examples of R100, with bank 2 in the place of bank 3. -/
theorem test_sel : gives (exec (.sel 2) s0) (fun t => t.activeBank == .bank 2) = true ∧
    gives (exec (.sel 1) s0) (fun t => t.activeBank == .noBank) = true ∧
    gives (exec (.sel 200) s0) (fun t => t.activeBank == .noBank) = true := by decide

/-! ## The listing commands -/

/-- The example of R170; 12 bytes of the text fit the small window. -/
theorem test_dirFirst : gives (exec .dirFirst { s0 with answers := [.content] }) (fun t => t.dirCursor == some 1 &&
    windowByte 0 0 t == 0x42 && window 15 t == [0x00, 0x01, 0x42, 0x41, 0x53, 0x49, 0x43, 0x2E, 0x52, 0x4F, 0x4D, 0x2C,
      0x20, 0x31, 0x00]) = true := by decide

theorem test_dirFirst_fails : gives (exec .dirFirst { s0 with answers := [.fail], dirCursor := some 5 }) (fun t =>
    t.dirCursor == none && window 4 t == [0x02, 0x01, 0x44, 0x69]) = true := by decide

/-- The example of R171: the second entry, then the end. -/
theorem test_dirNext :
    gives (exec .dirNext { sNo with answers := [.content], dirCursor := some 1 }) (fun t => t.dirCursor == some 2) = true ∧
    gives (exec .dirNext { sNo with answers := [.content], dirCursor := some 2 }) (fun t => t.dirCursor == none) = true := by
  decide

theorem test_romListFirst : gives (exec .romListFirst { s0 with listCursor := 3 }) (fun t => t.listCursor == 0 &&
    window 15 t == [0x00, 0x01, 0x50, 0x49, 0x43, 0x4F, 0x52, 0x4F, 0x4D, 0x20, 0x52, 0x4F, 0x4D, 0x53, 0x00]) = true := by
  decide

/-- The example of R174: `0: BASIC 1.00 T0`, of which 12 bytes fit the small window. -/
theorem test_romListNext : gives (exec .romListNext s0) (fun t => t.listCursor == 1 &&
    window 15 t == [0x00, 0x01, 0x30, 0x3A, 0x20, 0x42, 0x41, 0x53, 0x49, 0x43, 0x20, 0x31, 0x2E, 0x30, 0x00]) = true := by
  decide

theorem test_romListNext_past_the_end :
    gives (exec .romListNext { sNo with listCursor := 3 }) (fun t => t.listCursor == 3) = true := by decide

/-! ## The mutating commands -/

/-- The scenario of R190, into bank 1. -/
theorem test_romIn : gives (exec (.romIn 1 basicRom) { sNo with answers := [.content] }) (fun t => t.upperPresent == 0b111 &&
    pulsed t && imgRead (.upper 1) 0 t == 0x5A && imgRead (.upper 1) 63 t == 0x5A && imgRead (.upper 0) 6 t == 0x4C &&
    imgRead (.upper 2) 0 t == 0x00 && t.activeBank == .noBank) = true := by decide

/-- R191 (a): the bank first, with no call. -/
theorem test_romIn_bad_bank : gives (exec (.romIn 200 basicRom) s0) (fun t => t.upperPresent == 0b101 && t.trace == [] &&
    window 4 t == [0x02, 0x01, 0x42, 0x61]) = true := by decide

/-- The example of R192, with bank 2 in the place of bank 3. -/
theorem test_romOut : gives (exec (.romOut 2) sNo) (fun t => t.upperPresent == 0b001 && pulsed t) = true := by decide

theorem test_romOut_clamps : gives (exec (.romOut 200) { sNo with cfg := tinyClamp }) (fun t => t.upperPresent == 0b001) = true := by
  decide

/-- R195 (a), (c): bank 2 is not named, so it goes; no lower image is named, so it stays. -/
theorem test_cfgSet : gives (exec (.cfgSet [0x43]) { sNo with answers := [.content] }) (fun t => t.upperPresent == 0b001 &&
    pulsed t && imgRead (.upper 0) 6 t == 0x5A && imgRead .lower 8 t == 0xC3) = true := by decide

/-- The scenario of R194: a configuration that does not exist. -/
theorem test_cfgSet_missing : gives (exec (.cfgSet [0x4D]) { s0 with answers := [.content] }) (fun t =>
    t.upperPresent == 0b101 && t.trace == [] && window 5 t == [0x02, 0x01, 0x43, 0x6F, 0x6E]) = true := by decide

/-! ## The other commands -/

/-- The example of R210. -/
theorem test_led : gives (exec (.led 1) sNo) (fun t => t.led == .on && t.trace == [.ledChange .on]) = true ∧
    gives (exec (.led 0) sNo) (fun t => t.led == .off && t.trace == []) = true := by decide

/-- The example of R213. -/
theorem test_picoload : gives (exec .picoload s0) (fun t => t.hostReset == .asserted && t.session == .maintenance &&
    window 3 t == window 3 s0) = true := by decide

theorem test_unknown : gives (exec (.unknown 0x77) { s0 with session := .awaitingCommand }) (fun t => t == s0) = true := by
  decide

/-! ## Context B a byte at a time, and the host -/

/-- The examples of R145, R147 and R148. -/
theorem test_collecting :
    selected .romIn s0 = { s0 with session := .collectingParams .romIn .fixed 1 [] [] } ∧
    collectByte .romIn .fixed 1 [] [] 3 s0 = { s0 with session := .collectingParams .romIn .len 1 [3] [] } ∧
    collectByte .romIn .len 1 [3] [] 9 s0 = { s0 with session := .collectingParams .romIn .str 9 [3] [] } := by decide

/-- R149: the last string byte starts the command, whose first micro-step is the oracle call. -/
theorem test_last_byte : (collectByte .romIn .str 1 [2] (basicRom.take 8) 0x4D s0).session =
    .executing .romIn [2] basicRom [.callRead 2 basicRom] := by decide

/-- R192 as micro-steps. -/
theorem test_micro_steps : (stepsOf .romOut [2] [] sNo).1 = [.assertReset, .setPresent 2 false, .releaseReset] ∧
    (microStep .romOut [2] [] [.assertReset, .setPresent 2 false, .releaseReset] sNo).hostReset = .asserted := by decide

/-- R263 and R236, in a queue of two bytes. -/
theorem test_latch : (hostLatch 7 { s0 with latchQ := [1] }).latchQ = [1, 7] ∧
    (hostLatch 7 { s0 with latchQ := [1, 2] }).marks.latchOverflow = true := by decide

/-- R262, R126: a sample needs an iteration since the inputs were presented; the engine's turn gives it. -/
theorem test_sample_waits :
    gives (step (turn (.host .sample) { s0 with romEnable := true, cycle := .presented })) (fun t => t.trace == []) = true ∧
    gives (step (turn .engine { s0 with romEnable := true, cycle := .presented, addr := 8 })) (fun t =>
      t.cycle == .served && t.dbusOut == .drive 0xC3) = true ∧
    gives (step (turn .engine { s0 with cycle := .ending })) (fun t => t.cycle == .idle) = true := by decide

/-- R126, R255: after a cycle cut short a latch write waits for the iteration that releases the bus. -/
theorem test_cut_short : (releaseReset (assertReset { s0 with romEnable := true, cycle := .served })).cycle = .ending ∧
    (assertReset { s0 with cycle := .ending }).cycle = .ending ∧ (assertReset s0).cycle = .idle ∧
    gives (step (turn (.host (.latch 7)) { s0 with cycle := .ending })) (fun t => t.latchQ == []) = true := by decide

/-- R264: `AssertReset` cuts a read cycle short; R263: a held host writes no latch byte; R237: its breach is marked. -/
theorem test_held_host : (assertReset { s0 with romEnable := true, cycle := .served }).romEnable = false ∧
    gives (step (turn (.host (.latch 7)) { s0 with hostReset := .asserted })) (fun t => t.latchQ == []) = true ∧
    gives (step (turn (.host (.present .lower 8)) { s0 with hostReset := .asserted })) (fun t => !t.romEnable) = true ∧
    gives (step (turn (.host (.breach .lower 8)) { s0 with hostReset := .asserted })) (fun t => t.romEnable) = true ∧
    gives (exec (.rdL 8) { s0 with hostReset := .asserted }) (fun t => t.marks.readUnderMutation) = true := by decide

/-- R262: the host gets the byte driven. -/
theorem test_sample : (hostSample { s0 with dbusOut := .drive 9, region := .upper, addr := 5 }).trace = [.read .upper 5 9] := by
  decide

/-- The lines of R86 and R87 as turns. -/
theorem test_host_lines :
    (HostLine.latch (.romOut 3)).turns tiny = [.host (.latch 0xFC), .host (.latch 0x06), .host (.latch 0x03)] ∧
    (HostLine.poll 1).turns tiny = [.host (.present .upper 0x20), .engine, .host .sample, .host .drop, .engine] := by decide

/-! ## A state and operands for each obligation with hypotheses, one per clause at the boundary of its range -/

/-- What `gives` says, as an equation. -/
theorem next_of_gives {o : Host.Outcome State Fault Refusal} {p : State → Bool} (h : gives o p = true) :
    ∃ t, o = .next t ∧ p t = true := by
  cases o with
  | next t => exact ⟨t, rfl, h⟩
  | fault r => exact absurd h Bool.false_ne_true
  | refused r => exact absurd h Bool.false_ne_true

/-- The host is held in reset. -/
def held (s : State) : State := { s with hostReset := .asserted }

/-- What every command statement asks of a state. -/
def ready (s : State) : Bool := s.cfg.wf && Memory.wf s.mem && decide (s.hostReset = .released)

theorem witness_EncodeThenDecodeGivesInstruction : tiny.wf = true ∧ Instr.wf tiny (.romIn 2 basicRom) = true ∧
    Instr.wf tiny (.rdU 255) = true ∧ Instr.wf tiny (.unknown 0xFC) = true := by decide

theorem witness_DecoderTakesExactlyOneSequence : tiny.wf = true ∧ Instr.wf tiny (.romIn 2 basicRom) = true ∧
    latchBytes tiny (.romIn 2 basicRom) ≠ [] ∧ Instr.romIn 2 basicRom ≠ .pfx := by decide

theorem witness_EveryByteStreamDecodesOrIsUnfinished : decode tiny [0x03, 0x05] = .instr (.sel 3) [0x05] ∧
    decode tiny [0xFC, 0x05] = .error .truncated ∧ decode tiny ([0xFC, 0x05] ++ [0x00, 0x00]) = .instr (.romIn 0 []) [] := by
  decide

theorem witness_DecodedLatchInstructionIsWellFormed : decode tiny [0xFC, 0x06, 0x03, 0x09] = .instr (.romOut 3) [0x09] := by
  decide

theorem witness_PayloadTextsHoldNoNul : tiny.wf = true ∧ Config.wf { tiny with formatters := .free 4 } = true := by decide

theorem witness_LowerReadDrivesTheLowerImage : s0.hostReset = .released := by decide

theorem witness_UpperReadDrivesThePresentActiveBank :
    (s0.hostReset = .released ∧ activeOk s0 = true ∧ s0.activeBank = .bank 0 ∧ s0.upperPresent.getLsbD 0 = true) ∧
    (sAbsent.hostReset = .released ∧ activeOk sAbsent = true ∧ sAbsent.activeBank = .bank 1 ∧
      sAbsent.upperPresent.getLsbD 1 = false) ∧
    (sNo.hostReset = .released ∧ activeOk sNo = true ∧ sNo.activeBank = .noBank) := by decide

theorem witness_ReadUnderResetIsMarked : (held s0).hostReset = .asserted ∧ (held sNo).hostReset = .asserted := by decide

/-- The rows of the decision table. -/
theorem witness_EngineIterationFollowsTheDecisionTable :
    ([turn .engine s0, turn .engine { s0 with romEnable := true }, turn .engine { sNo with romEnable := true, region := .upper },
      turn .engine { s0 with romEnable := true, region := .upper, addr := 255 },
      turn .engine { sAbsent with romEnable := true, region := .upper }].all fun s =>
        s.cfg.wf && decide (s.sched = .engine :: []) && activeOk s && decide (s.hostReset = .released)) = true := by decide

theorem witness_AliasedAddressesReadTheSame : s0.hostReset = .released ∧ 0x48 % 2 ^ s0.cfg.addrBits = 0x08 % 2 ^ s0.cfg.addrBits := by decide

theorem witness_EngineOutputIgnoresTheProtocol : ∃ t t',
    s0.cfg = ({ s0 with session := .awaitingCommand, listCursor := 2 } : State).cfg ∧ s0.hostReset = .released ∧
    (exec (.rdU 0xC6) s0 = .next t ∧ (t.dbusOut == .drive 0x4C) = true) ∧
    exec (.rdU 0xC6) { s0 with session := .awaitingCommand, listCursor := 2 } = .next t' ∧
      (t'.dbusOut == .drive 0x4C) = true := by
  have ⟨t, h⟩ := next_of_gives (o := exec (.rdU 0xC6) s0) (p := fun t => t.dbusOut == .drive 0x4C) (by decide)
  have ⟨t', h'⟩ := next_of_gives (o := exec (.rdU 0xC6) { s0 with session := .awaitingCommand, listCursor := 2 })
    (p := fun t => t.dbusOut == .drive 0x4C) (by decide)
  exact ⟨t, t', rfl, rfl, h, h'⟩

/-- Bank 2, the last one; bank 1, absent; 3, the first number out of range. -/
theorem witness_SelectThenUpperReadSeesTheBank : s0.hostReset = .released ∧
    gives (exec (.sel 2) s0) (fun u => u == { s0 with activeBank := .bank 2 }) = true ∧
    gives (exec (.sel 1) s0) (fun u => u == sNo) = true ∧ gives (exec (.sel 3) s0) (fun u => u == sNo) = true := by decide

theorem witness_LoadedImageReadsBack : ready s0 = true ∧ (2 : Byte).toNat < s0.cfg.n := by decide

theorem witness_IgnoredByteChangesNothing : (0xFF : Byte) ≠ tiny.prefixByte ∧ (0xFF : Byte) ∈ tiny.legacyIgnored := by decide

theorem witness_BankSelectStoresBankOrNoBank : (2 : Byte) ≠ tiny.prefixByte ∧ (2 : Byte) ∉ tiny.legacyIgnored ∧
    ((2 : Byte).toNat < s0.cfg.n ∧ s0.upperPresent.getLsbD 2 = true) ∧ s0.upperPresent.getLsbD 1 = false ∧
    ¬ (3 : Byte).toNat < s0.cfg.n := by decide

theorem witness_OnlyABankSelectByteWritesActiveBank :
    gives (step (turn .protocol { s0 with latchQ := [2] })) (fun t => t.activeBank != s0.activeBank) = true ∧
    gives (step (turn .protocolWhole { s0 with latchQ := [3] })) (fun t => t.activeBank != s0.activeBank) = true := by decide

theorem witness_DirFirstReportsTheFirstEntry :
    (ready { s0 with answers := [.fail] } = true ∧ dirEntry 0 { s0 with answers := [.fail] } = .fail) ∧
    (ready { s0 with storage := Storage.empty, answers := [.content] } = true ∧
      dirEntry 0 { s0 with storage := Storage.empty, answers := [.content] } = .endOfDir) ∧
    (ready { s0 with answers := [.content] } = true ∧
      dirEntry 0 { s0 with answers := [.content] } = .entry basicRom 16384) := by decide

theorem witness_DirNextReportsTheNextEntry :
    (ready s0 = true ∧ s0.dirCursor = none) ∧
    (ready { s0 with answers := [.fail], dirCursor := some 1 } = true ∧ dirEntry 1 { s0 with answers := [.fail] } = .fail) ∧
    (ready { s0 with answers := [.content], dirCursor := some 2 } = true ∧
      dirEntry 2 { s0 with answers := [.content] } = .endOfDir) ∧
    (ready { s0 with answers := [.content], dirCursor := some 1 } = true ∧
      dirEntry 1 { s0 with answers := [.content] } = .entry [0x41, 0x2E, 0x43, 0x46, 0x47] 20) := by decide

theorem witness_RomListFirstResetsTheCursor : ready { s0 with listCursor := 3 } = true := by decide

/-- Cursor 2, the last slot, present; 1, absent; 3, past the end. -/
theorem witness_RomListNextReportsOneSlot :
    (ready { s0 with listCursor := 3 } = true ∧ s0.cfg.n ≤ 3) ∧
    (ready { s0 with listCursor := 2 } = true ∧ ¬ s0.cfg.n ≤ 2 ∧ s0.upperPresent.getLsbD 2 = true) ∧
    (ready { s0 with listCursor := 1 } = true ∧ ¬ s0.cfg.n ≤ 1 ∧ s0.upperPresent.getLsbD 1 = false) := by decide

/-- A name that a byte above 0x7F ends, and one that `NAME_MAX` ends. -/
theorem witness_DecodedNameFollowsThePointer : s0.cfg.wf = true ∧ (decodeName 0 s0).length = 5 ∧
    (decodeName 2 s0).length = s0.cfg.nameMax := by decide

theorem witness_ListingPairsAreIndependent :
    gives (exec .dirFirst { sNo with answers := [.content], listCursor := 2 }) (fun t => t.listCursor == 2) = true ∧
    gives (exec .dirNext { sNo with listCursor := 2 }) (fun t => t.listCursor == 2) = true ∧
    gives (exec .romListFirst { sNo with dirCursor := some 1 }) (fun t => t.dirCursor == some 1) = true ∧
    gives (exec .romListNext { sNo with dirCursor := some 1 }) (fun t => t.dirCursor == some 1) = true := by decide

theorem witness_RejectedBankIsReportedOnly : ready s0 = true ∧ s0.cfg.n ≤ (3 : Byte).toNat ∧ s0.cfg.n ≤ (255 : Byte).toNat ∧
    s0.cfg.bankRangePolicy = .reject := by decide

/-- The last bank, the first number out of range under `Clamp`, and each answer. -/
theorem witness_RomInLoadsTheBank :
    (ready { s0 with answers := [.content] } = true ∧ (2 : Byte).toNat < s0.cfg.n ∧ 2 = (2 : Byte).toNat) ∧
    (ready { s0 with cfg := tinyClamp } = true ∧ tinyClamp.n ≤ (3 : Byte).toNat ∧ tinyClamp.bankRangePolicy = .clamp ∧
      2 = tinyClamp.n - 1) ∧
    readRom basicRom { s0 with answers := [.content] } = .ok image5A ∧
    readRom [] { s0 with answers := [.content] } = .fail := by decide

theorem witness_RomInLoadsTheBank_broken : ready { s0 with answers := [.broken] } = true ∧
    readRom basicRom { s0 with answers := [.broken] } = .broken (anyImage tiny 0) := ⟨by decide, rfl⟩

theorem witness_RomOutClearsTheBank :
    (ready s0 = true ∧ (2 : Byte).toNat < s0.cfg.n ∧ 2 = (2 : Byte).toNat) ∧
    (ready { s0 with cfg := tinyClamp } = true ∧ tinyClamp.n ≤ (3 : Byte).toNat ∧ tinyClamp.bankRangePolicy = .clamp ∧
      2 = tinyClamp.n - 1) := by decide

/-- A configuration that opens (one bank named, two not, no lower image) and one that does not, with and without a
reset pulse. -/
theorem witness_ConfigSetReplacesTheBankSet :
    (ready { s0 with answers := [.content] } = true ∧
      loadConfig [0x43] { s0 with answers := [.content] } = .ok { lower := none, upper := [some image5A, none, none] }) ∧
    (loadConfig [0x4D] { s0 with answers := [.content] } = .fail ∧ s0.cfg.cfgFailResets = false) ∧
    ready { s0 with cfg := { tiny with cfgFailResets := true }, answers := [.fail] } = true := by decide

theorem witness_LedSetsTheIndicator : ready s0 = true ∧ (0 : Byte) = 0 ∧ (1 : Byte) = 1 ∧ (2 : Byte) ≠ 0 ∧ (2 : Byte) ≠ 1 ∧
    ready { s0 with led := .on } = true := by decide

theorem witness_PicoloadEntersMaintenance : s0.hostReset = .released := by decide

theorem witness_UnknownCommandIsIgnored : (0x77 : Byte) ∉ tiny.selectors.toList ∧ (0x0A : Byte) ∉ tiny.selectors.toList ∧
    (0x00 : Byte) ∉ tiny.selectors.toList := by decide

theorem witness_CompletedCommandAdvancesTheSequenceByte :
    (ready s0 = true ∧ activeIndex s0 = some 0 ∧ activeIndex sAbsent = some 1) ∧
    (responds (.romOut 0) = true ∧ replacesImage (.romOut 0) (.upper 0) s0 = false) ∧
    replacesImage (.romIn 200 basicRom) (.upper 0) s0 = false ∧
    (replacesImage (.romIn 0 basicRom) (.upper 0) { s0 with answers := [.fail] } = false ∧
      replacesImage (.romIn 2 basicRom) (.upper 0) { s0 with answers := [.content] } = false) ∧
    (replacesImage (.cfgSet [0x4D]) (.upper 0) { s0 with answers := [.content] } = false ∧
      replacesImage (.cfgSet [0x43]) (.upper 1) { sAbsent with answers := [.content] } = false) := by decide

theorem witness_NoBankMeansNoResponse : activeIndex sNo = none ∧ responds (.romOut 3) = true ∧
    (∀ sel, replacesImage (.romOut 3) sel sNo = false) ∧
    gives (exec (.romOut 3) sNo) (fun t => t.mem == sNo.mem) = true ∧
    gives (exec .dirNext sNo) (fun t => t.mem == sNo.mem) = true :=
  ⟨by decide, by decide, fun _ => rfl, by decide, by decide⟩

/-- A file that is not found, and a configuration that is not. -/
theorem witness_NoBankMeansNoResponse_calls :
    (∀ sel, replacesImage (.romIn 1 []) sel { sNo with answers := [.content] } = false) ∧
    ∀ sel, replacesImage (.cfgSet [0x4D]) sel { sNo with answers := [.content] } = false := by
  refine ⟨fun sel => ?_, fun sel => rfl⟩
  have h : readRom [] { sNo with answers := [.content] } = .fail := by decide
  simp [replacesImage, h]
  split <;> rfl

/-- A byte that selects nothing, a fixed parameter, a string, no parameter. -/
theorem witness_SelectorByteChoosesTheCommand :
    ([0x77, 0x05, 0x07, 0x01].all fun b =>
      let s := turn .protocol { s0 with session := .awaitingCommand, latchQ := [b] }
      s.cfg.wf && decide (s.session = .awaitingCommand) && decide (s.latchQ = b :: []) && decide (s.sched = .protocol :: [])) =
      true ∧
    lookup tiny 0x77 = none ∧ lookup tiny 0x05 = some .romIn ∧ lookup tiny 0x07 = some .configSet ∧
    lookup tiny 0x01 = some .dirFirst := by decide

/-- Both ends of each phase. -/
theorem witness_ParameterBytesAreCollected :
    ([(Cmd.romIn, Phase.fixed, 2, 3), (.romIn, .fixed, 1, 3), (.romOut, .fixed, 1, 3), (.romIn, .len, 1, 0),
      (.romIn, .len, 1, 255), (.configSet, .str, 2, 0x41), (.configSet, .str, 1, 0x41)].all
      fun (k, ph, r, b) =>
        let s := turn .protocol { s0 with session := .collectingParams k ph r [] [], latchQ := [b] }
        s.cfg.wf && decide (s.session = .collectingParams k ph r [] []) && decide (1 ≤ r) && decide (s.latchQ = b :: []) &&
          decide (s.sched = .protocol :: [])) = true := by decide

theorem witness_BlockedProtocolDoesNothing :
    (tiny.wf = true ∧ (turn .protocol { held s0 with session := .maintenance }).session = .maintenance) ∧
    (s0.latchQ = [] ∧ ∀ k fixed buffer todo, s0.session ≠ .executing k fixed buffer todo) :=
  ⟨by decide, by decide, fun _ _ _ _ h => by cases h⟩

/-- `rom-out` of bank 2 about to clear its bit, with a byte waiting. -/
def clearing : State :=
  turn .protocol { held sNo with latchQ := [2], session := .executing .romOut [2] [] [.setPresent 2 false, .releaseReset] }

theorem witness_ExecutingTakesNoByte : isProtocolTurn (nextTurn clearing) = true ∧
    gives (step clearing) (fun t => t.latchQ == [2]) = true := by decide

theorem witness_WindowIsWrittenBeforeTheCounter : s0.cfg.wf = true ∧ activeIndex s0 = some 0 := by decide

theorem witness_MicroStepsAddUpToTheCommand : s0.cfg.wf = true ∧ Memory.wf s0.mem = true := by decide

theorem witness_WholeTurnIsItsSingleSteps : ready s0 = true ∧ s0.session = .idle ∧ Instr.wf tiny (.romIn 2 basicRom) = true ∧
    Instr.romIn 2 basicRom ≠ .pfx ∧ latchBytes tiny (.romIn 2 basicRom) ≠ [] ∧
    ({ s0 with latchQ := latchBytes tiny (.romIn 2 basicRom) ++ [2] } : State).latchQ =
      latchBytes tiny (.romIn 2 basicRom) ++ [2] := by decide

/-- A presence bit and a byte of the lower image, each written in a legal state. -/
theorem witness_ImagesChangeOnlyUnderReset :
    (clearing.cfg.wf = true ∧ clearing.legal = true ∧ nextTurn clearing ≠ .protocolWhole) ∧
    gives (step clearing) (fun t => t.upperPresent != clearing.upperPresent) = true := by decide

theorem witness_ImagesChangeOnlyUnderReset_byte :
    ({ clearing with session := .executing .configSet [] [0x43] [.write .lower 8 7, .releaseReset] } : State).legal = true ∧
    gives (step { clearing with session := .executing .configSet [] [0x43] [.write .lower 8 7, .releaseReset] })
      (fun t => Memory.read t.mem 8 != Memory.read clearing.mem 8) = true ∧ activeIndex clearing = none := by decide

theorem witness_HostReadCycleActs : tiny.wf = true ∧
    ((turn (.host (.present .upper 255)) s0).sched = .host (.present .upper 255) :: [] ∧ s0.hostReset = .released ∧
      s0.cycle = .idle ∧ 255 < 2 ^ tiny.hostAddrBits) ∧
    ({ s0 with cycle := .served, dbusOut := .drive 9 } : State).dbusOut = .drive 9 ∧
    ({ s0 with cycle := .served } : State).dbusOut = .hiZ ∧ (turn (.host .drop) s0).sched = .host .drop :: [] ∧
    ((turn (.host (.breach .upper 255)) (held s0)).sched = .host (.breach .upper 255) :: [] ∧
      (held s0).hostReset = .asserted) := by decide

/-- Each clause runs: the five acts, and the four turns in which one is not enabled. -/
theorem witness_HostReadCycleActs_clauses :
    gives (step (turn (.host (.present .upper 255)) { s0 with cycle := .ending })) (fun t => t.cycle == .presented) = true ∧
    gives (step (turn (.host .sample) { s0 with cycle := .served, dbusOut := .drive 9 })) (fun t =>
      t.trace == [.read .lower 0 9]) = true ∧
    gives (step (turn (.host .sample) { s0 with cycle := .served })) (fun t => t.cycle == .sampled) = true ∧
    gives (step (turn (.host .drop) { s0 with cycle := .sampled })) (fun t => t.cycle == .ending) = true ∧
    gives (step (turn (.host (.breach .upper 255)) (held s0))) (fun t => t.addr == 255) = true ∧
    gives (step (turn (.host (.present .upper 5)) { s0 with cycle := .served })) (fun t => t.addr == 0) = true ∧
    gives (step (turn (.host .sample) { s0 with cycle := .sampled })) (fun t => t.trace == []) = true ∧
    gives (step (turn (.host .drop) { s0 with cycle := .served })) (fun t => t.cycle == .served) = true ∧
    gives (step (turn (.host (.breach .upper 5)) s0)) (fun t => t.addr == 0) = true := by decide

theorem witness_LatchWriteQueuesTheByte : tiny.wf = true ∧ (turn (.host (.latch 7)) s0).sched = .host (.latch 7) :: [] ∧
    (s0.hostReset = .released ∧ s0.cycle = .idle ∧ ({ s0 with latchQ := [1] } : State).latchQ.length < tiny.latchQDepth) ∧
    (held s0).hostReset = .asserted ∧ ({ s0 with cycle := .ending } : State).cycle ≠ .idle := by decide

theorem witness_LatchOverflowIsMarked : tiny.wf = true ∧ (turn (.host (.latch 7)) s0).sched = .host (.latch 7) :: [] ∧
    s0.hostReset = .released ∧ s0.cycle = .idle ∧
    tiny.latchQDepth ≤ ({ s0 with latchQ := [1, 2] } : State).latchQ.length := by decide

theorem witness_EngineTurnRunsTheDecodedSample : s0.cfg.wf = true ∧ (turn .engine s0).sched = .engine :: [] := by decide

theorem witness_ProtocolTurnRunsTheDecodedByte : s0.cfg.wf = true ∧ (turn .protocol s0).sched = .protocol :: [] ∧
    s0.session = .idle ∧ ({ s0 with latchQ := [0xFC, 0x01] } : State).latchQ = 0xFC :: [0x01] := by decide

theorem witness_WholeTurnRunsTheDecodedInstruction : s0.cfg.wf = true ∧
    (turn .protocolWhole s0).sched = .protocolWhole :: [] ∧ s0.session = .idle ∧
    decode tiny [0xFC, 0x06, 0x02, 0x01] = .instr (.romOut 2) [0x01] := by decide

theorem witness_MaintenanceIsFinal :
    gives (step (turn .protocol { held s0 with session := .maintenance, latchQ := [1] })) (fun t => t.latchQ == [1]) = true ∧
    gives (step (turn (.host (.latch 7)) { held s0 with session := .maintenance })) (fun t => t.latchQ == []) = true ∧
    gives (step (turn (.host (.latch 7)) { s0 with session := .maintenance, latchQ := [1, 2] }))
      (fun t => t.marks.latchOverflow) = true ∧
    gives (step (turn .engine { held s0 with session := .maintenance, dbusOut := .drive 3 }))
      (fun t => t.dbusOut == .hiZ) = true := by decide

theorem witness_IllFormedConfigurationIsRefused :
    ({ tiny with prefixByte := 2 } : Config).prefixByte.toNat < tiny.n ∧
    (0xFC : Byte) ∈ ({ tiny with legacyIgnored := [0xFC] } : Config).legacyIgnored ∧
    ¬ ({ Selectors.default with led := 0x01 } : Selectors).toList.Nodup ∧
    ({ tiny with statusError := 0 } : Config).statusError = 0 ∧ ({ tiny with statusError := 1 } : Config).statusError = 1 ∧
    tiny.romSize < 49 + tiny.respSize ∧ ({ tiny with respOffset := 3, namePtrOffset := 1 } : Config).respOffset < 4 ∧
    tiny.respOffset ≤ ({ tiny with namePtrOffset := 31 } : Config).namePtrOffset + 1 := by decide

theorem witness_TheBlockNeverStops : tiny.wf = true ∧ nextTurn (turn .protocol s0) = .protocol ∧
    nextTurn (turn (.host (.present .upper 255)) s0) = .host (.present .upper 255) ∧
    nextTurn (turn (.host (.breach .upper 255)) s0) = .host (.breach .upper 255) ∧ 255 < 2 ^ tiny.hostAddrBits := by decide

theorem witness_ConfigurationAndStorageAreFixed : gives (step clearing) (fun t => t.cfg == tiny) = true := by decide

theorem witness_MarksAreNeverCleared :
    gives (step { clearing with marks := { latchOverflow := true, readUnderMutation := false } })
      (fun t => t.marks.latchOverflow) = true ∧
    gives (step { clearing with marks := { latchOverflow := false, readUnderMutation := true } })
      (fun t => t.marks.readUnderMutation) = true := by decide

theorem witness_OnlyTheEngineWritesTheBus : nextTurn clearing ≠ .engine ∧
    gives (step { clearing with dbusOut := .drive 3 }) (fun t => t.dbusOut == .drive 3) = true := by decide

theorem witness_EveryStepKeepsMemoryCanonical : Memory.wf clearing.mem = true ∧
    gives (step { clearing with session := .executing .configSet [] [0x43] [.write .lower 8 0, .releaseReset] })
      (fun t => Memory.read t.mem 8 == 0) = true := by decide

theorem witness_EveryStepKeepsTheStateLegal : clearing.legal = true ∧ gives (step clearing) State.legal = true ∧
    isBreach (nextTurn clearing) = false ∧ heldQuiet clearing = true ∧
    (turn (.host (.breach .lower 8)) clearing).legal = true ∧
    gives (step (turn (.host (.breach .lower 8)) clearing)) (fun t => t.legal && !heldQuiet t) = true := by decide

theorem witness_CollaboratorsAnswerFromTheStorage :
    tinyStorage.roms = [] ++ (basicRom, image5A) :: [] ∧ (∀ e ∈ tinyStorage.roms, e.1 ≠ []) ∧
    (Storage.empty.dir = some [] ∧ ([] : List DirItem).length ≤ 0) ∧
    (({ name := basicRom, size := 16384 } : DirItem) ∈ (tinyStorage.dir.getD [])[0]?) ∧
    tinyStorage.configs = [] ++ ([0x43], { lower := none, upper := [some image5A, none, none] }) :: [] ∧
    (∀ e ∈ tinyStorage.configs, e.1 ≠ [0x4D]) ∧ ({ Storage.empty with dir := none } : Storage).dir = none ∧
    ({ s0 with answers := [.broken] } : State).answers = .broken :: [] := by decide

end Sys2Proof.Tests
end

section
/-!
PROOFS. The scope of the model (R5 to R7, R37): what the machine refuses to start with, and the state it starts in.
-/

namespace Sys2Proof.Machine

/-! ## Well-formed configurations -/

/-- What a well-formed configuration says of the bytes of the protocol (R6). -/
theorem wf_bytes {c : Config} (h : c.wf = true) :
    c.n ≤ c.prefixByte.toNat ∧ c.prefixByte ∉ c.legacyIgnored ∧ c.selectors.toList.Nodup ∧
      c.statusError ≠ 0 ∧ c.statusError ≠ 1 := by
  simp only [Config.wf, Config.bytesOk, Bool.and_eq_true, Bool.not_eq_true', List.contains_eq_mem,
    decide_eq_true_eq, decide_eq_false_iff_not] at h
  tauto

/-- In a well-formed configuration the Response Window leaves out the header bytes and the name pointer (R7). -/
theorem wf_window {c : Config} (h : c.wf = true) : 4 ≤ c.respOffset ∧ c.namePtrOffset + 1 < c.respOffset := by
  simp only [Config.wf, Config.windowOk, Bool.and_eq_true, decide_eq_true_eq] at h
  omega

/-- The other branch of `step_wf`. -/
theorem step_not_wf {s : State} (h : ¬ s.cfg.wf = true) : step s = .refused .illFormedConfig := by
  change (if s.cfg.wf = true then _ else _) = _
  rw [if_neg h]

/-- Settles O51: each condition contradicts one conjunct of well-formedness. -/
theorem illFormedConfigurationIsRefused : Obligations.IllFormedConfigurationIsRefused := by
  intro s bad
  apply step_not_wf
  intro wf
  obtain ⟨prefixAbove, prefixKept, nodup, notOk, notDone⟩ := wf_bytes wf
  obtain ⟨-, fits, -, -⟩ := wf_sizes wf
  obtain ⟨aboveHeader, abovePointer⟩ := wf_window wf
  rcases bad with isBank | ignored | clash | ok | done | leaves | onHeader | onPointer
  · omega
  · exact prefixKept ignored
  · exact clash nodup
  · exact notOk ok
  · exact notDone done
  · omega
  · omega
  · omega

/-! ## The state at launch -/

/-- A launch starts the host's cycle and the bus as its `rom_enable` has them (R37, R126). -/
theorem cycleOk_launch (p : Launch) : cycleOk (State.launch p) = true := by
  cases enabled : p.romEnable <;> simp [cycleOk, State.launch, inCycle, enabled]

/-- A launch starts with no command under way and the host released (R37, R107). -/
theorem sessionOk_launch (p : Launch) : sessionOk (State.launch p) = true := rfl

/-- A launch is legal exactly when its free parameters are in range: what R37 fixes always is. -/
theorem legal_launch_iff {p : Launch} :
    (State.launch p).legal = true ↔
      activeOk (State.launch p) = true ∧ maskOk (State.launch p) = true ∧ memOk (State.launch p) = true ∧
        cursorOk (State.launch p) = true ∧ inputOk (State.launch p) = true := by
  simp only [State.legal, cycleOk_launch, sessionOk_launch, Bool.and_eq_true, and_true, and_assoc]

/-- The placeholder defaults of R5 meet the constraints of R5 to R7. -/
theorem default_wf : Config.default.wf = true := by decide

/-- Settles O58: reset is a launch, and its parameters are in range. -/
theorem resetStateIsLegal : Obligations.ResetStateIsLegal :=
  ⟨default_wf, legal_launch_iff.2 (by decide)⟩

end Sys2Proof.Machine
end

section
/-!
PROOFS. What a legal state's store is, and that a micro-step which keeps the bracket keeps it (R13, R19, R40, R55);
what planning a command leaves unchanged.
-/

namespace Sys2Proof.Machine

/-! ## The store and the list cursor: what commands write -/

/-- The mask, image memory and the list cursor are in range (R13, R19, R40). -/
structure StoreOk (s : State) : Prop where
  mask : maskOk s = true
  mem : memOk s = true
  cursor : cursorOk s = true

/-- A legal state, sorted by who writes what: the select byte, the host and the engine, the commands, the protocol. -/
theorem legal_iff {s : State} : s.legal = true ↔
    activeOk s = true ∧ inputOk s = true ∧ cycleOk s = true ∧ StoreOk s ∧ sessionOk s = true := by
  simp only [State.legal, Bool.and_eq_true]
  constructor
  · rintro ⟨⟨⟨⟨⟨⟨active, mask⟩, mem⟩, cursor⟩, input⟩, cycle⟩, session⟩
    exact ⟨active, input, cycle, ⟨mask, mem, cursor⟩, session⟩
  · rintro ⟨active, input, cycle, ⟨mask, mem, cursor⟩, session⟩
    exact ⟨⟨⟨⟨⟨⟨active, mask⟩, mem⟩, cursor⟩, input⟩, cycle⟩, session⟩

theorem StoreOk.canonical {s : State} (ok : StoreOk s) : Memory.wf s.mem = true := by
  have mem := ok.mem
  simp only [memOk, Bool.and_eq_true] at mem
  exact mem.1

theorem StoreOk.congr {s t : State} (ok : StoreOk s) (cfg : t.cfg = s.cfg) (mem : t.mem = s.mem)
    (mask : t.upperPresent = s.upperPresent) (cursor : t.listCursor = s.listCursor) : StoreOk t := by
  refine ⟨?_, ?_, ?_⟩
  · rw [maskOk, cfg, mask]
    exact ok.mask
  · rw [memOk, cfg, mem]
    exact ok.mem
  · rw [cursorOk, cfg, cursor]
    exact ok.cursor

/-- A byte written inside an image keeps memory inside the images. -/
theorem memOk_imgWrite {sel : ImgSel} {offset : Nat} {v : Byte} {s : State}
    (inside : insideImage s.cfg sel offset = true) (ok : memOk s = true) : memOk (imgWrite sel offset v s) = true := by
  have below : imgAddr s.cfg sel offset < imageBytes s.cfg := by
    simp only [insideImage, Bool.and_eq_true, decide_eq_true_eq] at inside
    obtain ⟨offsetLt, bank⟩ := inside
    cases sel with
    | lower => exact imgAddr_lower_lt offsetLt
    | upper n => exact imgAddr_upper_lt (by simpa using bank) offsetLt
  simp only [memOk, Bool.and_eq_true, List.all_eq_true, decide_eq_true_eq] at ok ⊢
  obtain ⟨canonical, listed⟩ := ok
  refine ⟨Memory.wf_write canonical, fun cell hcell => ?_⟩
  rcases Memory.mem_write hcell with old | rfl
  · exact listed cell old
  · exact below

/-! ## One micro-step along the bracket -/

/-- A micro-step that keeps the bracket keeps the store. -/
theorem runPlain_storeOk {win : Option Nat} {fin line : HostReset} {m : Micro} {ms : List Micro} {s : State}
    (wf : s.cfg.wf = true) (plain : isPlain m = true) (h : bracketed s.cfg win fin line (m :: ms) = true)
    (ok : StoreOk s) : StoreOk (runPlain m s) := by
  obtain ⟨windowSize, windowInside, -, banks⟩ := wf_sizes wf
  cases m <;> simp only [bracketed, Bool.and_eq_true, decide_eq_true_eq] at h
  case callDir => cases plain
  case callRead => cases plain
  case callConfig => cases plain
  case write sel offset v =>
    obtain ⟨⟨inside, -⟩, -⟩ := h
    exact ⟨ok.mask, memOk_imgWrite inside ok.mem, ok.cursor⟩
  case bumpSeq n =>
    obtain ⟨⟨bank, -⟩, -⟩ := h
    have inside : insideImage s.cfg (.upper n) s.cfg.respOffset = true := by
      simp [insideImage, bank]
      omega
    exact ⟨ok.mask, memOk_imgWrite inside ok.mem, ok.cursor⟩
  case setPresent n bit =>
    obtain ⟨⟨bank, -⟩, -⟩ := h
    have mask : s.upperPresent.toNat < 2 ^ s.cfg.n := by simpa [maskOk] using ok.mask
    exact ⟨decide_eq_true (maskWithBit_lt mask bank banks), ok.mem, ok.cursor⟩
  case clearPresent => exact ⟨decide_eq_true (Nat.two_pow_pos _), ok.mem, ok.cursor⟩
  case setListCursor k => exact ⟨ok.mask, ok.mem, decide_eq_true h.1⟩
  case assertReset => apply ok.congr <;> simp [runPlain, runMicro]
  case releaseReset => apply ok.congr <;> simp [runPlain, runMicro]
  case setDirCursor k => apply ok.congr <;> simp [runPlain, runMicro]
  case setLed l => apply ok.congr <;> simp [runPlain, runMicro]

/-- After a micro-step the rest of its list keeps the bracket from where the line then is. -/
theorem bracketed_runPlain {win : Option Nat} {fin : HostReset} {m : Micro} {ms : List Micro} {s : State}
    (plain : isPlain m = true) (h : bracketed s.cfg win fin s.hostReset (m :: ms) = true) :
    bracketed s.cfg win fin (runPlain m s).hostReset ms = true := by
  cases m <;> simp only [bracketed, Bool.and_eq_true] at h
  case callDir => cases plain
  case callRead => cases plain
  case callConfig => cases plain
  case assertReset => simpa [runPlain, runMicro] using h.2
  case releaseReset => simpa [runPlain, runMicro] using h.2
  case setDirCursor k => exact h
  case setLed l => simpa [runPlain, runMicro] using h
  all_goals exact h.2

/-- A list that keeps the bracket, run to its end, keeps the store and leaves the line where the bracket says. -/
theorem runPlains_storeOk {win : Option Nat} {fin : HostReset} {ms : List Micro} {s : State} (wf : s.cfg.wf = true)
    (plain : ∀ m ∈ ms, isPlain m = true) (h : bracketed s.cfg win fin s.hostReset ms = true) (ok : StoreOk s) :
    StoreOk (runPlains ms s) ∧ (runPlains ms s).hostReset = fin := by
  induction ms generalizing s with
  | nil => exact ⟨ok, by simpa [bracketed, runPlains] using h⟩
  | cons m ms ih =>
    have first := plain m List.mem_cons_self
    have cfg : (runPlain m s).cfg = s.cfg := (runMicro_keeps m [] s).cfg
    refine ih (s := runPlain m s) (cfg ▸ wf) (fun x hx => plain x (List.mem_cons_of_mem _ hx)) ?_
      (runPlain_storeOk wf first h ok)
    rw [cfg]
    exact bracketed_runPlain first h

/-! ## Planning -/

/-- From `s` to `t` a command has been planned: an answer taken and draws made, nothing else. -/
def Planned (s t : State) : Prop := t = { s with draws := t.draws, answers := t.answers }

theorem Planned.refl (s : State) : Planned s s := rfl

theorem Planned.trans {s t u : State} (h : Planned s t) (k : Planned t u) : Planned s u := by
  unfold Planned at h k ⊢
  rw [k, h]

theorem Planned.storeOk {s t : State} (h : Planned s t) (ok : StoreOk s) : StoreOk t := by
  rw [h]
  exact ⟨ok.mask, ok.mem, ok.cursor⟩

theorem Planned.cfg {s t : State} (h : Planned s t) : t.cfg = s.cfg := by rw [h]

theorem Planned.mem {s t : State} (h : Planned s t) : t.mem = s.mem := by rw [h]

theorem Planned.hostReset {s t : State} (h : Planned s t) : t.hostReset = s.hostReset := by rw [h]

theorem Planned.activeIndex {s t : State} (h : Planned s t) : activeIndex t = activeIndex s := by
  rw [h]
  rfl

theorem answered_planned (s : State) : Planned s (answered s) := rfl

theorem respondDrawn_planned (s : State) : Planned s (respondDrawn s) := by
  unfold respondDrawn
  split <;> rfl

theorem planDir_planned (k : Nat) (a : DirAnswer) (s : State) : Planned s (planDir k a s).2 := by
  cases a <;> exact respondDrawn_planned s

theorem planRead_planned (n : Nat) (path : List Byte) (bit : Bool) (a : ReadAnswer) (s : State) :
    Planned s (planRead n path bit a s).2 := by
  cases a <;> exact respondDrawn_planned s

theorem planConfig_planned (name : List Byte) (a : LoadAnswer) (s : State) : Planned s (planConfig name a s).2 := by
  cases a <;> exact respondDrawn_planned s

theorem planListNext_planned (s : State) : Planned s (planListNext s).2 := by
  unfold planListNext
  split
  · exact respondDrawn_planned s
  · split <;> exact respondDrawn_planned s

theorem stepsOf_planned (k : Cmd) (fixed buffer : List Byte) (s : State) : Planned s (stepsOf k fixed buffer s).2 := by
  cases k
  case dirFirst => exact .refl s
  case dirNext =>
    simp only [stepsOf]
    split
    · exact respondDrawn_planned s
    · exact .refl s
  case romListFirst => exact respondDrawn_planned s
  case romListNext => exact planListNext_planned s
  case romIn =>
    simp only [stepsOf]
    split
    · exact respondDrawn_planned s
    · exact .refl s
  case romOut =>
    simp only [stepsOf]
    split <;> exact respondDrawn_planned s
  case configSet => exact .refl s
  case led => exact .trans (t := drawn s) rfl (respondDrawn_planned _)
  case picoload => exact .refl s

/-- A micro-step keeps the canonical form of memory. -/
theorem runMicro_wf (m : Micro) (todo : List Micro) {s : State} (w : Memory.wf s.mem = true) :
    Memory.wf (runMicro m todo s).2.mem = true := by
  cases m
  case callDir k => exact ((answered_planned s).trans (planDir_planned _ _ _)).mem.symm ▸ w
  case callRead n path => exact ((answered_planned s).trans (planRead_planned _ _ _ _ _)).mem.symm ▸ w
  case callConfig name => exact ((answered_planned s).trans (planConfig_planned _ _ _)).mem.symm ▸ w
  case write => exact Memory.wf_write w
  case bumpSeq => exact Memory.wf_write w
  all_goals simpa [runMicro] using w

theorem runPlains_wf (ms : List Micro) {s : State} (w : Memory.wf s.mem = true) :
    Memory.wf (runPlains ms s).mem = true := by
  induction ms generalizing s with
  | nil => exact w
  | cons m ms ih => exact ih (s := runPlain m s) (runMicro_wf m [] w)

end Sys2Proof.Machine
end

section
/-!
PROOFS. Every step keeps a legal state legal (R13 to R25, R107, R126, R264). What Context B writes is followed a
micro-step at a time, along the bracket its plan keeps; a command run whole is its plan run to the end.
-/

namespace Sys2Proof.Machine

/-! ## The session, a step at a time -/

/-- What is left to show of a state Context B has stepped to, beyond `ProtocolKeeps`. -/
structure CommandOk (s : State) : Prop where
  store : StoreOk s
  session : sessionOk s = true

/-- A plan that keeps the bracket to the line its command ends with is a legal session, also where nothing is left. -/
theorem underWay_ok {k : Cmd} {fixed buffer : List Byte} {p : Plan} (store : StoreOk p.2)
    (params : paramsOk k fixed buffer = true)
    (h : bracketed p.2.cfg (activeIndex p.2) (finalLine k) p.2.hostReset p.1 = true) :
    CommandOk (underWay k fixed buffer p) := by
  unfold underWay
  split
  · rename_i finished
    rw [finished] at h
    have line : p.2.hostReset = finalLine k := by simpa [bracketed] using h
    refine ⟨store.congr rfl rfl rfl rfl, ?_⟩
    cases k <;> simp [sessionOk, afterCmd, line, finalLine]
  · rename_i m ms todo
    rw [todo] at h
    refine ⟨store.congr rfl rfl rfl rfl, ?_⟩
    simp only [sessionOk, params, Bool.true_and, Bool.and_eq_true]
    exact ⟨by simp, h⟩

/-- A command starts legally once its parameters are whole (R107). -/
theorem startCmd_ok {k : Cmd} {fixed buffer : List Byte} {s : State} (wf : s.cfg.wf = true)
    (line : s.hostReset = .released) (store : StoreOk s) (params : paramsOk k fixed buffer = true) :
    CommandOk (startCmd k fixed buffer s) := by
  have planned := stepsOf_planned k fixed buffer s
  refine underWay_ok (planned.storeOk store) params ?_
  rw [planned.cfg, planned.activeIndex, planned.hostReset, line]
  exact bracketed_stepsOf wf

theorem collect_ok {k : Cmd} {ph : Phase} {remaining : Nat} {fixed buffer : List Byte} {s : State}
    (line : s.hostReset = .released) (store : StoreOk s) (h : collectOk k ph remaining fixed buffer = true) :
    CommandOk (collect k ph remaining fixed buffer s) :=
  ⟨store.congr rfl rfl rfl rfl, by simp [sessionOk, collect, line, h]⟩

theorem afterFixed_ok {k : Cmd} {fixed : List Byte} {s : State} (wf : s.cfg.wf = true)
    (line : s.hostReset = .released) (store : StoreOk s) (length : fixed.length = k.nfixed) :
    CommandOk (afterFixed k fixed s) := by
  unfold afterFixed
  split
  · rename_i string
    exact collect_ok line store (by simp [collectOk, length, string])
  · exact startCmd_ok wf line store (by simp [paramsOk, length])

theorem selected_ok {k : Cmd} {s : State} (wf : s.cfg.wf = true) (line : s.hostReset = .released)
    (store : StoreOk s) : CommandOk (selected k s) := by
  unfold selected
  split
  · exact collect_ok line store (by simp [collectOk]; omega)
  · exact afterFixed_ok wf line store (by simp; omega)

/-- A parameter byte, by the phase of the collecting session (R147, R148, R149). -/
theorem collectByte_ok {k : Cmd} {ph : Phase} {remaining : Nat} {fixed buffer : List Byte} {b : Byte} {s : State}
    (wf : s.cfg.wf = true) (line : s.hostReset = .released) (store : StoreOk s)
    (h : collectOk k ph remaining fixed buffer = true) :
    CommandOk (collectByte k ph remaining fixed buffer b s) := by
  unfold collectByte
  cases ph <;> simp only [collectOk, Bool.and_eq_true, decide_eq_true_eq] at h
  case fixed =>
    obtain ⟨⟨_, length⟩, empty⟩ := h
    simp only
    split
    · exact collect_ok line store (by simp [collectOk, empty]; omega)
    · exact afterFixed_ok wf line store (by simp; omega)
  case len =>
    obtain ⟨⟨⟨_, length⟩, string⟩, _⟩ := h
    simp only
    split
    · exact startCmd_ok wf line store (by simp [paramsOk, length])
    · rename_i nonzero
      have positive : b.toNat ≠ 0 := fun e => nonzero (BitVec.eq_of_toNat_eq e)
      have byte := b.isLt
      exact collect_ok line store (by simp [collectOk, length, string]; omega)
  case str =>
    obtain ⟨⟨⟨_, length⟩, string⟩, room⟩ := h
    simp only
    split
    · exact collect_ok line store (by simp [collectOk, length, string]; omega)
    · exact startCmd_ok wf line store (by simp [paramsOk, length, string]; omega)

/-- What a legal executing session asks for (R18, R107). -/
theorem sessionOk_executing {k : Cmd} {fixed buffer : List Byte} {todo : List Micro} {s : State}
    (h : s.session = .executing k fixed buffer todo) (ok : sessionOk s = true) :
    paramsOk k fixed buffer = true ∧ todo ≠ [] ∧
      bracketed s.cfg (activeIndex s) (finalLine k) s.hostReset todo = true := by
  simpa only [sessionOk, h, Bool.and_eq_true, decide_eq_true_eq, and_assoc] using ok

/-- A collaborator's answer plans the rest of a command along the bracket, from the line released (R197). -/
theorem runMicro_call {m : Micro} {ms : List Micro} {win : Option Nat} {fin line : HostReset} {s : State}
    (wf : s.cfg.wf = true) (call : isPlain m = false) (h : bracketed s.cfg win fin line (m :: ms) = true) :
    line = .released ∧ fin = .released ∧ Planned s (runMicro m ms s).2 ∧
      bracketed s.cfg (activeIndex s) .released .released (runMicro m ms s).1 = true := by
  cases m <;> simp only [bracketed, Bool.and_eq_true, decide_eq_true_eq] at h
  case callDir k =>
    exact ⟨h.1.2, h.2, (answered_planned s).trans (planDir_planned _ _ _), bracketed_planDir (s := answered s) wf⟩
  case callRead n path =>
    obtain ⟨⟨⟨bank, _⟩, released⟩, final⟩ := h
    exact ⟨released, final, (answered_planned s).trans (planRead_planned _ _ _ _ _),
      bracketed_planRead (s := answered s) wf bank⟩
  case callConfig name =>
    exact ⟨h.1.2, h.2, (answered_planned s).trans (planConfig_planned _ _ _), bracketed_planConfig (s := answered s) wf⟩
  all_goals cases call

/-- A micro-step of a legal session leads to one (R150, R152). -/
theorem microStep_ok {k : Cmd} {fixed buffer : List Byte} {todo : List Micro} {s : State} (wf : s.cfg.wf = true)
    (h : s.session = .executing k fixed buffer todo) (ok : CommandOk s) :
    CommandOk (microStep k fixed buffer todo s) := by
  obtain ⟨params, nonempty, keeps⟩ := sessionOk_executing h ok.session
  cases todo with
  | nil => exact absurd rfl nonempty
  | cons m ms =>
    cases plain : isPlain m with
    | true =>
      have frame : CommandKeeps s (runPlain m s) := runMicro_keeps m [] s
      rw [microStep, runMicro_plain plain]
      refine underWay_ok (runPlain_storeOk wf plain keeps ok.store) params ?_
      rw [frame.cfg, activeIndex_congr frame.cfg frame.activeBank]
      exact bracketed_runPlain plain keeps
    | false =>
      obtain ⟨released, final, planned, rest⟩ := runMicro_call wf plain keeps
      refine underWay_ok (planned.storeOk ok.store) params ?_
      rw [planned.cfg, planned.activeIndex, planned.hostReset, released, final]
      exact rest

/-- A byte received in `Idle` leads from a legal state to one (R141 to R144). -/
theorem idleByte_ok {b : Byte} {s t : State} (h : exec (decodeIdle s.cfg b) s = .next t)
    (idle : s.session = .idle) (ok : CommandOk s) : CommandOk t := by
  have line : s.hostReset = .released := by simpa [sessionOk, idle] using ok.session
  unfold decodeIdle at h
  split at h
  · cases h
    exact ⟨ok.store.congr rfl rfl rfl rfl, decide_eq_true line⟩
  · split at h
    · cases h
      exact ok
    · cases h
      exact ⟨ok.store.congr rfl rfl rfl rfl, by simp [sessionOk, idle, line]⟩

/-- Taking bytes off the queue leaves the rest of the state legal. -/
theorem CommandOk.latchQ {s : State} (ok : CommandOk s) (q : List Byte) : CommandOk { s with latchQ := q } :=
  ⟨ok.store.congr rfl rfl rfl rfl, ok.session⟩

/-- A step of Context B keeps what a command writes, and its session, legal. -/
theorem protocolStep_ok {s t : State} (wf : s.cfg.wf = true) (ok : CommandOk s) (h : protocolStep s = .next t) :
    CommandOk t := by
  unfold protocolStep at h
  split at h
  · rename_i session
    cases h
    exact microStep_ok wf session ok
  · cases h
    exact ok
  · rename_i b q session _
    exact idleByte_ok (s := { s with latchQ := q }) h session (ok.latchQ q)
  · rename_i b q session _
    have line : s.hostReset = .released := by simpa [sessionOk, session] using ok.session
    unfold selectorByte at h
    split at h
    · cases h
      exact ⟨ok.store.congr rfl rfl rfl rfl, decide_eq_true line⟩
    · cases h
      exact selected_ok wf line (ok.latchQ q).store
  · rename_i b q session _
    cases h
    have collecting := ok.session
    simp only [sessionOk, session, Bool.and_eq_true, decide_eq_true_eq] at collecting
    exact collectByte_ok wf collecting.1 (ok.latchQ q).store collecting.2
  all_goals
    cases h
    exact ok

/-! ## A command run whole -/

/-- A plan made in `s`, which keeps the bracket from the line released to `fin`, ends in `t`. -/
def PlannedTo (fin : HostReset) (s t : State) : Prop :=
  ∃ p, PlanDoes p t ∧ Planned s p.2 ∧ bracketed s.cfg (activeIndex s) fin .released p.1 = true

theorem PlannedTo.ofPlanned {fin : HostReset} {s t u : State} (h : Planned s t) (k : PlannedTo fin t u) :
    PlannedTo fin s u := by
  obtain ⟨p, does, planned, keeps⟩ := k
  rw [h.cfg, h.activeIndex] at keeps
  exact ⟨p, does, h.trans planned, keeps⟩

/-- A plan that keeps the bracket leaves the store legal, and the line where the bracket says. -/
theorem PlannedTo.ok {fin : HostReset} {s t : State} (h : PlannedTo fin s t) (wf : s.cfg.wf = true)
    (line : s.hostReset = .released) (store : StoreOk s) : StoreOk t ∧ t.hostReset = fin := by
  obtain ⟨p, does, planned, keeps⟩ := h
  rw [← line, ← planned.hostReset, ← planned.activeIndex, ← planned.cfg] at keeps
  rw [← planned.cfg] at wf
  rw [← does.effect]
  exact runPlains_storeOk wf does.plain keeps (planned.storeOk store)

theorem assertReset_plannedTo (s : State) : PlannedTo .asserted s (assertReset s) :=
  ⟨([.assertReset], s), ⟨by simp [isPlain], rfl⟩, .refl s, by simp [bracketed]⟩

section Commands

variable {s : State} (wf : s.cfg.wf = true) (w : Memory.wf s.mem = true)
include wf w

/-- Micro-steps, then a response. -/
theorem respond_plannedTo {before : List Micro} (st : Status) (kind : Kind) (text : List Byte) {t : State}
    (plain : ∀ m ∈ before, isPlain m = true) (keeps : bracketed s.cfg (activeIndex s) .released .released before = true)
    (effect : runPlains before s = t) : PlannedTo .released s (respond st kind text t) :=
  ⟨_, planRespond_does plain effect (effect ▸ runPlains_wf before w), respondDrawn_planned s,
    bracketed_planRespond wf plain keeps⟩

theorem raiseError_plannedTo (e : Cause) : PlannedTo .released s (raiseError e s) :=
  respond_plannedTo wf w (before := []) _ _ _ (by simp) rfl rfl

theorem dirLine_plannedTo (k : Nat) : PlannedTo .released s (dirLine k s) :=
  .ofPlanned (answered_planned s)
    ⟨_, planDir_does k _ w, planDir_planned _ _ _, bracketed_planDir (s := answered s) wf⟩

theorem dirNext_plannedTo : PlannedTo .released s (dirNext s) := by
  unfold dirNext
  split
  · exact respond_plannedTo wf w (before := []) _ _ _ (by simp) rfl rfl
  · exact dirLine_plannedTo wf w _

theorem romListFirst_plannedTo : PlannedTo .released s (romListFirst s) :=
  respond_plannedTo wf w (before := [.setListCursor 0]) _ _ _ (by simp [isPlain]) (by simp [bracketed]) rfl

theorem romListNext_plannedTo : PlannedTo .released s (romListNext s) := by
  have slot (below : ¬ s.cfg.n ≤ s.listCursor) (kind : Kind) (text : List Byte) :
      PlannedTo .released s (respond .ok kind text (setListCursor (s.listCursor + 1) s)) :=
    respond_plannedTo wf w (before := [.setListCursor (s.listCursor + 1)]) _ _ _ (by simp [isPlain])
      (by simp [bracketed]; omega) rfl
  unfold romListNext
  split
  · exact respond_plannedTo wf w (before := []) _ _ _ (by simp) rfl rfl
  · split <;> exact slot ‹_› _ _

theorem romIn_plannedTo (p0 : Byte) (path : List Byte) : PlannedTo .released s (romIn p0 path s) := by
  unfold romIn
  split
  · exact raiseError_plannedTo wf w _
  · rename_i n bank
    exact .ofPlanned (answered_planned s) ⟨_, planRead_does n path _ _ w, planRead_planned _ _ _ _ _,
      bracketed_planRead (s := answered s) wf (resolveBank_lt wf bank)⟩

theorem romOut_plannedTo (p0 : Byte) : PlannedTo .released s (romOut p0 s) := by
  unfold romOut
  split
  · exact raiseError_plannedTo wf w _
  · rename_i n bank
    exact respond_plannedTo wf w (before := [.assertReset, .setPresent n false, .releaseReset]) _ _ _
      (by simp [isPlain]) (by simp [bracketed, resolveBank_lt wf bank]) rfl

theorem cfgSet_plannedTo (name : List Byte) : PlannedTo .released s (cfgSet name s) :=
  .ofPlanned (answered_planned s)
    ⟨_, planConfig_does name _ w, planConfig_planned _ _ _, bracketed_planConfig (s := answered s) wf⟩

theorem ledCmd_plannedTo (p0 : Byte) : PlannedTo .released s (ledCmd p0 s) :=
  .ofPlanned (t := drawn s) rfl
    (respond_plannedTo (s := drawn s) wf w
      (before := [.setLed (resolveLed p0 (Config.freeBool s.draws))]) _ _ _ (by simp [isPlain]) (by simp [bracketed]) rfl)

/-- A command's meaning is a plan run to its end, and then the session its command leaves (R150, R152, R213). -/
theorem exec_ofCmd_plannedTo (k : Cmd) (fixed buffer : List Byte) :
    ∃ t, exec (.ofCmd k fixed buffer) s = .next { t with session := afterCmd k } ∧ PlannedTo (finalLine k) s t := by
  cases k
  case dirFirst => exact ⟨_, rfl, dirLine_plannedTo wf w 0⟩
  case dirNext => exact ⟨_, rfl, dirNext_plannedTo wf w⟩
  case romListFirst => exact ⟨_, rfl, romListFirst_plannedTo wf w⟩
  case romListNext => exact ⟨_, rfl, romListNext_plannedTo wf w⟩
  case romIn => exact ⟨_, rfl, romIn_plannedTo wf w _ _⟩
  case romOut => exact ⟨_, rfl, romOut_plannedTo wf w _⟩
  case configSet => exact ⟨_, rfl, cfgSet_plannedTo wf w _⟩
  case led => exact ⟨_, rfl, ledCmd_plannedTo wf w _⟩
  case picoload => exact ⟨_, rfl, assertReset_plannedTo s⟩

end Commands

/-- A command run whole keeps what it writes, and its session, legal. -/
theorem exec_ofCmd_ok {k : Cmd} {fixed buffer : List Byte} {s t : State} (wf : s.cfg.wf = true)
    (line : s.hostReset = .released) (store : StoreOk s) (h : exec (.ofCmd k fixed buffer) s = .next t) :
    CommandOk t := by
  obtain ⟨u, meaning, planned⟩ := exec_ofCmd_plannedTo wf store.canonical k fixed buffer
  obtain ⟨storeOk, final⟩ := planned.ok wf line store
  rw [meaning] at h
  cases h
  refine ⟨storeOk.congr rfl rfl rfl rfl, ?_⟩
  cases k <;> simp [sessionOk, afterCmd, final, finalLine]

/-- Context B's whole turn keeps what a command writes, and its session, legal. -/
theorem protocolWhole_ok {s t : State} (wf : s.cfg.wf = true) (ok : CommandOk s) (h : protocolWhole s = .next t) :
    CommandOk t := by
  unfold protocolWhole at h
  split at h
  · rename_i idle
    split at h
    · rename_i i rest decoded
      have line : s.hostReset = .released := by simpa [sessionOk, idle] using ok.session
      rcases decode_cases decoded with ⟨b, -, -, rfl⟩ | ⟨-, rfl⟩ | ⟨k, fixed, buffer, rfl⟩ | ⟨b, rfl⟩
      · exact idleByte_ok (s := { s with latchQ := rest }) h idle (ok.latchQ rest)
      · cases h
        exact ⟨ok.store.congr rfl rfl rfl rfl, decide_eq_true line⟩
      · exact exec_ofCmd_ok (s := { s with latchQ := rest }) wf line (ok.latchQ rest).store h
      · cases h
        exact ⟨ok.store.congr rfl rfl rfl rfl, decide_eq_true line⟩
    · exact protocolStep_ok wf ok h
  all_goals exact protocolStep_ok wf ok h

/-! ## Each agent's turn -/

/-- Beyond the command's own fields, Context B keeps a legal state legal: it selects only a present bank, and cuts a
cycle short only by turning `rom_enable` off (R100, R264). -/
theorem ProtocolKeeps.legal {s t : State} (keeps : ProtocolKeeps s t) (legal : s.legal = true) (ok : CommandOk t) :
    t.legal = true := by
  obtain ⟨active, input, cycle, -, -⟩ := legal_iff.1 legal
  refine legal_iff.2 ⟨?_, ?_, ?_, ok.store, ok.session⟩
  · rcases keeps.activeBank with same | ⟨-, b, -, -, -, -, selected⟩
    · unfold activeOk
      rw [same, keeps.cfg]
      exact active
    · unfold activeOk
      rw [selected, keeps.cfg]
      cases there : present b.toNat s with
      | false => rfl
      | true =>
        simp only [present, Bool.and_eq_true] at there
        exact there.1
  · unfold inputOk
    rw [keeps.addr, keeps.cfg]
    exact input
  · unfold cycleOk at cycle ⊢
    rw [keeps.dbusOut]
    rcases keeps.host with ⟨enable, place⟩ | ⟨enable, place⟩
    · rw [enable, place]
      exact cycle
    · rw [enable, place]
      cases here : s.cycle <;> simp_all [cycleCut, inCycle]

/-- The line is quiet under reset: `rom_enable` is off (R264). -/
theorem heldQuiet_iff {s : State} : heldQuiet s = true ↔ (s.hostReset = .asserted → s.romEnable = false) := by
  unfold heldQuiet
  cases s.hostReset <;> simp

/-- Context B asserts the line only where it cuts the host's cycle short (R264). -/
theorem ProtocolKeeps.staysQuiet {s t : State} (keeps : ProtocolKeeps s t) (quiet : heldQuiet s = true) :
    heldQuiet t = true := by
  rw [heldQuiet_iff] at quiet ⊢
  intro asserted
  rcases keeps.held asserted with before | off
  · rcases keeps.host with ⟨same, -⟩ | ⟨off, -⟩
    · exact same.trans (quiet before)
    · exact off
  · exact off

/-- With `rom_enable` off an engine iteration releases the bus (R121). -/
theorem engineStep_disabled {s : State} (h : s.romEnable = false) :
    engineStep s = .next { iterated s with dbusOut := .hiZ } := by
  unfold engineStep
  rw [decodeBus_opcode, h]
  rfl

/-- An engine iteration writes the bus, the host's place in its cycle, the mark of R237 and a draw. -/
theorem engineStep_frame {s t : State} (h : engineStep s = .next t) :
    t = { s with cycle := cycleIterated s.cycle, dbusOut := t.dbusOut, marks := t.marks, draws := t.draws } := by
  rcases engineStep_cases s with e | ⟨out, e⟩
  · rw [e] at h
    cases h
    rfl
  · rw [e] at h
    cases h
    rw [driveBus_frame]
    rfl

/-- An engine iteration keeps a legal state legal: where it leaves no cycle it has released the bus (R126, R255). -/
theorem engineStep_legal {s t : State} (legal : s.legal = true) (h : engineStep s = .next t) : t.legal = true := by
  obtain ⟨active, input, cycle, store, session⟩ := legal_iff.1 legal
  simp only [cycleOk, Bool.and_eq_true, decide_eq_true_eq] at cycle
  have bus : s.romEnable = false → t.dbusOut = .hiZ := by
    intro off
    rw [engineStep_disabled off] at h
    cases h
    rfl
  rw [engineStep_frame h]
  refine legal_iff.2 ⟨active, input, ?_, store.congr rfl rfl rfl rfl, session⟩
  simp only [cycleOk, Bool.and_eq_true, Bool.or_eq_true, decide_eq_true_eq, cycle.1] at bus ⊢
  cases here : s.cycle <;> simp_all [cycleIterated, inCycle]

/-- Inputs presented at an address the host has are legal (R24, R262). -/
theorem hostPresent_legal {region : Region} {addr : Nat} {s : State} (legal : s.legal = true)
    (bound : addr < 2 ^ s.cfg.hostAddrBits) : (hostPresent region addr s).legal = true := by
  obtain ⟨active, -, -, store, session⟩ := legal_iff.1 legal
  exact legal_iff.2 ⟨active, decide_eq_true bound, by simp [cycleOk, hostPresent, inCycle],
    store.congr rfl rfl rfl rfl, session⟩

/-- An act the host may do keeps a legal state legal. -/
theorem HostDid.legal {act : HostAct} {s t : State} (did : HostDid act s t) (legal : s.legal = true)
    (enabled : hostEnabled act s = true) : t.legal = true := by
  cases act
  case present region addr =>
    obtain ⟨bound, rfl⟩ := did
    exact hostPresent_legal legal bound
  case breach region addr =>
    obtain ⟨bound, rfl⟩ := did
    exact hostPresent_legal legal bound
  all_goals
    obtain ⟨active, input, cycle, store, session⟩ := legal_iff.1 legal
    cases did
  case sample =>
    have served : s.cycle = .served := by simp_all [hostEnabled]
    have on : s.romEnable = true := by simp_all [cycleOk, inCycle]
    exact legal_iff.2 ⟨active, input, by simp [cycleOk, hostSample, inCycle, on], store.congr rfl rfl rfl rfl, session⟩
  case drop =>
    exact legal_iff.2 ⟨active, input, by simp [cycleOk, hostDrop, inCycle], store.congr rfl rfl rfl rfl, session⟩
  case latch b =>
    unfold hostLatch
    split <;> exact legal_iff.2 ⟨active, input, cycle, store.congr rfl rfl rfl rfl, session⟩

/-- Only the host's breach of its duty turns `rom_enable` on under reset (R264). -/
theorem HostDid.staysQuiet {act : HostAct} {s t : State} (did : HostDid act s t)
    (enabled : hostEnabled act s = true) (duty : isBreach (.host act) = false) (quiet : heldQuiet s = true) :
    heldQuiet t = true := by
  cases act
  case present region addr =>
    have released : s.hostReset = .released := by simp_all [hostEnabled]
    obtain ⟨-, rfl⟩ := did
    exact heldQuiet_iff.2 fun asserted => absurd (released.symm.trans asserted) (by simp)
  case breach => cases duty
  case sample =>
    cases did
    exact quiet
  case drop =>
    cases did
    exact heldQuiet_iff.2 fun _ => rfl
  case latch b =>
    cases did
    unfold hostLatch
    split <;> exact quiet

/-- A turn of Context B keeps what a command writes, and its session, legal. -/
theorem protocolTurn_ok {turn : Turn} {s t : State} (wf : s.cfg.wf = true) (legal : s.legal = true)
    (h : runTurn turn s = .next t) (protocol : turn = .protocol ∨ turn = .protocolWhole) : CommandOk t := by
  obtain ⟨-, -, -, store, session⟩ := legal_iff.1 legal
  rcases protocol with rfl | rfl
  · exact protocolStep_ok wf ⟨store, session⟩ h
  · exact protocolWhole_ok wf ⟨store, session⟩ h

/-- Every turn keeps a legal state legal. -/
theorem runTurn_legal {turn : Turn} {s t : State} (wf : s.cfg.wf = true) (legal : s.legal = true)
    (h : runTurn turn s = .next t) : t.legal = true := by
  rcases runTurn_cases h with ⟨rfl, -⟩ | ⟨protocol, keeps⟩ | ⟨act, rfl, ⟨-, rfl⟩ | ⟨enabled, did⟩⟩
  · exact engineStep_legal legal h
  · exact keeps.legal legal (protocolTurn_ok wf legal h protocol)
  · exact legal
  · exact did.legal legal enabled

/-- Every turn but a breach keeps a held host quiet. -/
theorem runTurn_staysQuiet {turn : Turn} {s t : State} (h : runTurn turn s = .next t)
    (duty : isBreach turn = false) (quiet : heldQuiet s = true) : heldQuiet t = true := by
  rcases runTurn_cases h with ⟨rfl, -⟩ | ⟨-, keeps⟩ | ⟨act, rfl, ⟨-, rfl⟩ | ⟨enabled, did⟩⟩
  · rw [engineStep_frame h]
    exact quiet
  · exact keeps.staysQuiet quiet
  · exact quiet
  · exact did.staysQuiet enabled duty quiet

/-- Taking a turn off the schedule touches nothing a legal state speaks of. -/
theorem turnTaken_legal (s : State) : (turnTaken s).legal = s.legal := by
  rw [turnTaken_frame]
  rfl

theorem turnTaken_heldQuiet (s : State) : heldQuiet (turnTaken s) = heldQuiet s := by
  rw [turnTaken_frame]
  rfl

/-- Settles O57: a step is a turn, and every agent's turn keeps a legal state legal and a held host quiet. -/
theorem everyStepKeepsTheStateLegal : Obligations.EveryStepKeepsTheStateLegal := by
  intro s t legal h
  obtain ⟨wf, ran⟩ := step_next h
  refine ⟨runTurn_legal (by simpa using wf) (turnTaken_legal s ▸ legal) ran, fun duty quiet => ?_⟩
  exact runTurn_staysQuiet ran duty (turnTaken_heldQuiet s ▸ quiet)

end Sys2Proof.Machine
end

section
/-!
PROOFS. What each agent's step leaves unchanged, over every state (R14, R23, R26, R32, R36, R47, R151, R238): the
configuration, the storage, the active bank, the bus, the marks, the form of memory.
-/

namespace Sys2Proof.Machine

/-! ## A step, by whose it is -/

/-- The host's acts write its inputs, its place in the cycle, the queue, the marks and the model's bookkeeping. -/
theorem HostDid.frame {act : HostAct} {s t : State} (did : HostDid act s t) :
    t = { s with romEnable := t.romEnable, region := t.region, addr := t.addr, cycle := t.cycle, latchQ := t.latchQ,
                 marks := t.marks, trace := t.trace, draws := t.draws } := by
  cases act
  case present =>
    obtain ⟨-, rfl⟩ := did
    rfl
  case breach =>
    obtain ⟨-, rfl⟩ := did
    rfl
  case sample =>
    cases did
    rfl
  case drop =>
    cases did
    rfl
  case latch =>
    cases did
    unfold hostLatch
    split <;> rfl

theorem isProtocolTurn_iff {turn : Turn} : isProtocolTurn turn = true ↔ turn = .protocol ∨ turn = .protocolWhole := by
  cases turn <;> simp [isProtocolTurn]

/-- What a step can write, by whose it is (R47, R50). -/
theorem step_cases {s t : State} (h : step s = .next t) :
    (nextTurn s = .engine ∧
      t = { s with sched := t.sched, draws := t.draws, cycle := t.cycle, dbusOut := t.dbusOut, marks := t.marks }) ∨
    (isProtocolTurn (nextTurn s) = true ∧ ProtocolKeeps (turnTaken s) t) ∨
    ((∃ act, nextTurn s = .host act) ∧
      t = { s with sched := t.sched, draws := t.draws, romEnable := t.romEnable, region := t.region, addr := t.addr,
                   cycle := t.cycle, latchQ := t.latchQ, marks := t.marks, trace := t.trace }) := by
  obtain ⟨-, ran⟩ := step_next h
  have taken := turnTaken_frame s
  rcases runTurn_cases ran with ⟨engine, -⟩ | ⟨protocol, keeps⟩ | ⟨act, host, ⟨-, rfl⟩ | ⟨-, did⟩⟩
  · rw [engine] at ran
    refine .inl ⟨engine, ?_⟩
    rw [engineStep_frame ran, taken]
  · refine .inr (.inl ⟨?_, keeps⟩)
    rcases protocol with e | e <;> rw [e] <;> rfl
  · refine .inr (.inr ⟨⟨act, host⟩, ?_⟩)
    rw [taken]
  · refine .inr (.inr ⟨⟨act, host⟩, ?_⟩)
    rw [did.frame, taken]

/-- Settles O53: no agent writes the configuration or the storage. -/
theorem configurationAndStorageAreFixed : Obligations.ConfigurationAndStorageAreFixed := by
  intro s t h
  rcases step_cases h with ⟨-, frame⟩ | ⟨-, keeps⟩ | ⟨-, frame⟩
  · rw [frame]
    exact ⟨rfl, rfl⟩
  · exact ⟨by simpa using keeps.cfg, by simpa using keeps.storage⟩
  · rw [frame]
    exact ⟨rfl, rfl⟩

/-- Settles O55: neither Context B nor the host writes the bus. -/
theorem onlyTheEngineWritesTheBus : Obligations.OnlyTheEngineWritesTheBus := by
  intro s t other h
  rcases step_cases h with ⟨engine, -⟩ | ⟨-, keeps⟩ | ⟨-, frame⟩
  · exact absurd engine other
  · simpa using keeps.dbusOut
  · rw [frame]

/-- Settles O19: neither the engine nor the host writes the active bank, and Context B writes it only where its step
is a select byte. -/
theorem onlyABankSelectByteWritesActiveBank : Obligations.OnlyABankSelectByteWritesActiveBank := by
  intro s t h changed
  rcases step_cases h with ⟨-, frame⟩ | ⟨protocol, keeps⟩ | ⟨-, frame⟩
  · exact absurd (by rw [frame]) changed
  · rcases keeps.activeBank with same | ⟨idle, b, q, queue, notPrefix, notIgnored, -⟩
    · exact absurd (by simpa using same) changed
    · exact ⟨protocol, by simpa using idle, b, q, by simpa using queue, by simpa using notPrefix, by simpa using notIgnored⟩
  · exact absurd (by rw [frame]) changed

/-! ## The marks -/

/-- Every mark of `s` is one of `t`. -/
def MarksKept (s t : State) : Prop :=
  (s.marks.latchOverflow = true → t.marks.latchOverflow = true) ∧
    (s.marks.readUnderMutation = true → t.marks.readUnderMutation = true)

theorem MarksKept.ofEq {s t : State} (h : t.marks = s.marks) : MarksKept s t := by
  rw [MarksKept, h]
  exact ⟨id, id⟩

theorem driveBus_marksKept (out : DBus) (s : State) : MarksKept s (driveBus out s) :=
  ⟨fun set => (driveBus_marks out s).1.trans set, (driveBus_marks out s).2⟩

theorem HostDid.marksKept {act : HostAct} {s t : State} (did : HostDid act s t) : MarksKept s t := by
  cases act
  case present =>
    obtain ⟨-, rfl⟩ := did
    exact .ofEq rfl
  case breach =>
    obtain ⟨-, rfl⟩ := did
    exact .ofEq rfl
  case sample =>
    cases did
    exact .ofEq rfl
  case drop =>
    cases did
    exact .ofEq rfl
  case latch =>
    cases did
    unfold hostLatch
    split
    · exact .ofEq rfl
    · exact ⟨fun _ => rfl, id⟩

theorem runTurn_marksKept {turn : Turn} {s t : State} (h : runTurn turn s = .next t) : MarksKept s t := by
  rcases runTurn_cases h with ⟨-, rfl | ⟨out, rfl⟩⟩ | ⟨-, keeps⟩ | ⟨act, -, ⟨-, rfl⟩ | ⟨-, did⟩⟩
  · exact .ofEq rfl
  · exact driveBus_marksKept out (iterated s)
  · exact .ofEq keeps.marks
  · exact .ofEq rfl
  · exact did.marksKept

/-- Settles O54: an agent sets a mark or leaves the marks alone. -/
theorem marksAreNeverCleared : Obligations.MarksAreNeverCleared := by
  intro s t h
  have kept := runTurn_marksKept (step_next h).2
  rwa [MarksKept, turnTaken_marks] at kept

/-! ## Context B while it executes -/

/-- Context B's whole turn while it executes is a single micro-step too. -/
theorem protocolWhole_executing {s : State} {k : Cmd} {fixed buffer : List Byte} {todo : List Micro}
    (h : s.session = .executing k fixed buffer todo) :
    protocolWhole s = .next (microStep k fixed buffer todo s) := by
  simp only [protocolWhole, h, protocolStep_executing h]

/-- Settles O38: a micro-step writes neither the queue nor the active bank. -/
theorem executingTakesNoByte : Obligations.ExecutingTakesNoByte := by
  intro s t k fixed buffer todo executing protocol h
  obtain ⟨-, ran⟩ := step_next h
  have taken : (turnTaken s).session = .executing k fixed buffer todo := by simpa using executing
  have keeps := microStep_keeps k fixed buffer todo (turnTaken s)
  have micro : runTurn (nextTurn s) (turnTaken s) = .next (microStep k fixed buffer todo (turnTaken s)) := by
    rcases isProtocolTurn_iff.1 protocol with single | whole
    · rw [single, runTurn, protocolStep_executing taken]
    · rw [whole, runTurn, protocolWhole_executing taken]
  cases micro.symm.trans ran
  exact ⟨by simpa using keeps.latchQ, by simpa using keeps.activeBank⟩

/-! ## The form of memory -/

@[simp] theorem underWay_mem (k : Cmd) (fixed buffer : List Byte) (p : Plan) :
    (underWay k fixed buffer p).mem = p.2.mem := by
  unfold underWay
  split <;> rfl

@[simp] theorem startCmd_mem (k : Cmd) (fixed buffer : List Byte) (s : State) :
    (startCmd k fixed buffer s).mem = s.mem := by
  rw [startCmd, underWay_mem, (stepsOf_planned k fixed buffer s).mem]

@[simp] theorem afterFixed_mem (k : Cmd) (fixed : List Byte) (s : State) : (afterFixed k fixed s).mem = s.mem := by
  unfold afterFixed
  split
  · rfl
  · exact startCmd_mem _ _ _ _

@[simp] theorem selected_mem (k : Cmd) (s : State) : (selected k s).mem = s.mem := by
  unfold selected
  split
  · rfl
  · exact afterFixed_mem _ _ _

/-- Collecting a command's bytes writes no image byte. -/
@[simp] theorem collectByte_mem (k : Cmd) (ph : Phase) (remaining : Nat) (fixed buffer : List Byte) (b : Byte)
    (s : State) : (collectByte k ph remaining fixed buffer b s).mem = s.mem := by
  unfold collectByte
  cases ph
  case fixed =>
    simp only
    split
    · rfl
    · exact afterFixed_mem _ _ _
  case len =>
    simp only
    split
    · exact startCmd_mem _ _ _ _
    · rfl
  case str =>
    simp only
    split
    · rfl
    · exact startCmd_mem _ _ _ _

theorem microStep_wf (k : Cmd) (fixed buffer : List Byte) (todo : List Micro) {s : State}
    (w : Memory.wf s.mem = true) : Memory.wf (microStep k fixed buffer todo s).mem = true := by
  cases todo with
  | nil => exact w
  | cons m ms =>
    rw [microStep, underWay_mem]
    exact runMicro_wf m ms w

theorem exec_decodeIdle_mem {c : Config} {b : Byte} {s t : State} (h : exec (decodeIdle c b) s = .next t) :
    t.mem = s.mem := by
  unfold decodeIdle at h
  split at h
  · cases h
    rfl
  · split at h <;> cases h <;> rfl

/-- A single step of Context B keeps the canonical form: only a micro-step writes memory. -/
theorem protocolStep_wf {s t : State} (w : Memory.wf s.mem = true) (h : protocolStep s = .next t) :
    Memory.wf t.mem = true := by
  unfold protocolStep at h
  split at h
  · cases h
    exact microStep_wf _ _ _ _ w
  · cases h
    exact w
  · rw [exec_decodeIdle_mem h]
    exact w
  · unfold selectorByte at h
    split at h <;> cases h
    · exact w
    · rw [selected_mem]
      exact w
  · cases h
    rw [collectByte_mem]
    exact w
  all_goals
    cases h
    exact w

theorem PlannedTo.canonical {fin : HostReset} {s t : State} (h : PlannedTo fin s t) (w : Memory.wf s.mem = true) :
    Memory.wf t.mem = true := by
  obtain ⟨p, does, planned, -⟩ := h
  rw [← does.effect]
  exact runPlains_wf p.1 (planned.mem.symm ▸ w)

/-- Context B's whole turn keeps the canonical form. -/
theorem protocolWhole_wf {s t : State} (wf : s.cfg.wf = true) (w : Memory.wf s.mem = true)
    (h : protocolWhole s = .next t) : Memory.wf t.mem = true := by
  unfold protocolWhole at h
  split at h
  · split at h
    · rename_i i rest decoded
      rcases decode_cases decoded with ⟨b, -, -, rfl⟩ | ⟨-, rfl⟩ | ⟨k, fixed, buffer, rfl⟩ | ⟨b, rfl⟩
      · rw [exec_decodeIdle_mem h]
        exact w
      · cases h
        exact w
      · obtain ⟨u, meaning, planned⟩ := exec_ofCmd_plannedTo (s := { s with latchQ := rest }) wf w k fixed buffer
        rw [meaning] at h
        cases h
        exact planned.canonical w
      · cases h
        exact w
    · exact protocolStep_wf w h
  all_goals exact protocolStep_wf w h

/-- Settles O56: neither the engine nor the host writes memory, and Context B writes it a byte at a time. -/
theorem everyStepKeepsMemoryCanonical : Obligations.EveryStepKeepsMemoryCanonical := by
  intro s t w h
  obtain ⟨wf, ran⟩ := step_next h
  rcases step_cases h with ⟨-, frame⟩ | ⟨protocol, -⟩ | ⟨-, frame⟩
  · rw [frame]
    exact w
  · rw [← turnTaken_mem] at w
    rcases isProtocolTurn_iff.1 protocol with single | whole
    · rw [single] at ran
      exact protocolStep_wf w ran
    · rw [whole] at ran
      exact protocolWhole_wf (by simpa using wf) w ran
  · rw [frame]
    exact w

end Sys2Proof.Machine
end

section
/-!
PROOFS. The commands run whole (R170, R171, R177, R190, R194): what each answers of the collaborators leads to, and
what it leaves unchanged.
-/

namespace Sys2Proof.Machine

/-! ## A response at the end of a command -/

/-- A response from a state with the same window and memory is one from the state the command began in. -/
theorem respond_respondedFrom {s : State} (u : State) (wf : s.cfg.wf = true) (w : Memory.wf s.mem = true) (cfg : u.cfg = s.cfg)
    (bank : u.activeBank = s.activeBank) (mem : u.mem = s.mem) (st : Status) (kind : Kind) (text : List Byte) :
    Responded st kind text s (respond st kind text u) := by
  obtain ⟨size, -⟩ := wf_sizes wf
  exact responded_congr cfg.symm bank.symm mem.symm rfl rfl (respond_responded (mem ▸ w) (cfg ▸ size))

/-! ## Directory lines -/

theorem dirLine_frame (k : Nat) (s : State) :
    dirLine k s = { s with
      mem := (dirLine k s).mem, draws := (dirLine k s).draws, answers := (dirLine k s).answers,
      dirCursor := (dirLine k s).dirCursor } := by
  unfold dirLine dirOn
  split
  · rw [raiseError, respond_frame]
    rfl
  · rw [respond_frame]
    rfl
  · rw [respond_frame]
    rfl

theorem dirNext_frame (s : State) :
    dirNext s = { s with
      mem := (dirNext s).mem, draws := (dirNext s).draws, answers := (dirNext s).answers,
      dirCursor := (dirNext s).dirCursor } := by
  unfold dirNext
  split
  · rw [respond_frame]
  · exact dirLine_frame _ _

section DirLine

variable {k : Nat} {s : State} (wf : s.cfg.wf = true) (w : Memory.wf s.mem = true)
include wf w

/-- The directory cannot be read: no iteration, an error (R170, R171). -/
theorem dirLine_fail (h : dirEntry k s = .fail) :
    (dirLine k s).dirCursor = none ∧
      Responded .error .string (payloadText s.cfg (.error .dirFail)) s (dirLine k s) := by
  rw [dirLine, h]
  exact ⟨by simp [dirOn], respond_respondedFrom (setDirCursor none (answered s)) wf w rfl rfl rfl _ _ _⟩

/-- There is no such entry: no iteration, done. -/
theorem dirLine_endOfDir (h : dirEntry k s = .endOfDir) :
    (dirLine k s).dirCursor = none ∧ Responded .done .none [] s (dirLine k s) := by
  rw [dirLine, h]
  exact ⟨by simp [dirOn], respond_respondedFrom (setDirCursor none (answered s)) wf w rfl rfl rfl _ _ _⟩

/-- The entry is reported, and the next one is the one after it. -/
theorem dirLine_entry {name : List Byte} {size : Nat} (h : dirEntry k s = .entry name size) :
    (dirLine k s).dirCursor = some (k + 1) ∧
      Responded .ok .string (payloadText s.cfg (.dir name size)) s (dirLine k s) := by
  rw [dirLine, h]
  exact ⟨by simp [dirOn], respond_respondedFrom (setDirCursor (some (k + 1)) (answered s)) wf w rfl rfl rfl _ _ _⟩

end DirLine

/-- Settles O20: the directory line of entry 0. -/
theorem dirFirstReportsTheFirstEntry : Obligations.DirFirstReportsTheFirstEntry := by
  intro s wf w
  refine ⟨complete (dirLine 0 s), rfl, congrArg complete (dirLine_frame 0 s), ?_⟩
  cases answer : dirEntry 0 s with
  | fail => exact dirLine_fail wf w answer
  | endOfDir => exact dirLine_endOfDir wf w answer
  | entry name size => exact dirLine_entry wf w answer

/-- Settles O21: the directory line the cursor names, or done where it names none. -/
theorem dirNextReportsTheNextEntry : Obligations.DirNextReportsTheNextEntry := by
  intro s wf w
  refine ⟨complete (dirNext s), rfl, congrArg complete (dirNext_frame s), ?_⟩
  cases cursor : s.dirCursor with
  | none =>
    have closed : dirNext s = respond .done .none [] s := by simp only [dirNext, cursor]
    rw [closed]
    exact ⟨by simpa using cursor, respond_respondedFrom s wf w rfl rfl rfl _ _ _⟩
  | some k =>
    have line : dirNext s = dirLine k s := by simp only [dirNext, cursor]
    rw [line]
    simp only
    cases answer : dirEntry k s with
    | fail => exact dirLine_fail wf w answer
    | endOfDir => exact dirLine_endOfDir wf w answer
    | entry name size => exact dirLine_entry wf w answer

theorem romListNext_dirCursor (s : State) : (romListNext s).dirCursor = s.dirCursor := by
  unfold romListNext
  split
  · simp
  · split <;> simp

/-- Settles O25: the frames of the four listing commands. -/
theorem listingPairsAreIndependent : Obligations.ListingPairsAreIndependent := by
  intro i s t h
  constructor
  · rintro (rfl | rfl) <;> cases h
    · rw [dirLine_frame]
      rfl
    · rw [dirNext_frame]
      rfl
  · rintro (rfl | rfl) <;> cases h
    · simp [romListFirst]
    · exact romListNext_dirCursor s

/-! ## The reset bracket of a whole command -/

/-- From `s` to `t` nothing has changed but what a store-mutating command writes, and its bookkeeping. -/
def Mutated (s t : State) : Prop :=
  t = { s with mem := t.mem, draws := t.draws, answers := t.answers, upperPresent := t.upperPresent,
               romEnable := t.romEnable, cycle := t.cycle, trace := t.trace }

/-- From `s` to `t` memory has been written to `m` and the presence mask to `mask` inside one reset pulse, and then a
response made (R105 to R108, R264). -/
structure BracketThenResponse (m : List Host.Cell) (mask : Mask) (st : Status) (kind : Kind) (text : List Byte)
    (s t : State) : Prop where
  frame : Mutated s t
  pulsed : Pulsed s t
  mask : t.upperPresent = mask
  responded : Responded st kind text { s with mem := m } t

/-- What a command makes of a planned state when, inside the bracket, it writes memory and the mask only. -/
theorem respond_afterBracket {s u v : State} {m : List Host.Cell} {mask : Mask} (wf : s.cfg.wf = true)
    (line : s.hostReset = .released) (planned : Planned s u)
    (inside : v = { assertReset u with mem := m, upperPresent := mask }) (w : Memory.wf m = true) (st : Status)
    (kind : Kind) (text : List Byte) :
    BracketThenResponse m mask st kind text s (respond st kind text (releaseReset v)) := by
  have released : releaseReset v = { s with
      mem := m, upperPresent := mask, romEnable := false, cycle := cycleCut s.cycle,
      trace := .resetEdge .released :: .resetEdge .asserted :: s.trace, draws := u.draws, answers := u.answers } := by
    rw [inside, assertReset_frame (planned.hostReset.trans line), releaseReset_frame rfl, planned, ← line]
  rw [released]
  refine ⟨?_, ⟨?_, ?_, ?_⟩, ?_, ?_⟩
  · rw [Mutated, respond_frame]
  · exact respond_trace _ _ _ _
  · exact respond_romEnable _ _ _ _
  · exact respond_cycle _ _ _ _
  · exact respond_upperPresent _ _ _ _
  · apply respond_respondedFrom (s := { s with mem := m }) _ wf w <;> rfl

/-- A failed collaborator call is reported with the store untouched and the host not reset (R221). -/
theorem raiseError_answered {s : State} (wf : s.cfg.wf = true) (w : Memory.wf s.mem = true) (e : Cause) :
    Mutated s (raiseError e (answered s)) ∧ (raiseError e (answered s)).upperPresent = s.upperPresent ∧
      Unpulsed s (raiseError e (answered s)) ∧
      Responded .error .string (payloadText s.cfg (.error e)) s (raiseError e (answered s)) := by
  refine ⟨?_, by simp, by simp [Unpulsed], respond_respondedFrom (answered s) wf w rfl rfl rfl _ _ _⟩
  rw [Mutated, raiseError, respond_frame]
  rfl

/-! ## `rom-in` -/

/-- A bank parameter in range names its bank, and under `Clamp` one out of range the last (R74). -/
theorem resolveBank_eq {c : Config} {p0 : Byte} {n : Nat}
    (h : (p0.toNat < c.n ∧ n = p0.toNat) ∨ (c.n ≤ p0.toNat ∧ c.bankRangePolicy = .clamp ∧ n = c.n - 1)) :
    resolveBank c p0 = some n := by
  rcases h with ⟨inRange, rfl⟩ | ⟨above, clamp, rfl⟩
  · rw [resolveBank, if_pos inRange]
  · rw [resolveBank, if_neg (by omega), clamp]

/-- `Loaded` looks only at the configuration and the memory. -/
theorem Loaded.congr {sel : ImgSel} {img : Image} {s s' t t' : State} (h : Loaded sel img s t) (cfg : s'.cfg = s.cfg)
    (mem : s'.mem = s.mem) (tcfg : t'.cfg = t.cfg) (tmem : t'.mem = t.mem) : Loaded sel img s' t' := by
  unfold Loaded imgRead at h ⊢
  rw [cfg, mem, tcfg, tmem]
  exact h

/-- A load that breaks off changes no byte outside its bank. -/
theorem loadBroken_other {n a : Nat} {img : Image} {bit : Bool} {s : State} (w : Memory.wf s.mem = true)
    (outside : ¬ imageAddr s.cfg (.upper n) a) :
    Memory.read (loadBroken n img bit s).mem a = Memory.read s.mem a :=
  (loadWrites_loaded w).2 a outside

section RomIn

variable {n : Nat} {img : Image} {s : State} (wf : s.cfg.wf = true) (w : Memory.wf s.mem = true)
  (line : s.hostReset = .released)
include wf w line

/-- The file is read: the load, inside the bracket, then success (R190). -/
theorem romInOn_ok (path : List Byte) (bit : Bool) :
    BracketThenResponse (loadUpper n img (assertReset (answered s))).mem (maskWithBit s.upperPresent n true) .ok .none []
      s (romInOn n path bit (.ok img) (answered s)) := by
  have held : Memory.wf (assertReset (answered s)).mem = true := by simpa using w
  refine respond_afterBracket wf line (answered_planned s) ?_ (loadUpper_wf held) .ok .none []
  rw [loadUpper_frame, assertReset_upperPresent]
  rfl

/-- The read breaks off: bank `n` alone is left unspecified, inside the bracket, and the error reported (R190). -/
theorem romInOn_broken (path : List Byte) (bit : Bool) :
    BracketThenResponse (loadBroken n img bit (assertReset (answered s))).mem (maskWithBit s.upperPresent n bit) .error
      .string (payloadText s.cfg (.error (.readFail path))) s (romInOn n path bit (.broken img) (answered s)) := by
  have held : Memory.wf (assertReset (answered s)).mem = true := by simpa using w
  have report := respond_afterBracket (v := loadBroken n img bit (assertReset (answered s))) wf line (answered_planned s)
    (by rw [loadBroken_frame, assertReset_upperPresent]) (loadBroken_wf held) .error .string
    (payloadText s.cfg (.error (.readFail path)))
  simpa [romInOn, raiseError] using report

end RomIn

/-- Settles O27: the bracket around a load, for each answer of the file read. -/
theorem romInLoadsTheBank : Obligations.RomInLoadsTheBank := by
  intro p0 path n s wf w line bank
  have resolved := resolveBank_eq bank
  have n_lt : n < 256 := by
    have below := resolveBank_lt wf resolved
    obtain ⟨-, -, -, banks⟩ := wf_sizes wf
    omega
  have run : romIn p0 path s = romInOn n path (Config.freeBool s.draws) (readRom path s) (answered s) := by
    simp only [romIn, resolved]
  have held : Memory.wf (assertReset (answered s)).mem = true := by simpa using w
  refine ⟨complete (romIn p0 path s), rfl, ?_⟩
  rw [run]
  cases readRom path s with
  | fail =>
    obtain ⟨frame, kept⟩ := raiseError_answered wf w (.fileNotFound path)
    exact ⟨congrArg complete frame, kept⟩
  | ok img =>
    have load := loadUpper_loaded (n := n) (img := img) held
    have ended := romInOn_ok (n := n) (img := img) wf w line path (Config.freeBool s.draws)
    generalize romInOn n path _ _ (answered s) = t at ended ⊢
    obtain ⟨frame, pulsed, mask, responded⟩ := ended
    refine ⟨congrArg complete frame, fun j => ?_, pulsed, _, ?_, responded⟩
    · rw [complete_upperPresent, mask, maskWithBit_getLsbD _ _ _ _ n_lt]
    · exact load.congr (by simp) (by simp) (by simp) rfl
  | broken img =>
    have ended := romInOn_broken (n := n) (img := img) wf w line path (Config.freeBool s.draws)
    generalize romInOn n path _ _ (answered s) = t at ended ⊢
    obtain ⟨frame, pulsed, mask, responded⟩ := ended
    refine ⟨congrArg complete frame, fun j other => ?_, pulsed, _, fun a outside => ?_, responded⟩
    · rw [complete_upperPresent, mask, maskWithBit_getLsbD _ _ _ _ n_lt, if_neg other]
    · simpa using loadBroken_other (img := img) (bit := Config.freeBool s.draws) held (by simpa using outside)

/-! ## `config-set` -/

@[simp] theorem loadLowerOpt_cfg (o : Option Image) (s : State) : (loadLowerOpt o s).cfg = s.cfg := by
  rw [loadLowerOpt_frame]

section ReplaceBanks

variable (set : BankSet) {s : State}

/-- After the replacement a bank is present if and only if the configuration names it (R194). -/
theorem replaceBanks_present (banks : s.cfg.n ≤ 255) (j : Nat) :
    (replaceBanks set s).upperPresent.getLsbD j = (decide (j < s.cfg.n) && (bankSetImage set j).isSome) := by
  have below : ∀ n ∈ List.range s.cfg.n, n < 256 := fun n hn => by
    have := List.mem_range.1 hn
    omega
  have cleared : (loadLowerOpt set.lower (clearPresent s)).upperPresent = 0 := by rw [loadLowerOpt_frame]; rfl
  rw [replaceBanks, loadBanks_present below, cleared]
  by_cases named : j < s.cfg.n <;> simp [named]

variable (w : Memory.wf s.mem = true)
include w

/-- The replacement writes an address outside every bank only as part of the lower image. -/
theorem replaceBanks_read_outsideBanks {a : Nat} (outside : ∀ n < s.cfg.n, ¬ imageAddr s.cfg (.upper n) a) :
    Memory.read (replaceBanks set s).mem a = Memory.read (loadLowerOpt set.lower (clearPresent s)).mem a := by
  refine loadBanks_other (loadLowerOpt_wf (s := clearPresent s) w) fun n hn => ?_
  simpa using outside n (List.mem_range.1 hn)

/-- The lower image is the one the configuration names, if it names one (R195). -/
theorem replaceBanks_read_lower {off : Nat} (inside : off < s.cfg.romSize) :
    imgRead .lower off (replaceBanks set s) =
      match set.lower with
      | none => imgRead .lower off s
      | some img => imageByte img off := by
  have outside : ∀ n < s.cfg.n, ¬ imageAddr s.cfg (.upper n) (imgAddr s.cfg .lower off) :=
    fun n _ ⟨_, _, e⟩ => imgAddr_lower_ne inside e
  have lower := loadLowerOpt_read (o := set.lower) (s := clearPresent s) w inside
  rw [imgRead_mem, loadLowerOpt_cfg] at lower
  rw [imgRead_mem, (replaceBanks_keeps set s).cfg, replaceBanks_read_outsideBanks set w outside]
  exact lower

/-- Each bank holds the image the configuration names for it, or what it held (R194, R195). -/
theorem replaceBanks_read_upper {j off : Nat} (bank : j < s.cfg.n) (inside : off < s.cfg.romSize) :
    imgRead (.upper j) off (replaceBanks set s) =
      match bankSetImage set j with
      | none => imgRead (.upper j) off s
      | some img => imageByte img off := by
  have before : imgRead (.upper j) off (loadLowerOpt set.lower (clearPresent s)) = imgRead (.upper j) off s := by
    rw [imgRead_mem, loadLowerOpt_cfg,
      loadLowerOpt_other (s := clearPresent s) w fun ⟨_, below, e⟩ => imgAddr_lower_ne below e.symm]
    rfl
  rw [replaceBanks, loadBanks_read (loadLowerOpt_wf (s := clearPresent s) w) List.nodup_range (by simpa using inside),
    before]
  cases bankSetImage set j <;> simp [bank]

/-- The replacement writes no address past image memory. -/
theorem replaceBanks_read_past {a : Nat} (past : imageBytes s.cfg ≤ a) :
    Memory.read (replaceBanks set s).mem a = Memory.read s.mem a := by
  have outsideBanks : ∀ n < s.cfg.n, ¬ imageAddr s.cfg (.upper n) a := fun n bank ⟨_, inside, e⟩ => by
    have := imgAddr_upper_lt bank inside
    omega
  rw [replaceBanks_read_outsideBanks set w outsideBanks]
  refine loadLowerOpt_other (s := clearPresent s) w fun ⟨_, inside, e⟩ => ?_
  have below : a < imageBytes s.cfg := e ▸ imgAddr_lower_lt inside
  omega

end ReplaceBanks

/-- The configuration opens: the replacement, inside the bracket, then success (R194). -/
theorem cfgSetOn_ok {s : State} (wf : s.cfg.wf = true) (w : Memory.wf s.mem = true) (line : s.hostReset = .released)
    (name : List Byte) (set : BankSet) :
    BracketThenResponse (replaceBanks set (assertReset (answered s))).mem
      (replaceBanks set (assertReset (answered s))).upperPresent .ok .none [] s (cfgSetOn name (.ok set) (answered s)) :=
  respond_afterBracket wf line (answered_planned s) (replaceBanks_frame _ _)
    (replaceBanks_wf (by simpa using w)) .ok .none []

/-- The configuration does not open, and the host is reset all the same: an empty bracket, then the error (R195). -/
theorem cfgSetOn_fail_resets {s : State} (wf : s.cfg.wf = true) (w : Memory.wf s.mem = true)
    (line : s.hostReset = .released) (resets : s.cfg.cfgFailResets = true) (name : List Byte) :
    BracketThenResponse s.mem s.upperPresent .error .string (payloadText s.cfg (.error (.configNotFound name))) s
      (cfgSetOn name .fail (answered s)) := by
  have bracket : failBracket (answered s) = releaseReset (assertReset (answered s)) := if_pos resets
  have report := respond_afterBracket (v := assertReset (answered s)) (m := s.mem) (mask := s.upperPresent) wf line
    (answered_planned s) (by rw [assertReset_frame (s := answered s) line]; rfl) w .error .string
    (payloadText s.cfg (.error (.configNotFound name)))
  simpa [cfgSetOn, raiseError, bracket] using report

/-- Settles O29: the bracket around the replacement, or what a configuration that does not open leaves. -/
theorem configSetReplacesTheBankSet : Obligations.ConfigSetReplacesTheBankSet := by
  intro name s wf w line
  obtain ⟨-, -, -, banks⟩ := wf_sizes wf
  have held : Memory.wf (assertReset (answered s)).mem = true := by simpa using w
  refine ⟨complete (cfgSet name s), rfl, ?_⟩
  rw [cfgSet]
  cases loadConfig name s with
  | fail =>
    cases resets : s.cfg.cfgFailResets with
    | true =>
      have ended := cfgSetOn_fail_resets wf w line resets name
      generalize cfgSetOn name _ (answered s) = t at ended ⊢
      obtain ⟨frame, pulsed, mask, responded⟩ := ended
      exact ⟨congrArg complete frame, mask, pulsed, responded⟩
    | false =>
      have noBracket : failBracket (answered s) = answered s := if_neg (by simpa using resets)
      obtain ⟨frame, mask, unpulsed, responded⟩ := raiseError_answered wf w (.configNotFound name)
      rw [cfgSetOn, noBracket]
      exact ⟨congrArg complete frame, mask, unpulsed, responded⟩
  | ok set =>
    have ended := cfgSetOn_ok wf w line name set
    generalize cfgSetOn name _ (answered s) = t at ended ⊢
    obtain ⟨frame, pulsed, mask, responded⟩ := ended
    refine ⟨congrArg complete frame, fun j => ?_, pulsed, _, responded, fun off inside => ?_,
      fun j off bank inside => ?_, fun a past => ?_⟩
    · rw [complete_upperPresent, mask, replaceBanks_present set (by simpa using banks)]
      simp
    · have lower := replaceBanks_read_lower set held (by simpa using inside)
      simp only [imgRead_mem, (replaceBanks_keeps _ _).cfg, assertReset_cfg, assertReset_mem] at lower
      exact lower
    · have upper := replaceBanks_read_upper set held (by simpa using bank) (by simpa using inside)
      simp only [imgRead_mem, (replaceBanks_keeps _ _).cfg, assertReset_cfg, assertReset_mem] at upper
      exact upper
    · simpa using replaceBanks_read_past set held (by simpa using past)

end Sys2Proof.Machine
end

section
/-!
PROOFS. The model's surroundings (R33 to R37, R263): what a collaborator's call answers, a latch write, a launch.
-/

namespace Sys2Proof.Machine

/-! ## The storage content -/

/-- The first value listed under a key is found. -/
theorem findKey_first {α : Type} {key : List Byte} {before after : List (List Byte × α)} {v : α}
    (h : ∀ e ∈ before, e.1 ≠ key) : findKey key (before ++ (key, v) :: after) = some v := by
  induction before with
  | nil => simp [findKey]
  | cons e es ih =>
    simp only [List.forall_mem_cons] at h
    obtain ⟨other, others⟩ := h
    rw [List.cons_append, findKey, if_neg other, ih others]

theorem findKey_none {α : Type} {key : List Byte} {entries : List (List Byte × α)} (h : ∀ e ∈ entries, e.1 ≠ key) :
    findKey key entries = none := by
  induction entries with
  | nil => rfl
  | cons e es ih =>
    simp only [List.forall_mem_cons] at h
    obtain ⟨other, others⟩ := h
    rw [findKey, if_neg other, ih others]

/-! ## The calls -/

/-- The oldest answer decided is the one the next call gives (R36). -/
theorem nextAnswer_decided {a : AnswerKind} {rest : List AnswerKind} {s : State} (h : s.answers = a :: rest) :
    nextAnswer s = a := by
  simp only [nextAnswer, h]

/-- A call that answers from the content. -/
theorem calls_content {s : State} (h : nextAnswer s = .content) (path name : List Byte) (k : Nat) :
    readRom path s = storedRom s.storage path ∧ dirEntry k s = storedDir s.storage k ∧
      loadConfig name s = storedConfig s.storage name := by
  simp only [readRom, dirEntry, loadConfig, h, and_self]

/-- A call that fails. -/
theorem calls_fail {s : State} (h : nextAnswer s = .fail) (path name : List Byte) (k : Nat) :
    readRom path s = .fail ∧ dirEntry k s = .fail ∧ loadConfig name s = .fail := by
  simp only [readRom, dirEntry, loadConfig, h, and_self]

/-- A call whose read breaks off; the two collaborators that cannot break off fail (R36). -/
theorem calls_broken {s : State} (h : nextAnswer s = .broken) (path name : List Byte) (k : Nat) :
    readRom path s = .broken (anyImage s.cfg s.draws) ∧ dirEntry k s = .fail ∧ loadConfig name s = .fail := by
  simp only [readRom, dirEntry, loadConfig, h, and_self]

/-- Settles O60: each kind of answer in turn, then what the storage content answers. -/
theorem collaboratorsAnswerFromTheStorage : Obligations.CollaboratorsAnswerFromTheStorage := by
  intro s path name k
  have answers : (readRom path s = storedRom s.storage path ∨ readRom path s = .fail ∨
      ∃ img, readRom path s = .broken img) ∧ (dirEntry k s = storedDir s.storage k ∨ dirEntry k s = .fail) ∧
      (loadConfig name s = storedConfig s.storage name ∨ loadConfig name s = .fail) := by
    cases kind : nextAnswer s with
    | content =>
      obtain ⟨rom, dir, config⟩ := calls_content kind path name k
      exact ⟨.inl rom, .inl dir, .inl config⟩
    | fail =>
      obtain ⟨rom, dir, config⟩ := calls_fail kind path name k
      exact ⟨.inr (.inl rom), .inr dir, .inr config⟩
    | broken =>
      obtain ⟨rom, dir, config⟩ := calls_broken kind path name k
      exact ⟨.inr (.inr ⟨_, rom⟩), .inr dir, .inr config⟩
  obtain ⟨rom, dir, config⟩ := answers
  refine ⟨rom, dir, config, fun rest h => calls_content (nextAnswer_decided h) path name k,
    fun rest h => calls_fail (nextAnswer_decided h) path name k, fun rest h => ?_, fun before img after h first => ?_,
    fun absent => ?_, fun closed => ?_, fun items opens past => ?_, fun items e opens entry => ?_,
    fun before set after h first => ?_, fun absent => ?_⟩
  · obtain ⟨broken, -⟩ := calls_broken (nextAnswer_decided h) path name k
    exact ⟨_, broken⟩
  · simp only [storedRom, h, findKey_first first]
  · simp only [storedRom, findKey_none absent]
  · simp only [storedDir, closed]
  · simp only [storedDir, opens, List.getElem?_eq_none past]
  · simp only [storedDir, opens, entry]
  · simp only [storedConfig, h, findKey_first first]
  · simp only [storedConfig, findKey_none absent]

/-! ## The host's turn -/

theorem hostStep_enabled {act : HostAct} {s : State} (h : hostEnabled act s = true) : hostStep act s = hostActs act s :=
  if_pos h

/-- A turn given to an act that is not enabled changes nothing (log entry 15). -/
theorem hostStep_disabled {act : HostAct} {s : State} (h : hostEnabled act s = false) : hostStep act s = .next s :=
  if_neg (by simp [h])

/-- A byte written to a queue with room is queued (R263). -/
theorem hostLatch_room {b : Byte} {s : State} (h : s.latchQ.length < s.cfg.latchQDepth) :
    hostLatch b s = { s with latchQ := s.latchQ ++ [b] } :=
  if_pos h

/-- Settles O45: the latch write is enabled exactly while the host is released and in no cycle. -/
theorem latchWriteQueuesTheByte : Obligations.LatchWriteQueuesTheByte := by
  intro s rest b wf sched
  rw [step_sched wf sched, runTurn]
  constructor
  · intro released idle room
    rw [hostStep_enabled (by simp [hostEnabled, released, idle]), hostActs, hostLatch_room (s := { s with sched := rest }) room]
  · intro barred
    refine hostStep_disabled ?_
    rcases barred with asserted | inCycle
    · simp [hostEnabled, asserted]
    · simp [hostEnabled, inCycle]

/-! ## The launch -/

/-- Settles O59: each field of a launch is a fixed value or its parameter. -/
theorem launchFixesTheStatedValues : Obligations.LaunchFixesTheStatedValues := by
  intro p
  exact ⟨⟨rfl, rfl, rfl, rfl, rfl, rfl⟩, rfl, rfl, rfl, rfl, rfl, rfl, rfl, rfl, rfl⟩

end Sys2Proof.Machine
end

section
/-!
PROOFS. Image memory and the presence bits (R42, R43, R53, R55, R56, R107): which steps write them, the order in which a
response writes its window, and what a read and a decoded name take from them.
-/

namespace Sys2Proof.Machine

/-! ## What Context B writes -/

/-- From `s` to `t` no presence bit has changed, and no image byte outside the window of the active bank. -/
def ImagesKept (s t : State) : Prop :=
  t.upperPresent = s.upperPresent ∧
    ∀ a, (∀ n, activeIndex s = some n → ¬ windowAddr s.cfg n a) → Memory.read t.mem a = Memory.read s.mem a

theorem ImagesKept.ofEq {s t : State} (mask : t.upperPresent = s.upperPresent) (mem : t.mem = s.mem) :
    ImagesKept s t :=
  ⟨mask, fun a _ => by rw [mem]⟩

/-- A write into the window of the active bank writes nothing else. -/
theorem imgWrite_imagesKept {n offset : Nat} {v : Byte} {s : State} (active : activeIndex s = some n)
    (window : inWindow s.cfg offset = true) : ImagesKept s (imgWrite (.upper n) offset v s) := by
  simp only [inWindow, Bool.and_eq_true, decide_eq_true_eq] at window
  obtain ⟨low, high⟩ := window
  refine ⟨rfl, fun a outside => Memory.read_write_other fun e => outside n active ?_⟩
  exact ⟨offset - s.cfg.respOffset, by omega, by rw [← e]; congr 1; omega⟩

/-- With the line released, a micro-step that keeps the bracket writes only the window (R55). -/
theorem runPlain_imagesKept {fin : HostReset} {m : Micro} {ms : List Micro} {s : State} (wf : s.cfg.wf = true)
    (plain : isPlain m = true) (h : bracketed s.cfg (activeIndex s) fin .released (m :: ms) = true) :
    ImagesKept s (runPlain m s) := by
  cases m <;> simp only [bracketed, Bool.and_eq_true, Bool.or_eq_true, decide_eq_true_eq] at h
  case callDir => cases plain
  case callRead => cases plain
  case callConfig => cases plain
  case write sel offset v =>
    obtain ⟨⟨-, released | window⟩, -⟩ := h
    · cases released
    · cases active : activeIndex s with
      | none => cases sel <;> simp [windowWrite, active] at window
      | some n =>
        cases sel with
        | lower => simp [windowWrite, active] at window
        | upper bank =>
          simp only [windowWrite, active, Bool.and_eq_true, decide_eq_true_eq] at window
          obtain ⟨rfl, window⟩ := window
          exact imgWrite_imagesKept active window
  case bumpSeq n =>
    obtain ⟨⟨-, active⟩, -⟩ := h
    obtain ⟨size, -⟩ := wf_sizes wf
    exact imgWrite_imagesKept active (by simp [inWindow]; omega)
  case setPresent => cases h.1.2
  case clearPresent => cases h.1
  all_goals exact .ofEq (by simp [runPlain, runMicro]) (by simp [runPlain, runMicro])

/-- What a plan leaves to do is kept in the session. -/
theorem underWay_frame (k : Cmd) (fixed buffer : List Byte) (p : Plan) :
    underWay k fixed buffer p = { p.2 with session := (underWay k fixed buffer p).session } := by
  unfold underWay
  split <;> rfl

/-- With the line released, a micro-step of a legal session writes only the window. -/
theorem microStep_imagesKept {k : Cmd} {fixed buffer : List Byte} {todo : List Micro} {s : State}
    (wf : s.cfg.wf = true) (session : s.session = .executing k fixed buffer todo) (ok : sessionOk s = true)
    (line : s.hostReset = .released) : ImagesKept s (microStep k fixed buffer todo s) := by
  obtain ⟨-, nonempty, keeps⟩ := sessionOk_executing session ok
  rw [line] at keeps
  cases todo with
  | nil => exact absurd rfl nonempty
  | cons m ms =>
    have micro : ImagesKept s (runMicro m ms s).2 := by
      cases plain : isPlain m with
      | true =>
        rw [runMicro_plain plain]
        exact runPlain_imagesKept wf plain keeps
      | false =>
        obtain ⟨-, -, planned, -⟩ := runMicro_call wf plain keeps
        exact .ofEq (by rw [planned]) planned.mem
    rw [microStep, underWay_frame]
    exact micro

/-- From `s` to `t` Context B has at most taken a byte (R144 to R149): it writes its session, the queue and the active
bank, and planning a command it draws. -/
def Received (s t : State) : Prop :=
  t = { s with session := t.session, latchQ := t.latchQ, activeBank := t.activeBank, draws := t.draws,
               answers := t.answers }

theorem startCmd_received (k : Cmd) (fixed buffer : List Byte) (s : State) :
    Received s (startCmd k fixed buffer s) := by
  rw [startCmd, underWay_frame, stepsOf_planned k fixed buffer s]
  rfl

theorem afterFixed_received (k : Cmd) (fixed : List Byte) (s : State) : Received s (afterFixed k fixed s) := by
  unfold afterFixed
  split
  · rfl
  · exact startCmd_received _ _ _ _

theorem selected_received (k : Cmd) (s : State) : Received s (selected k s) := by
  unfold selected
  split
  · rfl
  · exact afterFixed_received _ _ _

theorem collectByte_received (k : Cmd) (ph : Phase) (remaining : Nat) (fixed buffer : List Byte) (b : Byte)
    (s : State) : Received s (collectByte k ph remaining fixed buffer b s) := by
  unfold collectByte
  cases ph <;> simp only
  case fixed =>
    split
    · rfl
    · exact afterFixed_received _ _ _
  case len =>
    split
    · exact startCmd_received _ _ _ _
    · rfl
  case str =>
    split
    · rfl
    · exact startCmd_received _ _ _ _

theorem exec_decodeIdle_received {c : Config} {b : Byte} {s t : State} (h : exec (decodeIdle c b) s = .next t) :
    Received s t := by
  unfold decodeIdle at h
  split at h
  · cases h
    rfl
  · split at h <;> cases h <;> rfl

theorem Received.ofLatchQ {q : List Byte} {s t : State} (h : Received { s with latchQ := q } t) : Received s t := h

/-- A step of Context B is a micro-step of the command it executes, or at most takes a byte (R140, R150). -/
theorem protocolStep_cases {s t : State} (h : protocolStep s = .next t) :
    (∃ k fixed buffer todo, s.session = .executing k fixed buffer todo ∧ t = microStep k fixed buffer todo s) ∨
      Received s t := by
  unfold protocolStep at h
  split at h
  · rename_i session
    cases h
    exact .inl ⟨_, _, _, _, session, rfl⟩
  · cases h
    exact .inr rfl
  · exact .inr (exec_decodeIdle_received h).ofLatchQ
  · unfold selectorByte at h
    split at h <;> cases h
    · exact .inr rfl
    · exact .inr (selected_received _ _).ofLatchQ
  · cases h
    exact .inr (collectByte_received _ _ _ _ _ _ _).ofLatchQ
  all_goals
    cases h
    exact .inr rfl

/-- With the line released, a single step of Context B writes only the window. -/
theorem protocolStep_imagesKept {s t : State} (wf : s.cfg.wf = true) (ok : sessionOk s = true)
    (line : s.hostReset = .released) (h : protocolStep s = .next t) : ImagesKept s t := by
  rcases protocolStep_cases h with ⟨k, fixed, buffer, todo, session, rfl⟩ | received
  · exact microStep_imagesKept wf session ok line
  · exact .ofEq (by rw [received]) (by rw [received])

/-- With the line released, a step other than Context B's whole turn writes only the window of the active bank. -/
theorem step_imagesKept {s t : State} (wf : s.cfg.wf = true) (legal : s.legal = true)
    (single : nextTurn s ≠ .protocolWhole) (line : s.hostReset = .released) (h : step s = .next t) :
    ImagesKept s t := by
  rcases step_cases h with ⟨-, frame⟩ | ⟨protocol, -⟩ | ⟨-, frame⟩
  · exact .ofEq (by rw [frame]) (by rw [frame])
  · obtain ⟨-, ran⟩ := step_next h
    obtain ⟨-, -, -, -, session⟩ := legal_iff.1 (turnTaken_legal s ▸ legal)
    rw [(isProtocolTurn_iff.1 protocol).resolve_right single] at ran
    have kept := protocolStep_imagesKept (by simpa using wf) session (by simpa using line) ran
    rwa [turnTaken_frame] at kept
  · exact .ofEq (by rw [frame]) (by rw [frame])

/-- Settles O42: with the line released no step but a whole turn leaves the window of the active bank. -/
theorem imagesChangeOnlyUnderReset : Obligations.ImagesChangeOnlyUnderReset := by
  intro s t wf legal single h changed
  cases line : s.hostReset with
  | asserted => rfl
  | released =>
    obtain ⟨mask, bytes⟩ := step_imagesKept wf legal single line h
    rcases changed with maskChanged | ⟨a, byteChanged, outside⟩
    · exact absurd mask maskChanged
    · exact absurd (bytes a outside) byteChanged

/-! ## The micro-steps of a response -/

theorem windowWrites_length {c : Config} (wf : c.wf = true) (st : Status) (kind : Kind) (text : List Byte)
    (fill : Nat → Byte) : (windowWrites c st kind text fill).length = c.respSize - 1 := by
  obtain ⟨size, -⟩ := wf_sizes wf
  simp only [windowWrites, List.length_cons, List.length_map, List.length_range]
  omega

/-- Settles O39: the writes planned are the window writes in some order. -/
theorem windowIsWrittenBeforeTheCounter : Obligations.WindowIsWrittenBeforeTheCounter := by
  intro st kind text n s wf active
  have order := shuffle_perm (Config.freePick s.draws) _ (windowWrites s.cfg st kind text (Config.freeByte s.draws)) rfl
  simp only [respondSteps, active]
  refine ⟨_, rfl, ?_, fun m hm => ?_⟩
  · rw [List.length_map, order.length_eq, windowWrites_length wf]
  · obtain ⟨⟨offset, v⟩, planned, rfl⟩ := List.mem_map.1 hm
    obtain ⟨size, -⟩ := wf_sizes wf
    obtain ⟨j, above, inside, rfl⟩ := windowWrites_offset (by omega) (order.mem_iff.1 planned)
    exact ⟨j, v, above, inside, rfl⟩

/-! ## Reads -/

/-- The mask keeps the low `ADDR_BITS` bits (R42). -/
theorem maskAddr_eq_mod (c : Config) (addr : Nat) : maskAddr c addr = addr % c.romSize :=
  Nat.and_two_pow_sub_one_eq_mod addr c.addrBits

theorem exec_rdL (addr : Nat) (s : State) : exec (.rdL addr) s = .next (driveBus (lowerOut addr s) s) := rfl

theorem exec_rdU (addr : Nat) (s : State) : exec (.rdU addr) s = .next (driveBus (upperOut addr s) s) := rfl

/-- Settles O12: both reads see only the masked address. -/
theorem aliasedAddressesReadTheSame : Obligations.AliasedAddressesReadTheSame := by
  intro s a b _ aliased
  have masked : maskAddr s.cfg a = maskAddr s.cfg b := by
    simpa only [maskAddr_eq_mod, Config.romSize] using aliased
  constructor
  · rw [exec_rdL, exec_rdL, lowerOut, lowerOut, masked]
  · rw [exec_rdU, exec_rdU, upperOut, upperOut, masked]

/-- The other branch of `driveBus_released`: a read under reset (R237). -/
theorem driveBus_asserted {out : DBus} {s : State} (h : s.hostReset = .asserted) :
    driveBus out s = drawn (markReadUnderMutation { s with dbusOut := freeBus s.draws }) := by
  unfold driveBus
  rw [h]

/-- Settles O10: both reads drive the bus, and under reset that sets the mark. -/
theorem readUnderResetIsMarked : Obligations.ReadUnderResetIsMarked := by
  intro addr i s read held
  obtain ⟨out, drives⟩ : ∃ out, exec i s = .next (driveBus out s) := by
    rcases read with rfl | rfl
    · exact ⟨_, exec_rdL addr s⟩
    · exact ⟨_, exec_rdU addr s⟩
  refine ⟨_, drives, ?_, driveBus_frame out s⟩
  rw [driveBus_asserted held]
  rfl

/-! ## The decoded name -/

/-- The name pointer is two bytes, the low one first, modulo `ROM_SIZE` (R43, R84). -/
theorem nameOffset_eq (n : Nat) (s : State) :
    nameOffset n s = ((imgRead (.upper n) s.cfg.namePtrOffset s).toNat +
      256 * (imgRead (.upper n) (s.cfg.namePtrOffset + 1) s).toNat) % s.cfg.romSize := by
  have joined : ∀ lo hi : Byte, lo.toNat ||| (hi.toNat <<< 8) = lo.toNat + 256 * hi.toNat := by
    intro lo hi
    rw [Nat.lor_comm, ← Nat.shiftLeft_add_eq_or_of_lt lo.isLt, Nat.shiftLeft_eq]
    omega
  simp only [nameOffset, maskAddr_eq_mod, joined]

/-- The image byte a name read from offset `p` has at index `j`; the offset wraps at the end of the image. -/
def nameByte (n : Nat) (s : State) (p j : Nat) : Byte := imgRead (.upper n) ((p + j) % s.cfg.romSize) s

/-- The bytes are the name at offset `p`, read up to and with the first byte above 0x7F, `fuel` bytes at most (R175). -/
structure NameAt (n : Nat) (s : State) (fuel p : Nat) (name : List Byte) : Prop where
  bound : name.length ≤ fuel
  bytes : ∀ j, j < name.length → name[j]? = some (nameByte n s p j &&& 0x7F)
  inner : ∀ j, j + 1 < name.length → (nameByte n s p j).toNat < 0x80
  last : name.length = fuel ∨ ∃ j, name.length = j + 1 ∧ 0x80 ≤ (nameByte n s p j).toNat

/-- A byte above 0x7F ends the name. -/
theorem nameFrom_last {n fuel p : Nat} {s : State} (h : 0x80 ≤ (nameByte n s p 0).toNat) :
    nameFrom n s (fuel + 1) (p % s.cfg.romSize) = [nameByte n s p 0 &&& 0x7F] :=
  if_pos h

/-- After any other byte the name goes on at the next offset. -/
theorem nameFrom_more {n fuel p : Nat} {s : State} (h : (nameByte n s p 0).toNat < 0x80) :
    nameFrom n s (fuel + 1) (p % s.cfg.romSize) =
      (nameByte n s p 0 &&& 0x7F) :: nameFrom n s fuel ((p + 1) % s.cfg.romSize) := by
  have next : maskAddr s.cfg (p % s.cfg.romSize + 1) = (p + 1) % s.cfg.romSize := by
    rw [maskAddr_eq_mod, Nat.mod_add_mod]
  rw [← next]
  exact if_neg (Nat.not_le.2 h)

theorem nameByte_succ (n : Nat) (s : State) (p j : Nat) : nameByte n s (p + 1) j = nameByte n s p (j + 1) := by
  rw [nameByte, nameByte, Nat.add_right_comm, Nat.add_assoc]

theorem NameAt.cons {n fuel p : Nat} {s : State} {name : List Byte} (h : NameAt n s fuel (p + 1) name)
    (first : (nameByte n s p 0).toNat < 0x80) : NameAt n s (fuel + 1) p ((nameByte n s p 0 &&& 0x7F) :: name) := by
  refine ⟨Nat.succ_le_succ h.bound, ?_, ?_, ?_⟩
  · rintro (- | j) below
    · rfl
    · rw [List.getElem?_cons_succ, h.bytes j (Nat.lt_of_succ_lt_succ below), nameByte_succ]
  · rintro (- | j) below
    · exact first
    · rw [← nameByte_succ]
      exact h.inner j (Nat.lt_of_succ_lt_succ below)
  · rcases h.last with full | ⟨j, length, high⟩
    · exact .inl (congrArg Nat.succ full)
    · exact .inr ⟨j + 1, congrArg Nat.succ length, nameByte_succ n s p j ▸ high⟩

theorem nameFrom_nameAt (n : Nat) (s : State) (fuel p : Nat) :
    NameAt n s fuel p (nameFrom n s fuel (p % s.cfg.romSize)) := by
  induction fuel generalizing p with
  | zero => exact ⟨le_rfl, by simp [nameFrom], by simp [nameFrom], .inl rfl⟩
  | succ fuel ih =>
    by_cases high : 0x80 ≤ (nameByte n s p 0).toNat
    · rw [nameFrom_last high]
      exact ⟨by simp, by simp, by simp, .inr ⟨0, rfl, high⟩⟩
    · have first := Nat.not_le.1 high
      rw [nameFrom_more first]
      exact (ih (p + 1)).cons first

theorem wf_nameMax {c : Config} (h : c.wf = true) : 1 ≤ c.nameMax := by
  simp only [Config.wf, Config.sizesOk, Bool.and_eq_true, decide_eq_true_eq] at h
  omega

/-- Settles O24: the pointer is in range, so its name is the name read from there. -/
theorem decodedNameFollowsThePointer : Obligations.DecodedNameFollowsThePointer := by
  intro n s wf
  have inside : nameOffset n s % s.cfg.romSize = nameOffset n s := by rw [nameOffset_eq, Nat.mod_mod]
  have read := nameFrom_nameAt n s s.cfg.nameMax (nameOffset n s)
  rw [inside] at read
  have room := wf_nameMax wf
  have ended : 1 ≤ (decodeName n s).length ∧ ((decodeName n s).length = s.cfg.nameMax ∨
      0x80 ≤ (nameByte n s (nameOffset n s) ((decodeName n s).length - 1)).toNat) := by
    rcases read.last with full | ⟨j, length, high⟩
    · exact ⟨full ▸ room, .inl full⟩
    · rw [decodeName, length]
      exact ⟨Nat.succ_pos j, .inr high⟩
  obtain ⟨nonempty, last⟩ := ended
  exact ⟨nameOffset_eq n s, nonempty, read.bound, read.bytes, read.inner, last⟩

end Sys2Proof.Machine
end

section
/-!
PROOFS. The encodings (R71 to R77, R86): what the decoders read from an encoding and from any other bytes.
-/

namespace Sys2Proof

open Sys2Proof.Machine

/-! ## An encoding read back -/

/-- A string read back leaves the bytes after it; its length fits the length byte (R76). -/
theorem decodeString_encodeString {text : List Byte} (fits : text.length ≤ 255) (k : Cmd) (fixed rest : List Byte) :
    decodeString k fixed (encodeString text ++ rest) = .instr (.ofCmd k fixed text) rest := by
  have length : (BitVec.ofNat 8 text.length).toNat = text.length := by
    rw [BitVec.toNat_ofNat]
    omega
  simp [encodeString, decodeString, length]

/-- Once its fixed bytes are read, a command takes its string, if it has one (R73). -/
theorem decodeParams_append {k : Cmd} {fixed : List Byte} (whole : fixed.length = k.nfixed) (rest : List Byte) :
    decodeParams k (fixed ++ rest) =
      if k.hasString then decodeString k fixed rest else .instr (.ofCmd k fixed []) rest := by
  simp [decodeParams, ← whole]

/-- A command without a string reads back (R73). -/
theorem decode_encodeCmd {c : Config} (wf : c.wf = true) {k : Cmd} {fixed : List Byte} (plain : k.hasString = false)
    (whole : fixed.length = k.nfixed) (rest : List Byte) :
    decode c (encodeCmd c k fixed ++ rest) = .instr (.ofCmd k fixed []) rest := by
  rw [encodeCmd, List.cons_append, List.cons_append, decode_selector wf, decodeParams_append whole, plain]
  rfl

/-- A command with a string reads back (R73, R76). -/
theorem decode_encodeCmd_string {c : Config} (wf : c.wf = true) {k : Cmd} {fixed text : List Byte}
    (string : k.hasString = true) (whole : fixed.length = k.nfixed) (ok : stringOk text = true) (rest : List Byte) :
    decode c (encodeCmd c k (fixed ++ encodeString text) ++ rest) = .instr (.ofCmd k fixed text) rest := by
  have fits : text.length ≤ 255 := of_decide_eq_true ok
  rw [encodeCmd, List.cons_append, List.cons_append, decode_selector wf, List.append_assoc, decodeParams_append whole,
    string]
  exact decodeString_encodeString fits k fixed rest

/-- A byte other than the `PREFIX` byte is one instruction by itself (R72). -/
theorem decode_idleByte {c : Config} {b : Byte} (other : b ≠ c.prefixByte) (rest : List Byte) :
    decode c (b :: rest) = .instr (decodeIdle c b) rest := by
  rw [decode, if_neg other]

/-- A `PREFIX` byte and one that selects no command are one instruction (R214). -/
theorem decode_unknown {c : Config} {b : Byte} (unselected : c.selectors.toList.contains b = false) (rest : List Byte) :
    decode c (c.prefixByte :: b :: rest) = .instr (.unknown b) rest := by
  simp only [decode, if_true, decodeCommand, lookup_none_iff.2 unselected]

/-- Settles O2: each format of the table reads back, whatever follows. -/
theorem decoderTakesExactlyOneSequence : Obligations.DecoderTakesExactlyOneSequence := by
  intro c i rest wf ok onLatch notPrefix
  cases i with
  | release => exact absurd rfl onLatch
  | rdL addr => exact absurd rfl onLatch
  | rdU addr => exact absurd rfl onLatch
  | pfx => exact absurd rfl notPrefix
  | ign b =>
    simp only [Instr.wf, Bool.and_eq_true, decide_eq_true_eq] at ok
    obtain ⟨other, ignored⟩ := ok
    refine (decode_idleByte other rest).trans ?_
    rw [decodeIdle, if_neg other, if_pos ignored]
  | sel b =>
    simp only [Instr.wf, Bool.and_eq_true, decide_eq_true_eq, Bool.not_eq_true'] at ok
    obtain ⟨other, kept⟩ := ok
    refine (decode_idleByte other rest).trans ?_
    rw [decodeIdle, if_neg other, if_neg (by rw [kept]; decide)]
  | dirFirst => exact decode_encodeCmd wf (k := .dirFirst) (fixed := []) rfl rfl rest
  | dirNext => exact decode_encodeCmd wf (k := .dirNext) (fixed := []) rfl rfl rest
  | romListFirst => exact decode_encodeCmd wf (k := .romListFirst) (fixed := []) rfl rfl rest
  | romListNext => exact decode_encodeCmd wf (k := .romListNext) (fixed := []) rfl rfl rest
  | romIn p0 path => exact decode_encodeCmd_string wf (k := .romIn) (fixed := [p0]) rfl rfl ok rest
  | romOut p0 => exact decode_encodeCmd wf (k := .romOut) (fixed := [p0]) rfl rfl rest
  | cfgSet name => exact decode_encodeCmd_string wf (k := .configSet) (fixed := []) rfl rfl ok rest
  | led p0 => exact decode_encodeCmd wf (k := .led) (fixed := [p0]) rfl rfl rest
  | picoload => exact decode_encodeCmd wf (k := .picoload) (fixed := []) rfl rfl rest
  | unknown b => exact decode_unknown (by simpa only [Instr.wf, Bool.not_eq_true'] using ok) rest

/-- A bus encoding is the sample of its instruction (R71). -/
theorem decodeBus_encode {c : Config} {i : Instr} {op : BitVec 2} {addr : Nat} (h : encode c i = .bus op addr) :
    decodeBus op addr = i := by
  cases i <;> cases h <;> rfl

theorem encode_latch_ne_nil {c : Config} {i : Instr} {bytes : List Byte} (h : encode c i = .latch bytes) :
    bytes ≠ [] := by
  cases i <;> cases h <;> exact List.cons_ne_nil _ _

/-- Settles O1: a bus sample reads back, a lone `PREFIX` does, and so do any other latch bytes. -/
theorem encodeThenDecodeGivesInstruction : Obligations.EncodeThenDecodeGivesInstruction := by
  intro c i wf ok
  cases encoding : encode c i with
  | bus op addr => rw [decodeEncoding, decodeBus_encode encoding]
  | latch bytes =>
    have spelled : latchBytes c i = bytes := by rw [latchBytes, encoding]
    have reads : decode c bytes = .instr i [] := by
      by_cases lonePrefix : i = .pfx
      · subst lonePrefix
        cases encoding
        simp [decode, decodeCommand]
      · have onLatch : latchBytes c i ≠ [] := spelled ▸ encode_latch_ne_nil encoding
        simpa [spelled] using decoderTakesExactlyOneSequence c i [] wf ok onLatch lonePrefix
    simp only [decodeEncoding, reads]

/-! ## Any bytes -/

/-- The reader finds an instruction, or it waits for bytes with which it would read exactly one (R77). -/
def ReadsOrWaits (read : List Byte → Decoded) (bytes : List Byte) : Prop :=
  (∃ i rest, read bytes = .instr i rest) ∨
    (read bytes = .error .truncated ∧ ∃ more i, read (bytes ++ more) = .instr i [])

/-- A string waits for its length byte, and then for as many bytes as that says (R76). -/
theorem decodeString_readsOrWaits (k : Cmd) (fixed bytes : List Byte) : ReadsOrWaits (decodeString k fixed) bytes := by
  cases bytes with
  | nil => exact .inr ⟨rfl, [0], _, rfl⟩
  | cons len text =>
    by_cases short : text.length < len.toNat
    · refine .inr ⟨if_pos short, List.replicate (len.toNat - text.length) 0, ?_⟩
      have filled : (text ++ List.replicate (len.toNat - text.length) (0 : Byte)).length = len.toNat := by
        rw [List.length_append, List.length_replicate]
        omega
      rw [List.cons_append, decodeString, if_neg (by omega), List.drop_eq_nil_of_le filled.le]
      exact ⟨_, rfl⟩
    · exact .inl ⟨_, _, if_neg short⟩

/-- A command waits for its fixed bytes, and then for its string (R73). -/
theorem decodeParams_readsOrWaits (k : Cmd) (bytes : List Byte) : ReadsOrWaits (decodeParams k) bytes := by
  by_cases short : bytes.length < k.nfixed
  · have filled : (bytes ++ List.replicate (k.nfixed - bytes.length) (0 : Byte)).length = k.nfixed := by
      rw [List.length_append, List.length_replicate]
      omega
    refine .inr ⟨if_pos short, List.replicate (k.nfixed - bytes.length) 0 ++ if k.hasString then [0] else [], ?_⟩
    rw [← List.append_assoc, decodeParams_append filled]
    cases k.hasString <;> exact ⟨_, rfl⟩
  · obtain ⟨fixed, params, rfl, whole⟩ : ∃ fixed params, bytes = fixed ++ params ∧ fixed.length = k.nfixed :=
      ⟨_, _, (List.take_append_drop k.nfixed bytes).symm, by rw [List.length_take]; omega⟩
    simp only [ReadsOrWaits, List.append_assoc, decodeParams_append whole]
    cases k.hasString with
    | false => exact .inl ⟨_, _, rfl⟩
    | true => exact decodeString_readsOrWaits k fixed params

/-- After a `PREFIX` byte the reader waits for no more than the parameters of the command selected (R81). -/
theorem decodeCommand_readsOrWaits (c : Config) (bytes : List Byte) : ReadsOrWaits (decodeCommand c) bytes := by
  cases bytes with
  | nil => exact .inl ⟨_, _, rfl⟩
  | cons b params =>
    cases selected : lookup c b with
    | none => exact .inl ⟨.unknown b, params, by simp only [decodeCommand, selected]⟩
    | some k =>
      have reads (bytes : List Byte) : decodeCommand c (b :: bytes) = decodeParams k bytes := by
        simp only [decodeCommand, selected]
      simpa only [ReadsOrWaits, List.cons_append, reads] using decodeParams_readsOrWaits k params

/-- Settles O3: any byte but `PREFIX` is an instruction, and after `PREFIX` the reader reads one or waits. -/
theorem everyByteStreamDecodesOrIsUnfinished : Obligations.EveryByteStreamDecodesOrIsUnfinished := by
  intro c b bs
  by_cases isPrefix : b = c.prefixByte
  · have reads (bytes : List Byte) : decode c (b :: bytes) = decodeCommand c bytes := if_pos isPrefix
    simpa only [ReadsOrWaits, List.cons_append, reads] using decodeCommand_readsOrWaits c bs
  · exact .inl ⟨_, _, decode_idleByte isPrefix bs⟩

/-! ## What is read is well-formed -/

theorem ofCmd_wf {buffer : List Byte} (fits : stringOk buffer = true) (c : Config) (k : Cmd) (fixed : List Byte) :
    (Instr.ofCmd k fixed buffer).wf c = true := by
  cases k
  case romIn => exact fits
  case configSet => exact fits
  all_goals rfl

/-- What an idle byte decodes to is what its encoding spells (R72). -/
theorem decodeIdle_wf (c : Config) (b : Byte) : (decodeIdle c b).wf c = true := by
  unfold decodeIdle
  split
  · rfl
  · rename_i other
    split
    · rename_i ignored
      simp only [Instr.wf, ignored, Bool.and_true]
      exact decide_eq_true other
    · rename_i kept
      simp only [Instr.wf, kept, Bool.not_false, Bool.and_true]
      exact decide_eq_true other

/-- A string read is no longer than its length byte says (R76). -/
theorem decodeString_wf {c : Config} {k : Cmd} {fixed bytes rest : List Byte} {i : Instr}
    (h : decodeString k fixed bytes = .instr i rest) : i.wf c = true := by
  cases bytes with
  | nil => cases h
  | cons len text =>
    rw [decodeString] at h
    split at h
    · cases h
    · cases h
      have := len.isLt
      exact ofCmd_wf (decide_eq_true (by rw [List.length_take]; omega)) c k fixed

theorem decodeParams_wf {c : Config} {k : Cmd} {bytes rest : List Byte} {i : Instr}
    (h : decodeParams k bytes = .instr i rest) : i.wf c = true := by
  unfold decodeParams at h
  split at h
  · cases h
  · split at h
    · exact decodeString_wf h
    · cases h
      exact ofCmd_wf rfl c k _

/-- A byte that selects no command is none of the nine selectors (R145, R214). -/
theorem decodeCommand_wf {c : Config} {bytes rest : List Byte} {i : Instr}
    (h : decodeCommand c bytes = .instr i rest) : i.wf c = true := by
  cases bytes with
  | nil =>
    cases h
    rfl
  | cons b params =>
    rw [decodeCommand] at h
    split at h
    · rename_i unselected
      cases h
      rw [Instr.wf, lookup_none_iff.1 unselected]
      rfl
    · exact decodeParams_wf h

/-- Settles O4: an idle byte, or what follows a `PREFIX` byte. -/
theorem decodedLatchInstructionIsWellFormed : Obligations.DecodedLatchInstructionIsWellFormed := by
  intro c bytes i rest h
  cases bytes with
  | nil => cases h
  | cons b bs =>
    rw [decode] at h
    split at h
    · exact decodeCommand_wf h
    · cases h
      exact decodeIdle_wf c b

/-- Settles O5: the decoder run on each word. -/
theorem wordsOfTheTableDecode : Obligations.WordsOfTheTableDecode := by
  unfold Obligations.WordsOfTheTableDecode
  decide

end Sys2Proof
end

section
/-!
PROOFS. The payload texts (R90, R91), the commands that write no image bytes but their response's (R173, R174, R190,
R192, R210), and the engine's turn (R120).
-/

namespace Sys2Proof.Machine

/-! ## Payload texts -/

theorem byteOfNat_ne_nul {n : Nat} (positive : 0 < n) (fits : n < 256) : BitVec.ofNat 8 n ≠ 0#8 := by
  intro nul
  have value := congrArg BitVec.toNat nul
  rw [BitVec.toNat_ofNat, Nat.mod_eq_of_lt fits] at value
  exact positive.ne' value

theorem decDigit_ne_nul (d : Nat) : decDigit d ≠ 0#8 := byteOfNat_ne_nul (by omega) (by omega)

theorem hexDigit_ne_nul (d : Nat) : hexDigit d ≠ 0#8 := by
  unfold hexDigit
  split <;> exact byteOfNat_ne_nul (by omega) (by omega)

theorem decDigits_noNul (fuel n : Nat) {acc : List Byte} (h : 0#8 ∉ acc) : 0#8 ∉ decDigits fuel n acc := by
  induction fuel generalizing n acc with
  | zero => exact h
  | succ fuel ih =>
    have more : 0#8 ∉ decDigit n :: acc := List.not_mem_cons_of_ne_of_not_mem (decDigit_ne_nul n).symm h
    rw [decDigits]
    split
    · exact more
    · exact ih (n / 10) more

@[simp] theorem dec_noNul (n : Nat) : 0#8 ∉ dec n := decDigits_noNul _ _ List.not_mem_nil

theorem hexDigits_noNul (v k : Nat) : 0#8 ∉ hexDigits v k := by
  induction k with
  | zero => exact List.not_mem_nil
  | succ k ih => exact List.not_mem_cons_of_ne_of_not_mem (hexDigit_ne_nul _).symm ih

@[simp] theorem hexMask_noNul (c : Config) (mask : Mask) : 0#8 ∉ hexMask c mask := hexDigits_noNul _ _

/-- Sanitizing replaces a NUL, as any byte below 0x20 (R90). -/
@[simp] theorem san_noNul (t : List Byte) : 0#8 ∉ san t := by
  intro nul
  obtain ⟨b, -, zero⟩ := List.mem_map.1 nul
  split at zero
  · cases zero
  · subst zero
    rename_i printable
    exact printable (.inl (by decide))

/-- `FW_VERSION` is NUL-free (R5). -/
theorem wf_fwVersion {c : Config} (h : c.wf = true) : 0#8 ∉ c.fwVersion := by
  have ascii : asciiText c.fwVersion = true := by
    simp only [Config.wf, Config.sizesOk, Bool.and_eq_true] at h
    tauto
  intro nul
  simpa using List.all_eq_true.1 ascii 0#8 nul

theorem errText_noNul (e : Cause) : 0#8 ∉ errText e := by
  cases e <;> simp [errText]

/-- The placeholder formatters add printable bytes to texts that hold no NUL (R90, R91). -/
theorem placeholderText_noNul {c : Config} (wf : c.wf = true) (r : TextReq) : 0#8 ∉ placeholderText c r := by
  cases r with
  | dir name size => simp [placeholderText]
  | banner mask => simp [placeholderText, wf_fwVersion wf]
  | rom bank type major minor patch name => simp [placeholderText]
  | error e => exact errText_noNul e

/-- Settles O6: the placeholder formatters, and a free text with its NULs taken out. -/
theorem payloadTextsHoldNoNul : Obligations.PayloadTextsHoldNoNul := by
  intro c r wf
  unfold payloadText
  split
  · exact placeholderText_noNul wf r
  · simp

/-! ## The ROM list -/

/-- Settles O22: the cursor, then the response. -/
theorem romListFirstResetsTheCursor : Obligations.RomListFirstResetsTheCursor := by
  intro s wf w
  refine ⟨complete (romListFirst s), rfl, ?_, ?_⟩
  · rw [romListFirst, respond_frame]
    rfl
  · exact respond_respondedFrom (setListCursor 0 s) wf w rfl rfl rfl _ _ _

theorem romListNext_frame (s : State) :
    romListNext s = { s with
      mem := (romListNext s).mem, draws := (romListNext s).draws, listCursor := (romListNext s).listCursor } := by
  unfold romListNext
  split
  · rw [respond_frame]
  · split <;> rw [respond_frame] <;> rfl

/-- Past the last slot (R174). -/
theorem romListNext_done {s : State} (h : s.cfg.n ≤ s.listCursor) : romListNext s = respond .done .none [] s :=
  if_pos h

/-- On a present bank (R174). -/
theorem romListNext_present {s : State} (below : ¬ s.cfg.n ≤ s.listCursor)
    (bit : s.upperPresent.getLsbD s.listCursor = true) :
    romListNext s = respond .ok .string (romTitle s.listCursor s) (setListCursor (s.listCursor + 1) s) := by
  have slot : present s.listCursor s = true := by simp [present, bit]; omega
  rw [romListNext, if_neg below, if_pos slot]

/-- On an empty slot (R174). -/
theorem romListNext_empty {s : State} (below : ¬ s.cfg.n ≤ s.listCursor)
    (bit : ¬ s.upperPresent.getLsbD s.listCursor = true) :
    romListNext s = respond .ok .none [] (setListCursor (s.listCursor + 1) s) := by
  have slot : ¬ present s.listCursor s = true := by simp [present, bit]
  rw [romListNext, if_neg below, if_neg slot]

/-- Settles O23: past the last slot, on a present bank, on an empty slot. -/
theorem romListNextReportsOneSlot : Obligations.RomListNextReportsOneSlot := by
  intro s wf w
  refine ⟨complete (romListNext s), rfl, congrArg complete (romListNext_frame s), ?_⟩
  split
  · rename_i past
    rw [romListNext_done past]
    exact ⟨by simp, respond_respondedFrom s wf w rfl rfl rfl _ _ _⟩
  · rename_i below
    split
    · rename_i bit
      rw [romListNext_present below bit]
      exact ⟨by simp, respond_respondedFrom (setListCursor (s.listCursor + 1) s) wf w rfl rfl rfl _ _ _⟩
    · rename_i bit
      rw [romListNext_empty below bit]
      exact ⟨by simp, respond_respondedFrom (setListCursor (s.listCursor + 1) s) wf w rfl rfl rfl _ _ _⟩

/-! ## Bank parameters -/

/-- The other case of `resolveBank_eq`: under `Reject` a parameter out of range names no bank (R74). -/
theorem resolveBank_reject {c : Config} {p0 : Byte} (above : c.n ≤ p0.toNat) (policy : c.bankRangePolicy = .reject) :
    resolveBank c p0 = none := by
  rw [resolveBank, if_neg (by omega), policy]

/-- A bank parameter that names a bank names a bit of the mask (R13, R74). -/
theorem resolveBank_lt_maskWidth {c : Config} (wf : c.wf = true) {p0 : Byte} {n : Nat}
    (h : resolveBank c p0 = some n) : n < 256 := by
  have below := resolveBank_lt wf h
  obtain ⟨-, -, -, banks⟩ := wf_sizes wf
  omega

/-- Settles O26: both commands report the parameter before they do anything else. -/
theorem rejectedBankIsReportedOnly : Obligations.RejectedBankIsReportedOnly := by
  intro p0 path i s command wf w above policy
  have rejected := resolveBank_reject above policy
  have meaning : exec i s = .next (complete (badBank p0 s)) := by
    rcases command with rfl | rfl
    · change Host.Outcome.next (complete (romIn p0 path s)) = _
      simp only [romIn, rejected]
    · change Host.Outcome.next (complete (romOut p0 s)) = _
      simp only [romOut, rejected]
  refine ⟨_, meaning, ?_, ?_⟩
  · rw [badBank, raiseError, respond_frame]
    rfl
  · exact respond_respondedFrom s wf w rfl rfl rfl _ _ _

/-- A bank parameter that names a bank: one presence bit, inside the bracket, then success (R192). -/
theorem romOut_bank {p0 : Byte} {n : Nat} {s : State} (wf : s.cfg.wf = true) (w : Memory.wf s.mem = true)
    (line : s.hostReset = .released) (bank : resolveBank s.cfg p0 = some n) :
    BracketThenResponse s.mem (maskWithBit s.upperPresent n false) .ok .none [] s (romOut p0 s) := by
  have run : romOut p0 s = respond .ok .none [] (releaseReset (unloadUpper n (assertReset s))) := by
    simp only [romOut, bank]
  rw [run]
  refine respond_afterBracket wf line (.refl s) ?_ w .ok .none []
  rw [assertReset_frame line]
  rfl

@[simp] theorem romOut_answers (p0 : Byte) (s : State) : (romOut p0 s).answers = s.answers := by
  unfold romOut
  split
  · simp [badBank]
  · simp

/-- Settles O28: the bracket around one presence bit. -/
theorem romOutClearsTheBank : Obligations.RomOutClearsTheBank := by
  intro p0 n s wf w line bank
  have resolved := resolveBank_eq bank
  have ended := romOut_bank wf w line resolved
  have answers := romOut_answers p0 s
  refine ⟨complete (romOut p0 s), rfl, ?_⟩
  generalize romOut p0 s = t at ended answers ⊢
  obtain ⟨frame, ⟨trace, romEnable, cycle⟩, mask, responded⟩ := ended
  rw [Mutated, answers, trace, romEnable, cycle] at frame
  refine ⟨congrArg complete frame, fun j => ?_, responded⟩
  rw [complete_upperPresent, mask, maskWithBit_getLsbD _ _ _ _ (resolveBank_lt_maskWidth wf resolved)]

/-! ## The indicator -/

/-- Setting the indicator writes it and, where it changes, records that. -/
theorem setLed_frame (l : Led) (s : State) : setLed l s = { s with led := l, trace := (setLed l s).trace } := by
  unfold setLed
  split
  · rename_i same
    rw [← same]
  · rfl

theorem ledCmd_frame (p0 : Byte) (s : State) :
    ledCmd p0 s = { s with
      mem := (ledCmd p0 s).mem, draws := (ledCmd p0 s).draws, led := (ledCmd p0 s).led,
      trace := (ledCmd p0 s).trace } := by
  rw [ledCmd, respond_frame, setLed_frame]
  rfl

theorem ledCmd_led (p0 : Byte) (s : State) : (ledCmd p0 s).led = resolveLed p0 (Config.freeBool s.draws) := by
  simp [ledCmd]

theorem ledCmd_trace (p0 : Byte) (s : State) :
    (ledCmd p0 s).trace = if s.led = (ledCmd p0 s).led then s.trace else .ledChange (ledCmd p0 s).led :: s.trace := by
  rw [ledCmd_led, ledCmd, respond_trace, setLed_trace]
  rfl

/-- Settles O30: the indicator and its change, then the response. -/
theorem ledSetsTheIndicator : Obligations.LedSetsTheIndicator := by
  intro p0 s wf w
  refine ⟨complete (ledCmd p0 s), rfl, congrArg complete (ledCmd_frame p0 s), fun same => ?_, fun changed => ?_,
    fun off => ?_, fun on => ?_, ?_⟩
  · exact (ledCmd_trace p0 s).trans (if_pos same)
  · exact (ledCmd_trace p0 s).trans (if_neg changed)
  · rw [complete_led, ledCmd_led, off]
    rfl
  · rw [complete_led, ledCmd_led, on]
    rfl
  · exact respond_respondedFrom (setLed _ (drawn s)) wf w (by simp) (by simp) (by simp) _ _ _

/-! ## The engine's turn -/

/-- Settles O47: the turn decided is the engine's. -/
theorem engineTurnRunsTheDecodedSample : Obligations.EngineTurnRunsTheDecodedSample := by
  intro s rest wf sched
  rw [step_sched wf sched]
  rfl

end Sys2Proof.Machine
end

section
/-!
PROOFS. A command performed a micro-step at a time (R102, R108, R150 to R152): its micro-steps run in a row, an oracle
call planning the rest anew, end where the command's meaning does.
-/

namespace Sys2Proof.Machine

/-! ## Turns in a row -/

/-- A run begins with a step. -/
theorem run_succ (n : Nat) {s t : State} (h : step s = .next t) :
    Sys2Proof.core.run (n + 1) s = Sys2Proof.core.run n t := by
  have first : Sys2Proof.core.step s = .next t := h
  simp only [Host.Core.run, first]

/-- Context B's turn while a command executes is a micro-step of it (R150). -/
theorem step_executing {k : Cmd} {fixed buffer : List Byte} {todo : List Micro} {rest : List Turn} {s : State}
    (wf : s.cfg.wf = true) (sched : s.sched = .protocol :: rest)
    (session : s.session = .executing k fixed buffer todo) :
    step s = .next (microStep k fixed buffer todo { s with sched := rest }) := by
  rw [step_sched wf sched, runTurn]
  exact protocolStep_executing (s := { s with sched := rest }) session

/-! ## What a plan neither reads nor writes -/

@[simp] theorem putAside_cfg (v : Session) (turns : List Turn) (d : Nat) (s : State) :
    (putAside v turns d s).cfg = s.cfg := rfl

@[simp] theorem putAside_listCursor (v : Session) (turns : List Turn) (d : Nat) (s : State) :
    (putAside v turns d s).listCursor = s.listCursor := rfl

@[simp] theorem putAside_dirCursor (v : Session) (turns : List Turn) (d : Nat) (s : State) :
    (putAside v turns d s).dirCursor = s.dirCursor := rfl

theorem present_aside (n : Nat) (v : Session) (turns : List Turn) (d : Nat) (s : State) :
    present n (putAside v turns d s) = present n s := rfl

theorem activeIndex_aside (v : Session) (turns : List Turn) (d : Nat) (s : State) :
    activeIndex (putAside v turns d s) = activeIndex s := rfl

/-- A plan made with another session and schedule. -/
def planAside (v : Session) (turns : List Turn) (p : Plan) : Plan := (p.1, putAside v turns p.2.draws p.2)

theorem planRespond_aside (before : List Micro) (st : Status) (kind : Kind) (text : List Byte) (v : Session)
    (turns : List Turn) (s : State) :
    planRespond before st kind text (putAside v turns s.draws s) =
      planAside v turns (planRespond before st kind text s) := by
  have drawnAside : respondDrawn (putAside v turns s.draws s) =
      putAside v turns (respondDrawn s).draws (respondDrawn s) := by
    unfold respondDrawn
    rw [activeIndex_aside]
    cases activeIndex s <;> rfl
  exact Prod.ext rfl drawnAside

theorem planRaise_aside (before : List Micro) (e : Cause) (v : Session) (turns : List Turn) (s : State) :
    planRaise before e (putAside v turns s.draws s) = planAside v turns (planRaise before e s) :=
  planRespond_aside _ _ _ _ _ _ _

/-- A micro-step, an oracle call too, neither reads nor writes the session and the schedule. -/
theorem runMicro_aside (m : Micro) (todo : List Micro) (v : Session) (turns : List Turn) (s : State) :
    runMicro m todo (putAside v turns s.draws s) = planAside v turns (runMicro m todo s) := by
  cases plain : isPlain m with
  | true =>
    rw [runMicro_plain plain, runMicro_plain plain, runPlain_aside plain, planAside, runPlain_draws plain]
  | false =>
    cases m
    case callDir k =>
      change planDir k (dirEntry k s) (putAside v turns (answered s).draws (answered s)) =
        planAside v turns (planDir k (dirEntry k s) (answered s))
      cases dirEntry k s
      · exact planRaise_aside _ _ _ _ _
      · exact planRespond_aside _ _ _ _ _ _ _
      · exact planRespond_aside _ _ _ _ _ _ _
    case callRead n path =>
      change planRead n path _ (readRom path s) (putAside v turns (answered s).draws (answered s)) =
        planAside v turns (planRead n path _ (readRom path s) (answered s))
      cases readRom path s
      · exact planRaise_aside _ _ _ _ _
      · exact planRespond_aside _ _ _ _ _ _ _
      · exact planRaise_aside _ _ _ _ _
    case callConfig name =>
      change planConfig name (loadConfig name s) (putAside v turns (answered s).draws (answered s)) =
        planAside v turns (planConfig name (loadConfig name s) (answered s))
      cases loadConfig name s
      · exact planRaise_aside _ _ _ _ _
      · exact planRespond_aside _ _ _ _ _ _ _
    all_goals cases plain

theorem nameFrom_aside (n fuel i : Nat) (v : Session) (turns : List Turn) (d : Nat) (s : State) :
    nameFrom n (putAside v turns d s) fuel i = nameFrom n s fuel i := by
  induction fuel generalizing i with
  | zero => rfl
  | succ fuel ih =>
    rw [nameFrom, nameFrom, ih]
    rfl

theorem romTitle_aside (n : Nat) (v : Session) (turns : List Turn) (d : Nat) (s : State) :
    romTitle n (putAside v turns d s) = romTitle n s := by
  have name : decodeName n (putAside v turns d s) = decodeName n s := nameFrom_aside _ _ _ _ _ _ _
  rw [romTitle, romTitle, name]
  rfl

theorem planListNext_aside (v : Session) (turns : List Turn) (s : State) :
    planListNext (putAside v turns s.draws s) = planAside v turns (planListNext s) := by
  simp only [planListNext, putAside_cfg, putAside_listCursor, present_aside, romTitle_aside]
  split
  · exact planRespond_aside _ _ _ _ _ _ _
  · split <;> exact planRespond_aside _ _ _ _ _ _ _

/-- Planning a command neither reads nor writes the session and the schedule. -/
theorem stepsOf_aside (k : Cmd) (fixed buffer : List Byte) (v : Session) (turns : List Turn) (s : State) :
    stepsOf k fixed buffer (putAside v turns s.draws s) = planAside v turns (stepsOf k fixed buffer s) := by
  cases k
  case dirNext =>
    simp only [stepsOf, putAside_dirCursor]
    cases s.dirCursor
    · exact planRespond_aside _ _ _ _ _ _ _
    · rfl
  case romListFirst => exact planRespond_aside _ _ _ _ _ _ _
  case romListNext => exact planListNext_aside _ _ _
  case romIn =>
    simp only [stepsOf, putAside_cfg]
    cases resolveBank s.cfg (firstByte fixed)
    · exact planRaise_aside _ _ _ _ _
    · rfl
  case romOut =>
    simp only [stepsOf, putAside_cfg]
    cases resolveBank s.cfg (firstByte fixed)
    · exact planRaise_aside _ _ _ _ _
    · exact planRespond_aside _ _ _ _ _ _ _
  case led => exact planRespond_aside _ _ _ _ _ _ (drawn s)
  all_goals rfl

/-! ## A plan run to its end -/

/-- A plan's micro-steps, performed one after another, end in the state. -/
inductive PlanEnds : Plan → State → Prop where
  | nil (s : State) : PlanEnds ([], s) s
  | cons {m : Micro} {ms : List Micro} {s t : State} : PlanEnds (runMicro m ms s) t → PlanEnds (m :: ms, s) t

/-- A plan ends in one state only. -/
theorem PlanEnds.unique {p : Plan} {t u : State} (h : PlanEnds p t) (k : PlanEnds p u) : t = u := by
  induction h with
  | nil s =>
    cases k
    rfl
  | cons _ ih =>
    cases k with
    | cons rest => exact ih rest

theorem PlanEnds.aside {p : Plan} {t : State} (h : PlanEnds p t) (v : Session) (turns : List Turn) :
    PlanEnds (planAside v turns p) (putAside v turns t.draws t) := by
  induction h with
  | nil s => exact .nil _
  | cons _ ih =>
    refine .cons ?_
    rw [runMicro_aside]
    exact ih

/-- A plan without oracle calls ends where its micro-steps' effects add up to. -/
theorem PlanDoes.ends {p : Plan} {t : State} (h : PlanDoes p t) : PlanEnds p t := by
  obtain ⟨ms, s⟩ := p
  obtain ⟨plain, effect⟩ := h
  subst effect
  induction ms generalizing s with
  | nil => exact .nil s
  | cons m ms ih =>
    refine .cons ?_
    rw [runMicro_plain (plain m List.mem_cons_self)]
    exact ih _ fun x hx => plain x (List.mem_cons_of_mem _ hx)

/-- Micro-steps, then a response. -/
theorem planRespond_ends {before : List Micro} (plain : ∀ m ∈ before, isPlain m = true) {s : State}
    (w : Memory.wf s.mem = true) (st : Status) (kind : Kind) (text : List Byte) :
    PlanEnds (planRespond before st kind text s) (respond st kind text (runPlains before s)) :=
  (planRespond_does plain rfl (runPlains_wf before w)).ends

/-- An error report on its own. -/
theorem planRaise_ends {s : State} (w : Memory.wf s.mem = true) (e : Cause) :
    PlanEnds (planRaise [] e s) (raiseError e s) :=
  (planRaise_does (before := []) (by simp) rfl w).ends

/-- Context B's turns in a row run a plan to its end (R150, R152). -/
theorem PlanEnds.run {p : Plan} {t : State} (h : PlanEnds p t) (wf : p.2.cfg.wf = true) (k : Cmd)
    (fixed buffer : List Byte) (v : Session) :
    ∃ n, ∀ rest,
      Sys2Proof.core.run n (underWay k fixed buffer (planAside v (List.replicate n .protocol ++ rest) p)) =
        .next (putAside (afterCmd k) rest t.draws t) := by
  induction h generalizing v with
  | nil s => exact ⟨0, fun rest => rfl⟩
  | @cons m ms s t _ ih =>
    have kept := (runMicro_keeps m ms s).cfg
    obtain ⟨n, runs⟩ := ih (kept ▸ wf) (.executing k fixed buffer (m :: ms))
    refine ⟨n + 1, fun rest => ?_⟩
    have turn : step (underWay k fixed buffer (planAside v (List.replicate (n + 1) .protocol ++ rest) (m :: ms, s))) =
        .next (underWay k fixed buffer
          (planAside (.executing k fixed buffer (m :: ms)) (List.replicate n .protocol ++ rest)
            (runMicro m ms s))) := by
      rw [← runMicro_aside]
      exact step_executing (s := underWay k fixed buffer (planAside v _ (m :: ms, s))) wf rfl rfl
    rw [run_succ n turn, runs]

/-! ## The commands -/

/-- An answered directory call plans the line (R170, R171). -/
theorem dirLine_ends (k : Nat) {s : State} (w : Memory.wf s.mem = true) : PlanEnds ([.callDir k], s) (dirLine k s) :=
  .cons (planDir_does (s := answered s) k _ w).ends

theorem dirNext_ends {s : State} (w : Memory.wf s.mem = true) (fixed buffer : List Byte) :
    PlanEnds (stepsOf .dirNext fixed buffer s) (dirNext s) := by
  simp only [stepsOf, dirNext]
  cases s.dirCursor with
  | none => exact planRespond_ends (by simp) w _ _ _
  | some k => exact dirLine_ends k w

theorem romListNext_ends {s : State} (w : Memory.wf s.mem = true) : PlanEnds (planListNext s) (romListNext s) := by
  unfold planListNext romListNext
  split
  · exact planRespond_ends (by simp) w _ _ _
  · split <;> exact planRespond_ends (by simp [isPlain]) w _ _ _

theorem romIn_ends {s : State} (w : Memory.wf s.mem = true) (fixed path : List Byte) :
    PlanEnds (stepsOf .romIn fixed path s) (romIn (firstByte fixed) path s) := by
  simp only [stepsOf, romIn]
  cases resolveBank s.cfg (firstByte fixed) with
  | none => exact planRaise_ends w _
  | some n => exact .cons (planRead_does (s := answered s) n path _ _ w).ends

theorem romOut_ends {s : State} (w : Memory.wf s.mem = true) (fixed buffer : List Byte) :
    PlanEnds (stepsOf .romOut fixed buffer s) (romOut (firstByte fixed) s) := by
  simp only [stepsOf, romOut]
  cases resolveBank s.cfg (firstByte fixed) with
  | none => exact planRaise_ends w _
  | some n => exact planRespond_ends (by simp [isPlain]) w _ _ _

/-- A command's meaning is where its plan ends, and then the session its command leaves (R150, R152, R213). -/
theorem stepsOf_ends {s : State} (w : Memory.wf s.mem = true) (k : Cmd) (fixed buffer : List Byte) :
    ∃ t, exec (.ofCmd k fixed buffer) s = .next { t with session := afterCmd k } ∧
      PlanEnds (stepsOf k fixed buffer s) t := by
  cases k
  case dirFirst => exact ⟨_, rfl, dirLine_ends 0 w⟩
  case dirNext => exact ⟨_, rfl, dirNext_ends w _ _⟩
  case romListFirst => exact ⟨_, rfl, planRespond_ends (by simp [isPlain]) w _ _ _⟩
  case romListNext => exact ⟨_, rfl, romListNext_ends w⟩
  case romIn => exact ⟨_, rfl, romIn_ends w _ _⟩
  case romOut => exact ⟨_, rfl, romOut_ends w _ _⟩
  case configSet => exact ⟨_, rfl, .cons (planConfig_does (s := answered s) buffer _ w).ends⟩
  case led => exact ⟨_, rfl, planRespond_ends (s := drawn s) (by simp [isPlain]) w _ _ _⟩
  case picoload => exact ⟨_, rfl, .cons (.nil _)⟩

/-- Settles O40: the command's plan, run to its end in the state with the turns and in the one without them. -/
theorem microStepsAddUpToTheCommand : Obligations.MicroStepsAddUpToTheCommand := by
  intro k fixed buffer s wf w
  obtain ⟨t, -, ends⟩ := stepsOf_ends w k fixed buffer
  have planCfg : (stepsOf k fixed buffer s).2.cfg.wf = true := (stepsOf_keeps k fixed buffer s).cfg ▸ wf
  obtain ⟨n, runs⟩ := ends.run planCfg k fixed buffer s.session
  refine ⟨n, fun rest => ?_⟩
  obtain ⟨u, meaning, uEnds⟩ := stepsOf_ends (s := putAside s.session rest s.draws s) w k fixed buffer
  rw [stepsOf_aside] at uEnds
  have same := uEnds.unique (ends.aside s.session rest)
  have started := runs rest
  rw [← stepsOf_aside] at started
  exact started.trans (same ▸ meaning).symm

end Sys2Proof.Machine
end

section
/-!
PROOFS. The store and the response channel (R100 to R112, R123, R128, R143): a bank-select and the reads after it, the
line by which the host is reset, and what every command that responds does to the sequence byte and to image memory.
-/

namespace Sys2Proof.Machine

/-! ## The line -/

theorem driveReset_frame (l : HostReset) (s : State) :
    driveReset l s = { s with hostReset := l, trace := (driveReset l s).trace } := by
  unfold driveReset
  split
  · rename_i same
    rw [← same]
  · rfl

/-- Settles O43: both drive the line, the assertion with the host's cycle cut short first. -/
theorem hostResetIsNoResetOfTheBlock : Obligations.HostResetIsNoResetOfTheBlock := fun s =>
  ⟨driveReset_frame .asserted (cutShort s), driveReset_frame .released s⟩

/-! ## A bank-select and the reads after it -/

theorem present_iff {n : Nat} {s : State} : present n s = true ↔ n < s.cfg.n ∧ s.upperPresent.getLsbD n = true := by
  simp [present]

theorem selectBank_eq (b : Byte) (s : State) :
    selectBank b s = { s with activeBank :=
      if b.toNat < s.cfg.n ∧ s.upperPresent.getLsbD b.toNat = true then .bank b.toNat else .noBank } := by
  simp only [selectBank, present_iff]

/-- Settles O18: the decoder's last branch, and the store the select makes. -/
theorem bankSelectStoresBankOrNoBank : Obligations.BankSelectStoresBankOrNoBank := by
  refine ⟨fun c b noPrefix kept => ?_, fun b s => congrArg Host.Outcome.next (selectBank_eq b s)⟩
  rw [decodeIdle, if_neg noPrefix, if_neg (by simpa using kept)]

/-- The bank an upper read is translated to after a bank-select (R47, R100). -/
theorem xlate_selectBank (b : Byte) (s : State) :
    xlate (selectBank b s) = if present b.toNat s = true then some b.toNat else none := by
  cases there : present b.toNat s with
  | false => simp [xlate, activeIndex, selectBank, there]
  | true =>
    obtain ⟨bank, -⟩ := present_iff.1 there
    have kept : present b.toNat (selectBank b s) = true := there
    have active : activeIndex (selectBank b s) = some b.toNat := by simp [activeIndex, selectBank, there, bank]
    simp [xlate, active, kept]

/-- What an upper read outputs after a bank-select (R128). -/
theorem upperOut_selectBank (b : Byte) (addr : Nat) (s : State) :
    upperOut addr (selectBank b s) =
      if b.toNat < s.cfg.n ∧ s.upperPresent.getLsbD b.toNat = true then
        .drive (imgRead (.upper b.toNat) (addr &&& s.cfg.addrMask) s)
      else .hiZ := by
  simp only [upperOut, xlate_selectBank, ← present_iff]
  cases present b.toNat s <;> rfl

/-- The upper read after a bank-select, the host not held in reset (R123, R128). -/
theorem exec_rdU_selectBank (b : Byte) (addr : Nat) {s : State} (line : s.hostReset = .released) :
    exec (.rdU addr) (selectBank b s) =
      .next { selectBank b s with dbusOut := upperOut addr (selectBank b s) } := by
  rw [exec_rdU, driveBus_released (by simpa using line)]

/-- Settles O14: the read after the select outputs the byte of the bank selected. -/
theorem selectThenUpperReadSeesTheBank : Obligations.SelectThenUpperReadSeesTheBank := by
  intro b addr s u line selected
  cases selected
  rw [exec_rdU_selectBank b addr line, upperOut_selectBank]

/-- Settles O15: the load has made the bank present and put the image in place. -/
theorem loadedImageReadsBack : Obligations.LoadedImageReadsBack := by
  intro b img addr s wf w line bank
  have bit : (loadUpper b.toNat img s).upperPresent.getLsbD b.toNat = true := by
    rw [loadUpper_upperPresent, maskWithBit_getLsbD _ _ _ _ b.isLt, if_pos rfl]
  have inside : addr % s.cfg.romSize < s.cfg.romSize := Nat.mod_lt _ (Nat.two_pow_pos _)
  refine ⟨_, _, rfl, exec_rdU_selectBank b addr (by simpa using line), ?_⟩
  change upperOut addr (selectBank b (loadUpper b.toNat img s)) = _
  rw [upperOut_selectBank, if_pos ⟨by simpa using bank, bit⟩, loadUpper_cfg,
    show addr &&& s.cfg.addrMask = _ from maskAddr_eq_mod s.cfg addr, loadUpper_read_same w inside]

/-! ## Up to the response -/

/-- From `s` to `u` a command has come to its response: it has written what commands write, and image bytes only where
it writes a file's (R111). -/
structure BeforeResponse (i : Instr) (s u : State) : Prop where
  keeps : CommandKeeps s u
  canonical : Memory.wf s.mem = true → Memory.wf u.mem = true
  unreplaced : (∀ sel, replacesImage i sel s = false) → u.mem = s.mem
  bank : Memory.wf s.mem = true → ∀ n < s.cfg.n, replacesImage i (.upper n) s = false →
    ∀ off < s.cfg.romSize, imgRead (.upper n) off u = imgRead (.upper n) off s

/-- A command that has not written image memory. -/
theorem BeforeResponse.ofMem {i : Instr} {s u : State} (keeps : CommandKeeps s u) (mem : u.mem = s.mem) :
    BeforeResponse i s u := by
  refine ⟨keeps, fun w => mem ▸ w, fun _ => mem, fun _ n _ _ off _ => ?_⟩
  rw [imgRead_mem, imgRead_mem, mem, keeps.cfg]

/-- The command answers `t`: a response, and before it what `BeforeResponse` allows. -/
def EndsResponding (i : Instr) (s t : State) : Prop :=
  ∃ st kind text u, BeforeResponse i s u ∧ t = respond st kind text u

theorem EndsResponding.ofMem {i : Instr} {s u : State} (st : Status) (kind : Kind) (text : List Byte)
    (keeps : CommandKeeps s u) (mem : u.mem = s.mem) : EndsResponding i s (respond st kind text u) :=
  ⟨st, kind, text, u, .ofMem keeps mem, rfl⟩

theorem dirLine_endsResponding (i : Instr) (k : Nat) (s : State) : EndsResponding i s (dirLine k s) := by
  have cursor (c : Option Nat) : CommandKeeps s (setDirCursor c (answered s)) :=
    (answered_keeps s).trans (setDirCursor_keeps _ _)
  unfold dirLine dirOn
  split <;> exact .ofMem _ _ _ (cursor _) rfl

theorem dirNext_endsResponding (i : Instr) (s : State) : EndsResponding i s (dirNext s) := by
  unfold dirNext
  split
  · exact .ofMem _ _ _ (.refl s) rfl
  · exact dirLine_endsResponding _ _ _

theorem romListNext_endsResponding (i : Instr) (s : State) : EndsResponding i s (romListNext s) := by
  unfold romListNext
  split
  · exact .ofMem _ _ _ (.refl s) rfl
  · split <;> exact .ofMem _ _ _ (setListCursor_keeps _ _) rfl

theorem romOut_endsResponding (i : Instr) (p0 : Byte) (s : State) : EndsResponding i s (romOut p0 s) := by
  unfold romOut
  split
  · exact .ofMem _ _ _ (.refl s) rfl
  · exact .ofMem _ _ _ (((assertReset_keeps _).trans (unloadUpper_keeps _ _)).trans (releaseReset_keeps _)) (by simp)

/-- A load of bank `n` that leaves its presence bit at `bit`, inside the bracket. -/
theorem beforeResponse_load {p0 : Byte} {path : List Byte} {n : Nat} {s : State}
    (resolved : resolveBank s.cfg p0 = some n) (read : readRom path s ≠ .fail) (img : Image) (bit : Bool) :
    BeforeResponse (.romIn p0 path) s (releaseReset (loadBroken n img bit (assertReset (answered s)))) := by
  have replaced (sel : ImgSel) : replacesImage (.romIn p0 path) sel s = decide (sel = .upper n) := by
    simp [replacesImage, resolved, read]
  refine ⟨?_, fun w => ?_, fun untouched => ?_, fun w m bank other off inside => ?_⟩
  · have held := (answered_keeps s).trans (assertReset_keeps _)
    exact (held.trans (loadBroken_keeps _ _ _ _)).trans (releaseReset_keeps _)
  · rw [releaseReset_mem]
    exact loadBroken_wf (by simpa using w)
  · simpa [replaced] using untouched (.upper n)
  · have differs : m ≠ n := by simpa [replaced] using other
    have outside : ¬ imageAddr s.cfg (.upper n) (imgAddr s.cfg (.upper m) off) :=
      fun ⟨_, below, e⟩ => differs (imgAddr_upper_eq inside below e).1
    simpa [imgRead_mem] using loadBroken_other (img := img) (bit := bit) (s := assertReset (answered s))
      (by simpa using w) (by simpa using outside)

theorem romIn_endsResponding (p0 : Byte) (path : List Byte) (s : State) :
    EndsResponding (.romIn p0 path) s (romIn p0 path s) := by
  unfold romIn
  split
  · exact .ofMem _ _ _ (.refl s) rfl
  · rename_i n resolved
    cases read : readRom path s with
    | fail => exact .ofMem _ _ _ (answered_keeps s) rfl
    | ok img => exact ⟨_, _, _, _, beforeResponse_load resolved (by simp [read]) img true, rfl⟩
    | broken img => exact ⟨_, _, _, _, beforeResponse_load resolved (by simp [read]) img _, rfl⟩

/-- A bank set that names no bank of a list loads nothing. -/
theorem loadBanks_none {set : BankSet} {ns : List Nat} (h : ∀ n ∈ ns, bankSetImage set n = none) (s : State) :
    loadBanks set ns s = s := by
  induction ns with
  | nil => rfl
  | cons n ns ih =>
    simp only [List.forall_mem_cons] at h
    obtain ⟨first, others⟩ := h
    simp only [loadBanks, first, ih others]

/-- The replacement of the bank set, inside the bracket. -/
theorem beforeResponse_replaceBanks {name : List Byte} {set : BankSet} {s : State}
    (opens : loadConfig name s = .ok set) :
    BeforeResponse (.cfgSet name) s (releaseReset (replaceBanks set (assertReset (answered s)))) := by
  have lower : replacesImage (.cfgSet name) .lower s = set.lower.isSome := by simp [replacesImage, opens]
  have upper (n : Nat) : replacesImage (.cfgSet name) (.upper n) s = (bankSetImage set n).isSome := by
    simp [replacesImage, opens]
  refine ⟨?_, fun w => ?_, fun untouched => ?_, fun w n bank kept off inside => ?_⟩
  · have held := (answered_keeps s).trans (assertReset_keeps _)
    exact (held.trans (replaceBanks_keeps _ _)).trans (releaseReset_keeps _)
  · rw [releaseReset_mem]
    exact replaceBanks_wf (by simpa using w)
  · have noLower : set.lower = none := by simpa [lower] using untouched .lower
    have noBank (n : Nat) : bankSetImage set n = none := by simpa [upper] using untouched (.upper n)
    simp [replaceBanks, loadBanks_none fun n _ => noBank n, noLower, loadLowerOpt]
  · have unnamed : bankSetImage set n = none := by simpa [upper] using kept
    have read := replaceBanks_read_upper set (s := assertReset (answered s)) (by simpa using w) (j := n) (off := off)
      (by simpa using bank) (by simpa using inside)
    simpa [unnamed, imgRead_mem, (replaceBanks_keeps _ _).cfg] using read

theorem cfgSet_endsResponding (name : List Byte) (s : State) : EndsResponding (.cfgSet name) s (cfgSet name s) := by
  unfold cfgSet
  cases opens : loadConfig name s with
  | fail =>
    refine .ofMem _ _ _ ((answered_keeps s).trans (failBracket_keeps _)) ?_
    unfold failBracket
    split <;> simp
  | ok set => exact ⟨_, _, _, _, beforeResponse_replaceBanks opens, rfl⟩

theorem ledCmd_endsResponding (i : Instr) (p0 : Byte) (s : State) : EndsResponding i s (ledCmd p0 s) :=
  .ofMem _ _ _ ((drawn_keeps s).trans (setLed_keeps _ _)) (by simp)

/-- Each of the eight commands that respond ends with its response (R112). -/
theorem exec_endsResponding {i : Instr} (h : responds i = true) (s : State) :
    ∃ t, exec i s = .next (complete t) ∧ EndsResponding i s t := by
  cases i
  case dirFirst => exact ⟨_, rfl, dirLine_endsResponding _ _ _⟩
  case dirNext => exact ⟨_, rfl, dirNext_endsResponding _ _⟩
  case romListFirst => exact ⟨_, rfl, .ofMem _ _ _ (setListCursor_keeps _ _) rfl⟩
  case romListNext => exact ⟨_, rfl, romListNext_endsResponding _ _⟩
  case romIn p0 path => exact ⟨_, rfl, romIn_endsResponding _ _ _⟩
  case romOut p0 => exact ⟨_, rfl, romOut_endsResponding _ _ _⟩
  case cfgSet name => exact ⟨_, rfl, cfgSet_endsResponding _ _⟩
  case led p0 => exact ⟨_, rfl, ledCmd_endsResponding _ _ _⟩
  all_goals cases h

/-! ## The response -/

/-- A response advances the sequence byte of the active bank (R111). -/
theorem respond_seq {n : Nat} {s : State} (wf : s.cfg.wf = true) (w : Memory.wf s.mem = true)
    (active : activeIndex s = some n) (st : Status) (kind : Kind) (text : List Byte) :
    windowByte n 0 (respond st kind text s) = windowByte n 0 s + 1 := by
  obtain ⟨size, -⟩ := wf_sizes wf
  have responded := respond_responded (st := st) (kind := kind) (text := text) w size
  simp only [Responded, active] at responded
  obtain ⟨seq, -⟩ := responded
  exact seq

/-- Settles O33: the command has kept the sequence byte up to its response, which advances it. -/
theorem completedCommandAdvancesTheSequenceByte : Obligations.CompletedCommandAdvancesTheSequenceByte := by
  intro i n s command wf w active kept
  obtain ⟨t, meaning, st, kind, text, u, before, rfl⟩ := exec_endsResponding command s
  obtain ⟨size, fits, -, -⟩ := wf_sizes wf
  have keeps := before.keeps
  refine ⟨_, meaning, ?_⟩
  have seq := respond_seq (keeps.cfg ▸ wf) (before.canonical w)
    ((activeIndex_congr keeps.cfg keeps.activeBank).trans active) st kind text
  have same : windowByte n 0 u = windowByte n 0 s := by
    rw [windowByte, keeps.cfg]
    exact before.bank w n (activeIndex_lt active) kept _ (by omega)
  rw [← same]
  exact seq

/-- Settles O34: without a bank the response writes nothing (R110), and the command has written nothing before it. -/
theorem noBankMeansNoResponse : Obligations.NoBankMeansNoResponse := by
  intro i s t command untouched noBank h
  obtain ⟨_, meaning, st, kind, text, u, before, rfl⟩ := exec_endsResponding command s
  rw [meaning] at h
  cases h
  have inactive := (activeIndex_congr before.keeps.cfg before.keeps.activeBank).trans noBank
  have unanswered : respond st kind text u = u := by simp only [respond, inactive]
  rw [unanswered]
  exact before.unreplaced untouched

end Sys2Proof.Machine
end

section
/-!
PROOFS. The bus engine and the host's read cycle (R120 to R126, R262): what each sample drives, what the output depends
on, and what the host's acts do in their places of the cycle.
-/

namespace Sys2Proof.Machine

/-! ## What a sample drives -/

/-- Settles O7: a sample with `rom_enable` off decodes to the release in either region. -/
theorem releaseFreesTheBus : Obligations.ReleaseFreesTheBus :=
  ⟨decodeBus_opcode false, fun _ => rfl⟩

/-- Settles O8: with the line released the lower read drives the byte it is given. -/
theorem lowerReadDrivesTheLowerImage : Obligations.LowerReadDrivesTheLowerImage := by
  refine ⟨decodeBus_opcode true .lower, fun addr s line => ?_⟩
  rw [exec_rdL, driveBus_released line, lowerOut, maskAddr]

theorem activeOk_bank {n : Nat} {s : State} (active : s.activeBank = .bank n) (ok : activeOk s = true) :
    n < s.cfg.n := by
  simpa [activeOk, active] using ok

theorem upperOut_noBank {addr : Nat} {s : State} (active : s.activeBank = .noBank) : upperOut addr s = .hiZ := by
  simp only [upperOut, xlate, activeIndex, active]

theorem upperOut_bank {n addr : Nat} {s : State} (active : s.activeBank = .bank n) (bank : n < s.cfg.n) :
    upperOut addr s =
      if s.upperPresent.getLsbD n = true then .drive (imgRead (.upper n) (addr &&& s.cfg.addrMask) s) else .hiZ := by
  have index : activeIndex s = some n := by simp only [activeIndex, active, if_pos bank]
  have bit : present n s = s.upperPresent.getLsbD n := by simp only [present, bank, decide_true, Bool.true_and]
  simp only [upperOut, xlate, index, bit]
  cases s.upperPresent.getLsbD n <;> rfl

/-- Settles O9: no bank is active, or a bank in range is. -/
theorem upperReadDrivesThePresentActiveBank : Obligations.UpperReadDrivesThePresentActiveBank := by
  refine ⟨decodeBus_opcode true .upper, fun addr s line ok => ?_⟩
  rw [exec_rdU, driveBus_released line]
  cases active : s.activeBank with
  | noBank => rw [upperOut_noBank active]
  | bank n => rw [upperOut_bank active (activeOk_bank active ok)]

/-! ## The engine's iteration -/

/-- The output the engine's inputs ask for (R120), the host not held in reset. -/
def engineOut (s : State) : DBus :=
  if s.romEnable = true then (if s.region = .upper then upperOut s.addr s else lowerOut s.addr s) else .hiZ

theorem engineStep_released {s : State} (line : s.hostReset = .released) :
    engineStep s = .next { iterated s with dbusOut := engineOut s } := by
  have driven (out : DBus) : driveBus out (iterated s) = { iterated s with dbusOut := out } := driveBus_released line
  rw [engineStep, decodeBus_opcode, engineOut]
  split
  · split
    · exact congrArg Host.Outcome.next (driven _)
    · exact congrArg Host.Outcome.next (driven _)
  · rfl

/-- In the engine's turn, the host not held in reset, the bus is written and the host's cycle counted. -/
theorem step_engine_released {s : State} {rest : List Turn} (wf : s.cfg.wf = true) (sched : s.sched = .engine :: rest)
    (line : s.hostReset = .released) :
    step s = .next { s with sched := rest, cycle := cycleIterated s.cycle, dbusOut := engineOut s } :=
  (step_sched wf sched).trans (engineStep_released line)

/-- Settles O11: the engine's output is that of the row of the table its inputs choose. -/
theorem engineIterationFollowsTheDecisionTable : Obligations.EngineIterationFollowsTheDecisionTable := by
  intro s rest wf sched ok line
  rw [step_engine_released wf sched line]
  congr 2
  cases enabled : s.romEnable with
  | false => simp [engineOut, enabled]
  | true =>
    cases region : s.region with
    | lower => simp [engineOut, enabled, region, lowerOut, maskAddr]
    | upper =>
      cases active : s.activeBank with
      | noBank => simp [engineOut, enabled, region, upperOut_noBank active]
      | bank n => simp [engineOut, enabled, region, upperOut_bank active (activeOk_bank active ok)]

/-! ## What the output depends on -/

theorem lowerOut_congr {s s' : State} (cfg : s.cfg = s'.cfg) (mem : s.mem = s'.mem) (addr : Nat) :
    lowerOut addr s = lowerOut addr s' := by
  simp only [lowerOut, imgRead, cfg, mem]

theorem upperOut_congr {s s' : State} (cfg : s.cfg = s'.cfg) (mem : s.mem = s'.mem)
    (mask : s.upperPresent = s'.upperPresent) (active : s.activeBank = s'.activeBank) (addr : Nat) :
    upperOut addr s = upperOut addr s' := by
  have index := activeIndex_congr cfg active
  have bit (n : Nat) : present n s = present n s' := by simp only [present, cfg, mask]
  have translated : xlate s = xlate s' := by simp only [xlate, index, bit]
  simp only [upperOut, translated, imgRead, cfg, mem]

/-- With the line released, a read that drives `out` ends with it on the bus. -/
theorem dbusOut_of_drives {i : Instr} {out : DBus} {s t : State} (drives : exec i s = .next (driveBus out s))
    (line : s.hostReset = .released) (ran : exec i s = .next t) : t.dbusOut = out := by
  rw [drives, driveBus_released line] at ran
  cases ran
  rfl

/-- Settles O13: a release drives nothing, and what a read drives is a function of the store. -/
theorem engineOutputIgnoresTheProtocol : Obligations.EngineOutputIgnoresTheProtocol := by
  intro i addr s s' t t' sample cfg mem mask active line line' ran ran'
  rcases sample with rfl | rfl | rfl
  · cases ran
    cases ran'
    rfl
  · rw [dbusOut_of_drives (exec_rdL addr s) line ran, dbusOut_of_drives (exec_rdL addr s') line' ran',
      lowerOut_congr cfg mem]
  · rw [dbusOut_of_drives (exec_rdU addr s) line ran, dbusOut_of_drives (exec_rdU addr s') line' ran',
      upperOut_congr cfg mem mask active]

/-! ## The host's read cycle -/

/-- While the line is held the host can only break its duty (R264). -/
theorem hostEnabled_held {act : HostAct} {s : State} (held : s.hostReset = .asserted)
    (duty : isBreach (.host act) = false) : hostEnabled act s = false := by
  cases act with
  | breach => cases duty
  | _ => simp only [hostEnabled, held, reduceCtorEq, decide_false, Bool.false_and]

/-- The turn given to an act that is enabled is that act. -/
theorem step_host_enabled {act : HostAct} {rest : List Turn} {s : State} (wf : s.cfg.wf = true)
    (sched : s.sched = .host act :: rest) (enabled : hostEnabled act { s with sched := rest } = true) :
    step s = hostActs act { s with sched := rest } :=
  (step_sched wf sched).trans (hostStep_enabled enabled)

/-- The turn given to an act that is not enabled is only taken off the schedule (log entry 15). -/
theorem step_host_disabled {act : HostAct} {rest : List Turn} {s : State} (wf : s.cfg.wf = true)
    (sched : s.sched = .host act :: rest) (barred : hostEnabled act { s with sched := rest } = false) :
    step s = .next { s with sched := rest } :=
  (step_sched wf sched).trans (hostStep_disabled barred)

/-- An act of the read cycle is not enabled while the line is held, nor out of its place in the cycle. -/
theorem step_host_barred {act : HostAct} {rest : List Turn} {s : State} {misplaced : Prop} (wf : s.cfg.wf = true)
    (sched : s.sched = .host act :: rest) (duty : isBreach (.host act) = false)
    (barred : s.hostReset = .asserted ∨ misplaced)
    (disables : misplaced → hostEnabled act { s with sched := rest } = false) :
    step s = .next { s with sched := rest } := by
  rcases barred with held | place
  · exact step_host_disabled wf sched (hostEnabled_held held duty)
  · exact step_host_disabled wf sched (disables place)

theorem presentStep_bounded {region : Region} {addr : Nat} {s : State} (bound : addr < 2 ^ s.cfg.hostAddrBits) :
    presentStep region addr s = .next (hostPresent region addr s) :=
  if_pos bound

/-- Settles O44: the acts enabled, then the turns in which one is not. -/
theorem hostReadCycleActs : Obligations.HostReadCycleActs := by
  intro s rest region addr v wf
  refine ⟨fun sched line free bound => ?_, fun sched line served driven => ?_, fun sched line served _ => ?_,
    fun sched line sampled => ?_, fun sched held bound => ?_, fun sched barred => ?_, fun sched barred => ?_,
    fun sched barred => ?_, fun sched line => ?_⟩
  · rw [step_host_enabled wf sched (by simpa [hostEnabled, line] using free)]
    exact presentStep_bounded bound
  · refine ⟨_, step_host_enabled wf sched (by simp [hostEnabled, line, served]), ?_⟩
    simp only [hostSample, busValue, driven, drawn, observe]
  · exact ⟨_, _, step_host_enabled wf sched (by simp [hostEnabled, line, served]), rfl⟩
  · exact step_host_enabled wf sched (by simp [hostEnabled, line, sampled])
  · rw [step_host_enabled wf sched (by simp [hostEnabled, held])]
    exact presentStep_bounded bound
  · exact step_host_barred wf sched rfl barred fun ⟨notIdle, notEnding⟩ => by simp [hostEnabled, notIdle, notEnding]
  · exact step_host_barred wf sched rfl barred fun notServed => by simp [hostEnabled, notServed]
  · exact step_host_barred wf sched rfl barred fun notSampled => by simp [hostEnabled, notSampled]
  · exact step_host_disabled wf sched (by simp [hostEnabled, line])

end Sys2Proof.Machine
end

section
/-!
PROOFS. Context B a byte at a time (R140 to R149): its turn by the state of its session and the oldest byte of the
queue.
-/

namespace Sys2Proof.Machine

/-! ## The turn, by the session -/

theorem protocolStep_idle {s : State} {b : Byte} {q : List Byte} (session : s.session = .idle)
    (queue : s.latchQ = b :: q) : protocolStep s = exec (decodeIdle s.cfg b) { s with latchQ := q } := by
  simp only [protocolStep, session, queue]

theorem protocolStep_awaiting {s : State} {b : Byte} {q : List Byte} (session : s.session = .awaitingCommand)
    (queue : s.latchQ = b :: q) : protocolStep s = selectorByte b { s with latchQ := q } := by
  simp only [protocolStep, session, queue]

theorem protocolStep_collecting {s : State} {k : Cmd} {ph : Phase} {r : Nat} {fixed buffer q : List Byte} {b : Byte}
    (session : s.session = .collectingParams k ph r fixed buffer) (queue : s.latchQ = b :: q) :
    protocolStep s = .next (collectByte k ph r fixed buffer b { s with latchQ := q }) := by
  simp only [protocolStep, session, queue]

theorem protocolStep_maintenance {s : State} (session : s.session = .maintenance) : protocolStep s = .next s := by
  simp only [protocolStep, session]

/-- With no byte to take, only a micro-step is left to do (R140). -/
theorem protocolStep_blocked {s : State} (queue : s.latchQ = [])
    (receives : ∀ k fixed buffer todo, s.session ≠ .executing k fixed buffer todo) : protocolStep s = .next s := by
  cases session : s.session with
  | executing k fixed buffer todo => exact absurd session (receives k fixed buffer todo)
  | _ => simp only [protocolStep, session, queue]

theorem protocolWhole_decoded {s : State} {i : Instr} {q : List Byte} (session : s.session = .idle)
    (decoded : decode s.cfg s.latchQ = .instr i q) : protocolWhole s = exec i { s with latchQ := q } := by
  simp only [protocolWhole, session, decoded]

theorem step_protocol {s : State} {rest : List Turn} (wf : s.cfg.wf = true) (sched : s.sched = .protocol :: rest) :
    step s = protocolStep { s with sched := rest } :=
  step_sched wf sched

/-! ## In `Idle` -/

/-- Settles O16: the `PREFIX` byte is the first class tested. -/
theorem prefixOpensACommand : Obligations.PrefixOpensACommand :=
  ⟨fun _ => if_pos rfl, fun _ => rfl⟩

/-- Settles O17: the legacy bytes are tested once the byte is no `PREFIX`. -/
theorem ignoredByteChangesNothing : Obligations.IgnoredByteChangesNothing := by
  refine ⟨fun c b other ignored => ?_, fun _ _ => rfl⟩
  rw [decodeIdle, if_neg other, if_pos (List.contains_iff_mem.2 ignored)]

/-- Settles O48: the turn taken off the schedule, then the byte off the queue. -/
theorem protocolTurnRunsTheDecodedByte : Obligations.ProtocolTurnRunsTheDecodedByte := by
  intro s b q rest wf sched session queue
  rw [step_protocol wf sched]
  exact protocolStep_idle session queue

/-- Settles O49: the turn taken off the schedule, then the instruction's bytes off the queue. -/
theorem wholeTurnRunsTheDecodedInstruction : Obligations.WholeTurnRunsTheDecodedInstruction := by
  intro s i q rest wf sched session decoded
  rw [step_sched wf sched, runTurn]
  exact protocolWhole_decoded (s := { s with sched := rest }) session decoded

/-! ## Inside a command sequence -/

theorem step_awaiting {s : State} {b : Byte} {q : List Byte} {rest : List Turn} (wf : s.cfg.wf = true)
    (session : s.session = .awaitingCommand) (queue : s.latchQ = b :: q) (sched : s.sched = .protocol :: rest) :
    step s = selectorByte b { s with latchQ := q, sched := rest } := by
  rw [step_protocol wf sched]
  exact protocolStep_awaiting session queue

theorem step_collecting {s : State} {k : Cmd} {ph : Phase} {r : Nat} {fixed buffer q : List Byte} {b : Byte}
    {rest : List Turn} (wf : s.cfg.wf = true) (session : s.session = .collectingParams k ph r fixed buffer)
    (queue : s.latchQ = b :: q) (sched : s.sched = .protocol :: rest) :
    step s = .next (collectByte k ph r fixed buffer b { s with latchQ := q, sched := rest }) := by
  rw [step_protocol wf sched]
  exact protocolStep_collecting session queue

/-- Settles O35: the lookup of the byte, then the parameters of the command found. -/
theorem selectorByteChoosesTheCommand : Obligations.SelectorByteChoosesTheCommand := by
  intro s b q rest wf session queue sched
  rw [step_awaiting wf session queue sched, selectorByte]
  cases lookup s.cfg b with
  | none => rfl
  | some k =>
    simp only [selected, afterFixed, apply_ite Host.Outcome.next]
    rfl

/-- Settles O36: each phase asks whether the byte is its last. -/
theorem parameterBytesAreCollected : Obligations.ParameterBytesAreCollected := by
  intro s k ph r fixed buffer b q rest wf session _ queue sched
  rw [step_collecting wf session queue sched]
  cases ph <;> rfl

/-! ## No step to take -/

/-- Settles O37: in `Maintenance`, and with no byte to take. -/
theorem blockedProtocolDoesNothing : Obligations.BlockedProtocolDoesNothing := by
  intro s rest wf sched blocked
  rw [step_protocol wf sched]
  rcases blocked with maintenance | ⟨queue, receives⟩
  · exact protocolStep_maintenance maintenance
  · exact protocolStep_blocked queue receives

end Sys2Proof.Machine
end

section
/-!
PROOFS. An instruction run whole is its single steps (R140 to R152): its bytes are taken in the order of its format, and
the last of them runs it, or starts the command whose micro-steps then follow.
-/

namespace Sys2Proof.Machine

/-! ## The bytes of an instruction -/

/-- The bytes that give a command its string, if it takes one (R76). -/
def stringBytes (k : Cmd) (text : List Byte) : List Byte := if k.hasString then encodeString text else []

theorem paramsOk_iff {k : Cmd} {fixed buffer : List Byte} :
    paramsOk k fixed buffer = true ↔
      fixed.length = k.nfixed ∧ buffer.length ≤ 255 ∧ (k.hasString = true ∨ buffer = []) := by
  simp only [paramsOk, Bool.and_eq_true, Bool.or_eq_true, decide_eq_true_eq, and_assoc]

theorem lookup_unknown {c : Config} {b : Byte} (ok : (Instr.unknown b).wf c = true) : lookup c b = none :=
  lookup_none_iff.2 (by simpa only [Instr.wf, Bool.not_eq_true'] using ok)

/-- The latch instructions by their bytes: one byte received in `Idle`, the `PREFIX` byte and one that selects no
command, or a command sequence (R72, R73, R214). -/
theorem latchBytes_cases {c : Config} {i : Instr} (ok : i.wf c = true) (notPrefix : i ≠ .pfx)
    (onLatch : latchBytes c i ≠ []) :
    (∃ b, i = decodeIdle c b ∧ latchBytes c i = [b]) ∨
    (∃ b, i = .unknown b ∧ lookup c b = none ∧ latchBytes c i = [c.prefixByte, b]) ∨
    ∃ k fixed text, i = .ofCmd k fixed text ∧ paramsOk k fixed text = true ∧
      latchBytes c i = encodeCmd c k (fixed ++ stringBytes k text) := by
  cases i with
  | release => exact absurd rfl onLatch
  | rdL addr => exact absurd rfl onLatch
  | rdU addr => exact absurd rfl onLatch
  | pfx => exact absurd rfl notPrefix
  | ign b =>
    simp only [Instr.wf, List.contains_eq_mem, Bool.and_eq_true, decide_eq_true_eq] at ok
    exact .inl ⟨b, (ignoredByteChangesNothing.1 c b ok.1 ok.2).symm, rfl⟩
  | sel b =>
    simp only [Instr.wf, List.contains_eq_mem, Bool.and_eq_true, Bool.not_eq_true', decide_eq_true_eq,
      decide_eq_false_iff_not] at ok
    exact .inl ⟨b, (bankSelectStoresBankOrNoBank.1 c b ok.1 ok.2).symm, rfl⟩
  | dirFirst => exact .inr (.inr ⟨.dirFirst, [], [], rfl, rfl, rfl⟩)
  | dirNext => exact .inr (.inr ⟨.dirNext, [], [], rfl, rfl, rfl⟩)
  | romListFirst => exact .inr (.inr ⟨.romListFirst, [], [], rfl, rfl, rfl⟩)
  | romListNext => exact .inr (.inr ⟨.romListNext, [], [], rfl, rfl, rfl⟩)
  | romIn p0 path =>
    exact .inr (.inr ⟨.romIn, [p0], path, rfl, paramsOk_iff.2 ⟨rfl, of_decide_eq_true ok, .inl rfl⟩, rfl⟩)
  | romOut p0 => exact .inr (.inr ⟨.romOut, [p0], [], rfl, rfl, rfl⟩)
  | cfgSet name =>
    exact .inr (.inr ⟨.configSet, [], name, rfl, paramsOk_iff.2 ⟨rfl, of_decide_eq_true ok, .inl rfl⟩, rfl⟩)
  | led p0 => exact .inr (.inr ⟨.led, [p0], [], rfl, rfl, rfl⟩)
  | picoload => exact .inr (.inr ⟨.picoload, [], [], rfl, rfl, rfl⟩)
  | unknown b => exact .inr (.inl ⟨b, rfl, lookup_unknown ok, rfl⟩)

/-! ## Turns in a row that perform an instruction -/

/-- A command's meaning does not depend on the session: its plan does not, and the session it ends with is its own. -/
theorem exec_ofCmd_session {s : State} (w : Memory.wf s.mem = true) (k : Cmd) (fixed buffer : List Byte) (v : Session) :
    exec (.ofCmd k fixed buffer) { s with session := v } = exec (.ofCmd k fixed buffer) s := by
  obtain ⟨t, meaning, ends⟩ := stepsOf_ends w k fixed buffer
  obtain ⟨u, meaning', ends'⟩ := stepsOf_ends (s := putAside v s.sched s.draws s) w k fixed buffer
  rw [stepsOf_aside] at ends'
  have same : u = putAside v s.sched t.draws t := ends'.unique (ends.aside v s.sched)
  have sched : t.sched = s.sched := by
    obtain ⟨t', answers, keeps⟩ := exec_ofCmd_keeps k fixed buffer s
    cases meaning.symm.trans answers
    exact keeps.sched
  refine meaning'.trans ?_
  rw [same, meaning, putAside, ← sched]

/-- From `s`, whatever its session, Context B's turns in a row end where the instruction does from `Idle`, the queue
left at `q`. -/
def PerformsByTurns (i : Instr) (q : List Byte) (s : State) : Prop :=
  ∃ n, ∀ rest : List Turn,
    Sys2Proof.core.run n { s with sched := List.replicate n .protocol ++ rest } =
      exec i { s with session := .idle, latchQ := q, sched := rest }

/-- A turn after which the rest is performed. -/
theorem PerformsByTurns.cons {i : Instr} {q q' : List Byte} {s : State} {v : Session}
    (turn : ∀ rest, step { s with sched := .protocol :: rest } =
      .next { s with session := v, latchQ := q', sched := rest })
    (after : PerformsByTurns i q { s with session := v, latchQ := q' }) : PerformsByTurns i q s := by
  obtain ⟨n, runs⟩ := after
  exact ⟨n + 1, fun rest => (run_succ n (turn _)).trans (runs rest)⟩

/-- A turn that is the instruction's meaning. -/
theorem PerformsByTurns.single {i : Instr} {q : List Byte} {s : State}
    (turn : ∀ rest, step { s with sched := .protocol :: rest } =
      exec i { s with session := .idle, latchQ := q, sched := rest }) : PerformsByTurns i q s := by
  refine ⟨1, fun rest => ?_⟩
  obtain ⟨t, meaning⟩ := exec_next i { s with session := .idle, latchQ := q, sched := rest }
  rw [meaning]
  exact run_succ 0 ((turn rest).trans meaning)

section Commands

variable {k : Cmd} {fixed text q : List Byte} {s : State} (wf : s.cfg.wf = true) (w : Memory.wf s.mem = true)
include wf w

/-- A turn that starts the command (R150, R152). -/
theorem PerformsByTurns.start
    (turn : ∀ rest, step { s with sched := .protocol :: rest } =
      .next (startCmd k fixed text { s with latchQ := q, sched := rest })) :
    PerformsByTurns (.ofCmd k fixed text) q s := by
  obtain ⟨n, runs⟩ := microStepsAddUpToTheCommand k fixed text { s with latchQ := q } wf w
  refine ⟨n + 1, fun rest => ?_⟩
  have session := exec_ofCmd_session (s := { s with latchQ := q, sched := rest }) w k fixed text .idle
  exact (run_succ n (turn _)).trans ((runs rest).trans session.symm)

/-- The bytes of a string still awaited (R149). -/
theorem performs_string {got : List Byte} (session : s.session = .collectingParams k .str text.length fixed got)
    (nonempty : text ≠ []) (queue : s.latchQ = text ++ q) : PerformsByTurns (.ofCmd k fixed (got ++ text)) q s := by
  induction text generalizing got s with
  | nil => exact absurd rfl nonempty
  | cons b text ih =>
    have taken (rest : List Turn) := step_collecting (s := { s with sched := .protocol :: rest }) wf session queue rfl
    cases text with
    | nil => exact .start wf w taken
    | cons b' text =>
      rw [List.append_cons]
      refine .cons (fun rest => (taken rest).trans ?_)
        (ih (s := { s with session := .collectingParams k .str (b' :: text).length fixed (got ++ [b])
                           latchQ := b' :: text ++ q }) wf w rfl (List.cons_ne_nil _ _) rfl)
      rw [collectByte, if_pos (by simp)]
      rfl

/-- The length byte and the string (R148, R149). -/
theorem performs_lengthByte (session : s.session = .collectingParams k .len 1 fixed []) (fits : text.length ≤ 255)
    (queue : s.latchQ = encodeString text ++ q) : PerformsByTurns (.ofCmd k fixed text) q s := by
  have taken (rest : List Turn) := step_collecting (s := { s with sched := .protocol :: rest }) wf session queue rfl
  cases text with
  | nil => exact .start wf w taken
  | cons b text =>
    have length : (BitVec.ofNat 8 (b :: text).length).toNat = (b :: text).length := by
      rw [BitVec.toNat_ofNat]
      omega
    have nonzero : BitVec.ofNat 8 (b :: text).length ≠ 0 := fun zero => by
      rw [zero] at length
      cases length
    refine .cons (fun rest => (taken rest).trans ?_)
      (performs_string (s := { s with session := .collectingParams k .str (b :: text).length fixed []
                                      latchQ := b :: text ++ q }) wf w rfl (List.cons_ne_nil _ _) rfl)
    rw [collectByte, if_neg nonzero, length]
    rfl

/-- The turn in which the fixed bytes are complete, and the string if the command takes one (R145, R147). -/
theorem performs_afterFixed (params : paramsOk k fixed text = true)
    (turn : ∀ rest, step { s with sched := .protocol :: rest } =
      .next (afterFixed k fixed { s with latchQ := stringBytes k text ++ q, sched := rest })) :
    PerformsByTurns (.ofCmd k fixed text) q s := by
  obtain ⟨-, fits, taken⟩ := paramsOk_iff.1 params
  cases string : k.hasString with
  | true =>
    simp only [afterFixed, stringBytes, string, if_true] at turn
    exact .cons turn (performs_lengthByte wf w rfl fits rfl)
  | false =>
    obtain rfl : text = [] := by simpa [string] using taken
    simp only [afterFixed, stringBytes, string, Bool.false_eq_true, if_false] at turn
    exact .start wf w turn

/-- The fixed bytes still awaited, and the string if the command takes one (R147). -/
theorem performs_fixed {got : List Byte} (session : s.session = .collectingParams k .fixed fixed.length got [])
    (nonempty : fixed ≠ []) (params : paramsOk k (got ++ fixed) text = true)
    (queue : s.latchQ = fixed ++ (stringBytes k text ++ q)) : PerformsByTurns (.ofCmd k (got ++ fixed) text) q s := by
  induction fixed generalizing got s with
  | nil => exact absurd rfl nonempty
  | cons b fixed ih =>
    have taken (rest : List Turn) := step_collecting (s := { s with sched := .protocol :: rest }) wf session queue rfl
    cases fixed with
    | nil => exact performs_afterFixed wf w params taken
    | cons b' fixed =>
      rw [List.append_cons] at params ⊢
      refine .cons (fun rest => (taken rest).trans ?_)
        (ih (s := { s with session := .collectingParams k .fixed (b' :: fixed).length (got ++ [b]) []
                           latchQ := b' :: fixed ++ (stringBytes k text ++ q) })
          wf w rfl (List.cons_ne_nil _ _) params rfl)
      rw [collectByte, if_pos (by simp)]
      rfl

/-- The selector byte and the parameters (R145). -/
theorem performs_command (session : s.session = .awaitingCommand) (params : paramsOk k fixed text = true)
    (queue : s.latchQ = s.cfg.selector k :: (fixed ++ stringBytes k text) ++ q) :
    PerformsByTurns (.ofCmd k fixed text) q s := by
  have taken (rest : List Turn) : step { s with sched := .protocol :: rest } =
      .next (selected k { s with latchQ := fixed ++ (stringBytes k text ++ q), sched := rest }) := by
    rw [List.cons_append, List.append_assoc] at queue
    rw [step_awaiting (s := { s with sched := .protocol :: rest }) wf session queue rfl, selectorByte]
    simp only [lookup_selector wf]
  obtain ⟨count, -, -⟩ := paramsOk_iff.1 params
  simp only [selected, ← count] at taken
  cases fixed with
  | nil => exact performs_afterFixed wf w params taken
  | cons b fixed =>
    exact .cons taken
      (performs_fixed (got := []) (s := { s with session := .collectingParams k .fixed (b :: fixed).length [] []
                                                 latchQ := b :: fixed ++ (stringBytes k text ++ q) })
        wf w rfl (List.cons_ne_nil _ _) params rfl)

end Commands

/-- A byte that selects no command (R145, R214). -/
theorem performs_unknown {b : Byte} {q : List Byte} {s : State} (wf : s.cfg.wf = true)
    (session : s.session = .awaitingCommand) (unselected : lookup s.cfg b = none) (queue : s.latchQ = b :: q) :
    PerformsByTurns (.unknown b) q s := by
  refine .single fun rest => ?_
  rw [step_awaiting (s := { s with sched := .protocol :: rest }) wf session queue rfl, selectorByte]
  simp only [unselected]
  rfl

/-- The `PREFIX` byte opens the command (R141). -/
theorem PerformsByTurns.afterPrefix {i : Instr} {q q' : List Byte} {s : State} (wf : s.cfg.wf = true)
    (session : s.session = .idle) (queue : s.latchQ = s.cfg.prefixByte :: q')
    (after : PerformsByTurns i q { s with session := .awaitingCommand, latchQ := q' }) : PerformsByTurns i q s := by
  refine .cons (fun rest => ?_) after
  rw [protocolTurnRunsTheDecodedByte { s with sched := .protocol :: rest } _ q' rest wf rfl session queue,
    prefixOpensACommand.1, prefixOpensACommand.2]

/-- Context B's turns in a row perform the instruction at the head of the queue. -/
theorem performs_latchBytes {i : Instr} {q : List Byte} {s : State} (wf : s.cfg.wf = true) (w : Memory.wf s.mem = true)
    (session : s.session = .idle) (ok : i.wf s.cfg = true) (notPrefix : i ≠ .pfx) (onLatch : latchBytes s.cfg i ≠ [])
    (queue : s.latchQ = latchBytes s.cfg i ++ q) : PerformsByTurns i q s := by
  rcases latchBytes_cases ok notPrefix onLatch with
    ⟨b, rfl, bytes⟩ | ⟨b, rfl, unselected, bytes⟩ | ⟨k, fixed, text, rfl, params, bytes⟩
  · rw [bytes] at queue
    refine .single fun rest => ?_
    rw [protocolTurnRunsTheDecodedByte { s with sched := .protocol :: rest } b q rest wf rfl session queue, ← session]
  · rw [bytes] at queue
    exact .afterPrefix wf session queue (performs_unknown wf rfl unselected rfl)
  · rw [bytes] at queue
    exact .afterPrefix wf session queue (performs_command wf w rfl params rfl)

/-- Settles O41: the whole turn performs the instruction the queue begins with, and so do the single turns. -/
theorem wholeTurnIsItsSingleSteps : Obligations.WholeTurnIsItsSingleSteps := by
  intro s i q wf w session ok notPrefix onLatch queue
  have decoded : decode s.cfg s.latchQ = .instr i q :=
    queue ▸ decoderTakesExactlyOneSequence s.cfg i q wf ok onLatch notPrefix
  obtain ⟨n, runs⟩ := performs_latchBytes wf w session ok notPrefix onLatch queue
  have whole (rest : List Turn) : step { s with sched := .protocolWhole :: rest } =
      exec i { s with session := .idle, latchQ := q, sched := rest } := by
    rw [wholeTurnRunsTheDecodedInstruction { s with sched := .protocolWhole :: rest } i q rest wf rfl session decoded,
      ← session]
  exact ⟨n, fun rest => (runs rest).trans (whole rest).symm⟩

end Sys2Proof.Machine
end

section
/-!
PROOFS. The commands without a response (R213, R214): `PICOLOAD`, what `Maintenance` allows from then on, and the byte
that selects no command.
-/

namespace Sys2Proof.Machine

/-! ## The two commands -/

/-- Settles O31: from a released line `AssertReset` gives the edge and cuts the host's cycle short. -/
theorem picoloadEntersMaintenance : Obligations.PicoloadEntersMaintenance := by
  intro s line
  change Host.Outcome.next { assertReset s with session := .maintenance } = _
  rw [assertReset_frame line]

/-- Settles O32: the lookup finds no command for the byte, and completing writes the session alone. -/
theorem unknownCommandIsIgnored : Obligations.UnknownCommandIsIgnored :=
  ⟨fun _ _ rest unselected => decode_unknown (by simpa using unselected) rest, fun _ _ => rfl⟩

/-! ## In `Maintenance` -/

/-- Context B takes no step of its own, single or whole. -/
theorem runTurn_maintenance {turn : Turn} {s : State} (session : s.session = .maintenance)
    (protocol : isProtocolTurn turn = true) : runTurn turn s = .next s := by
  rcases isProtocolTurn_iff.1 protocol with rfl | rfl
  · exact protocolStep_maintenance session
  · simp only [runTurn, protocolWhole, session, protocolStep_maintenance session]

/-- Only the engine and the host still act: on the bus, the host's lines, the queue and the marks. -/
theorem step_maintenance {s t : State} (session : s.session = .maintenance) (h : step s = .next t) :
    t = { s with
      dbusOut := t.dbusOut, romEnable := t.romEnable, region := t.region, addr := t.addr, cycle := t.cycle,
      latchQ := t.latchQ, marks := t.marks, trace := t.trace, draws := t.draws, sched := t.sched } := by
  rcases step_cases h with ⟨-, frame⟩ | ⟨protocol, -⟩ | ⟨-, frame⟩
  · rw [frame]
  · obtain ⟨-, ran⟩ := step_next h
    rw [runTurn_maintenance (by simpa using session) protocol] at ran
    cases ran
    rw [turnTaken_frame]
  · rw [frame]

/-- No byte has left the queue of `s`, unless an overflow has left its content open, and none has been added while the
line is asserted (R236, R263). -/
def QueueKept (s t : State) : Prop :=
  (s.latchQ <+: t.latchQ ∨ t.marks.latchOverflow = true) ∧ (s.hostReset = .asserted → t.latchQ = s.latchQ)

theorem QueueKept.ofEq {s t : State} (same : t.latchQ = s.latchQ) : QueueKept s t :=
  ⟨.inl (same ▸ List.prefix_rfl), fun _ => same⟩

/-- A latch write appends its byte or overflows. -/
theorem hostLatch_queue (b : Byte) (s : State) :
    s.latchQ <+: (hostLatch b s).latchQ ∨ (hostLatch b s).marks.latchOverflow = true := by
  unfold hostLatch
  split
  · exact .inl (List.prefix_append _ _)
  · exact .inr rfl

/-- Of the host's acts only the latch write touches the queue, and it is not enabled under an asserted line. -/
theorem HostDid.queueKept {act : HostAct} {s t : State} (did : HostDid act s t) (enabled : hostEnabled act s = true) :
    QueueKept s t := by
  cases act with
  | latch b =>
    cases did
    refine ⟨hostLatch_queue b s, fun held => ?_⟩
    rw [hostEnabled_held held rfl] at enabled
    cases enabled
  | present =>
    obtain ⟨-, rfl⟩ := did
    exact .ofEq rfl
  | breach =>
    obtain ⟨-, rfl⟩ := did
    exact .ofEq rfl
  | sample =>
    cases did
    exact .ofEq rfl
  | drop =>
    cases did
    exact .ofEq rfl

/-- In `Maintenance` no agent takes a byte from the queue (R213, R242). -/
theorem runTurn_maintenance_queueKept {turn : Turn} {s t : State} (session : s.session = .maintenance)
    (h : runTurn turn s = .next t) : QueueKept s t := by
  rcases runTurn_cases h with ⟨rfl, -⟩ | ⟨protocol, -⟩ | ⟨act, -, ⟨-, rfl⟩ | ⟨enabled, did⟩⟩
  · exact .ofEq (by rw [engineStep_frame h])
  · rw [runTurn_maintenance session (isProtocolTurn_iff.2 protocol)] at h
    cases h
    exact .ofEq rfl
  · exact .ofEq rfl
  · exact did.queueKept enabled

/-- The engine's turn releases the bus while `rom_enable` is off (R121). -/
theorem step_engine_disabled {s t : State} (off : s.romEnable = false) (engine : nextTurn s = .engine)
    (h : step s = .next t) : t.dbusOut = .hiZ := by
  obtain ⟨-, ran⟩ := step_next h
  rw [engine, runTurn, engineStep_disabled (by simpa using off)] at ran
  cases ran
  rfl

/-- Settles O50: the frame of a step in `Maintenance`, the queue, then the engine. -/
theorem maintenanceIsFinal : Obligations.MaintenanceIsFinal := by
  intro s t session h
  have frame := step_maintenance session h
  obtain ⟨-, ran⟩ := step_next h
  obtain ⟨taken, held⟩ := runTurn_maintenance_queueKept (by simpa using session) ran
  simp only [turnTaken_latchQ, turnTaken_hostReset] at taken held
  refine ⟨?_, ?_, ?_, ?_, ?_, taken, held, fun off engine => step_engine_disabled off engine h⟩
  · rw [frame]
    exact session
  all_goals rw [frame]

end Sys2Proof.Machine
end

section
/-!
PROOFS. The cases at the edge (R220, R236): the only turn that has no next state, and the latch write that finds the
queue full.
-/

namespace Sys2Proof.Machine

/-! ## Every turn has a next state -/

/-- The host's part in R220: its acts have a next state but for an address it does not have (log entry 20). -/
theorem hostActs_next {act : HostAct} {s : State}
    (bound : ∀ region addr, act = .present region addr ∨ act = .breach region addr → addr < 2 ^ s.cfg.hostAddrBits) :
    ∃ t, hostActs act s = .next t := by
  cases act with
  | present region addr => exact ⟨_, presentStep_bounded (bound region addr (.inl rfl))⟩
  | breach region addr => exact ⟨_, presentStep_bounded (bound region addr (.inr rfl))⟩
  | sample => exact ⟨_, rfl⟩
  | drop => exact ⟨_, rfl⟩
  | latch b => exact ⟨_, rfl⟩

/-- The engine and Context B always have a next state, and so has the host with an address in range. -/
theorem runTurn_next {turn : Turn} {s : State}
    (bound : ∀ region addr, turn = .host (.present region addr) ∨ turn = .host (.breach region addr) →
      addr < 2 ^ s.cfg.hostAddrBits) :
    ∃ t, runTurn turn s = .next t := by
  cases turn with
  | engine => exact exec_next _ _
  | protocol => exact (protocolStep_keeps s).imp fun _ did => did.1
  | protocolWhole => exact (protocolWhole_keeps s).imp fun _ did => did.1
  | host act =>
    rw [runTurn]
    cases enabled : hostEnabled act s with
    | false => exact ⟨s, hostStep_disabled enabled⟩
    | true =>
      rw [hostStep_enabled enabled]
      exact hostActs_next fun region addr presents => bound region addr (by simpa using presents)

/-- Settles O52: a well-formed configuration is not refused, and its next turn has a next state. -/
theorem theBlockNeverStops : Obligations.TheBlockNeverStops := by
  intro s wf bound
  rw [step_wf wf]
  exact runTurn_next (by simpa using bound)

/-! ## A full queue -/

/-- The other branch of `hostLatch_room`: the queue is a free one, and a draw is taken for it (R236, U5). -/
theorem hostLatch_full {b : Byte} {s : State} (full : s.cfg.latchQDepth ≤ s.latchQ.length) :
    hostLatch b s = drawn (markLatchOverflow { s with latchQ := Config.freeQueue s.draws }) :=
  if_neg (by omega)

/-- Settles O46: the write is enabled, and it finds the queue full. -/
theorem latchOverflowIsMarked : Obligations.LatchOverflowIsMarked := by
  intro s rest b wf sched released idle full
  rw [step_host_enabled wf sched (by simp [hostEnabled, released, idle]), hostActs,
    hostLatch_full (s := { s with sched := rest }) full]
  exact ⟨_, rfl, rfl, rfl⟩

end Sys2Proof.Machine
end
